-- ==== Sys2Proof/Word.lean ====
section
/-! DEFINITION. Word.lean: the bit-vector types of the machine (spec 10 R10, R13; 20 R30). -/

namespace Sys2Proof

/-- One memory cell (20 R30). -/
abbrev Byte := BitVec 8

/-- A general-purpose register, an address, the pc, an instruction word (10 R10, R12; 30 R40).
The 32-bit width is the spec's decision D3. -/
abbrev Word := BitVec 32

/-- A doubleword register (10 R13, R14). -/
abbrev DWord := BitVec 64

/-- A quadword register (10 R13, R15). -/
abbrev QWord := BitVec 128

end Sys2Proof
end

