-- ==== Sys2Proof/Config.lean ====
section
/-! DEFINITION. Config.lean: the parameters the spec leaves open (00 R161, 92 "Parameters left open"), fixed for a run.
They are one plain record, held in `State` and changed by no instruction. The spec leaves no RESULT open (93 part 1), so
there is no free value here. -/

namespace Sys2Proof

/-- `INSTR_SET` (92 D1): which of the two instruction sets a run executes. -/
inductive InstrSet where
  | a32
  | t32
  deriving DecidableEq, Repr

/-- `NUM_DREGS` (92 D2): 16 or 32 doubleword registers. -/
inductive DBank where
  | sixteen
  | thirtyTwo
  deriving DecidableEq, Repr

/-- The number `NUM_DREGS` stands for. -/
def DBank.count : DBank → Nat
  | .sixteen => 16
  | .thirtyTwo => 32

/-- The machine's configuration (00 R161, 70 R130). The defaults are the spec's (92, "Parameters left open"); `instrSet`
has none there. -/
structure Config where
  /-- `INSTR_SET`. -/
  instrSet : InstrSet
  /-- `NUM_DREGS`. -/
  bank : DBank := .thirtyTwo
  /-- `BIG_ENDIAN`. -/
  bigEndian : Bool := false
  /-- `STRICT_ALIGN`. -/
  strictAlign : Bool := false
  /-- `SIMD_ENABLED`. -/
  simdEnabled : Bool := true
  deriving DecidableEq, Repr

/-- `NUM_DREGS` as a number (10 R14). -/
def Config.numDregs (c : Config) : Nat := c.bank.count

end Sys2Proof
end

