-- ==== Sys2Proof/Syntax.lean ====
section
/-! DEFINITION. Syntax.lean: the instructions, one constructor for each of the fourteen rows of spec/opcode_table.json
(30 R54, 44 R110), with their operands after the fields have been pulled apart. The operands keep every value the fields can
hold, the ones the spec calls Undefined or Unpredictable included: those are settled by the meanings (44 R112 to R115), not
by the syntax. -/

namespace Sys2Proof

/-- A doubleword register number as a field pair encodes it, 0 to 31 (30 R45). With `NUM_DREGS` = 16 the upper sixteen name
no register (10 R14). -/
abbrev DNum := Fin 32

/-- The four values of a two-bit `size` field: 8, 16, 32, 64 bits as 0b00 to 0b11 (42 R89, 44 R112 to R115). -/
inductive ElemSize where
  | e8
  | e16
  | e32
  | e64
  deriving DecidableEq, Repr

/-- The four values of VLD1's `align` field (44 R115). -/
inductive AlignSpec where
  | unspecified
  | a64
  | a128
  | a256
  deriving DecidableEq, Repr

/-- The three formats of the Advanced SIMD addressing mode, which the `Rm` field selects (41 R71, R72, R73).
`byRegister` never holds 15 by its type and never 13 in a well-formed instruction: those two field values are the other two
formats. -/
inductive AddrFormat where
  | noWriteback
  | byTransferSize
  | byRegister (rm : Fin 15)
  deriving DecidableEq, Repr

/-- The fields of VADD (integer) (44 R112). `quad` is the Q bit; `d`, `n`, `m` are the doubleword numbers the field pairs
hold, in the Q form those of each quadword register's first half (30 R46). -/
structure VaddOperands where
  size : ElemSize
  quad : Bool
  d : DNum
  n : DNum
  m : DNum
  deriving DecidableEq, Repr

/-- The fields of VSUBW (44 R113). `size` is the element size of `<Dm>`; `d` and `n` are quadword fields held as doubleword
numbers. -/
structure VsubwOperands where
  isUnsigned : Bool
  size : ElemSize
  d : DNum
  n : DNum
  m : DNum
  deriving DecidableEq, Repr

/-- The fields of VMOVN (44 R114). `size` is the element size of the result; `m` is a quadword field held as a doubleword
number. -/
structure VmovnOperands where
  size : ElemSize
  d : DNum
  m : DNum
  deriving DecidableEq, Repr

/-- The fields of VLD1 (multiple single elements) (44 R115). The number of registers is the row's. `rn` may be 15 in a word:
41 R75 settles it. -/
structure Vld1Operands where
  size : ElemSize
  d : DNum
  rn : Fin 16
  align : AlignSpec
  format : AddrFormat
  deriving DecidableEq, Repr

/-- One constructor for each row of spec/opcode_table.json, in the table's order. -/
inductive Instr where
  | vaddA32 (o : VaddOperands)
  | vaddT32 (o : VaddOperands)
  | vsubwA32 (o : VsubwOperands)
  | vsubwT32 (o : VsubwOperands)
  | vmovnA32 (o : VmovnOperands)
  | vmovnT32 (o : VmovnOperands)
  | vld1OneA32 (o : Vld1Operands)
  | vld1OneT32 (o : Vld1Operands)
  | vld1TwoA32 (o : Vld1Operands)
  | vld1TwoT32 (o : Vld1Operands)
  | vld1ThreeA32 (o : Vld1Operands)
  | vld1ThreeT32 (o : Vld1Operands)
  | vld1FourA32 (o : Vld1Operands)
  | vld1FourT32 (o : Vld1Operands)
  deriving DecidableEq, Repr

/-- The instruction set whose row the constructor is (30 R54, key `iset`). -/
def Instr.instrSet : Instr → InstrSet
  | .vaddA32 _ | .vsubwA32 _ | .vmovnA32 _ => .a32
  | .vld1OneA32 _ | .vld1TwoA32 _ | .vld1ThreeA32 _ | .vld1FourA32 _ => .a32
  | .vaddT32 _ | .vsubwT32 _ | .vmovnT32 _ => .t32
  | .vld1OneT32 _ | .vld1TwoT32 _ | .vld1ThreeT32 _ | .vld1FourT32 _ => .t32

end Sys2Proof
end

