-- ==== Sys2Proof/WellFormed.lean ====
section
/-! DEFINITION. WellFormed.lean: which terms of `Instr` a row of spec/opcode_table.json can encode. Two checks only: a
combination the spec calls Undefined or Unpredictable matches its row, so it is a well-formed instruction that faults. -/

namespace Sys2Proof

/-- VSUBW's row is constrained to `size != 0b11` (44 R113, the table's `constraint`). -/
def VsubwOperands.wellFormed (o : VsubwOperands) : Bool :=
  o.size ≠ .e64

/-- "Rm must not be encoded as 0b1111 or 0b1101" (41 R73): 15 is out by the type, 13 here. -/
def AddrFormat.wellFormed : AddrFormat → Bool
  | .noWriteback | .byTransferSize => true
  | .byRegister rm => rm ≠ 13

/-- The instruction is one that some word of its row encodes. -/
def Instr.wellFormed : Instr → Bool
  | .vaddA32 _ | .vaddT32 _ | .vmovnA32 _ | .vmovnT32 _ => true
  | .vsubwA32 o | .vsubwT32 o => o.wellFormed
  | .vld1OneA32 o | .vld1OneT32 o | .vld1TwoA32 o | .vld1TwoT32 o => o.format.wellFormed
  | .vld1ThreeA32 o | .vld1ThreeT32 o | .vld1FourA32 o | .vld1FourT32 o => o.format.wellFormed

end Sys2Proof
end

