-- ==== Sys2Proof/Decode.lean ====
section
/-! DEFINITION. Decode.lean: from instruction words to `Instr` and back, by the rows of spec/opcode_table.json (30 R54, 44
R112 to R115), and the register-number and scalar fields of 30 R45 to R50. For T32 a word is `hw1:hw2` (00 R7), so that the
fields have the same bit numbers in both sets (30 R42). -/

namespace Sys2Proof

/-- Bits `lo + len - 1` down to `lo` of an instruction word (00 R6, R7). -/
def fieldAt (w : Word) (lo len : Nat) : BitVec len :=
  w.extractLsb' lo len

/-! ## Register numbers in field pairs (30 R45, R46, R47) -/

/-- `UInt(x : v)`: a doubleword register number, the one-bit field most significant (R45). -/
def dNumber (x : BitVec 1) (v : BitVec 4) : DNum :=
  ⟨(x ++ v).toNat, (x ++ v).isLt⟩

/-- The one-bit field of `D<i>`: `i[4]` (R45). -/
def dHighBit (i : DNum) : BitVec 1 :=
  (BitVec.ofNat 5 i.val).extractLsb' 4 1

/-- The four-bit field of `D<i>`: `i[3:0]` (R45). -/
def dLowBits (i : DNum) : BitVec 4 :=
  (BitVec.ofNat 5 i.val).extractLsb' 0 4

/-- `UInt(x : v[3:1])`, a quadword register number, when `v[0]` is 0 (R46); a set low bit is no quadword register. -/
def qNumber? (x : BitVec 1) (v : BitVec 4) : Option (Fin 16) :=
  if v.extractLsb' 0 1 = 0#1 then
    some ⟨(x ++ v.extractLsb' 1 3).toNat, (x ++ v.extractLsb' 1 3).isLt⟩
  else none

/-- The one-bit field of `Q<k>`: `k[3]` (R46). -/
def qHighBit (k : Fin 16) : BitVec 1 :=
  (BitVec.ofNat 4 k.val).extractLsb' 3 1

/-- The four-bit field of `Q<k>`: `k[2:0]:0` (R46). -/
def qLowBits (k : Fin 16) : BitVec 4 :=
  (BitVec.ofNat 4 k.val).extractLsb' 0 3 ++ 0#1

/-- `UInt(v : x)`: a single-precision register number, the one-bit field least significant (R47). -/
def sNumber (v : BitVec 4) (x : BitVec 1) : Fin 32 :=
  ⟨(v ++ x).toNat, (v ++ x).isLt⟩

/-- The four-bit field of `S<j>`: `j[4:1]` (R47). -/
def sHighBits (j : Fin 32) : BitVec 4 :=
  (BitVec.ofNat 5 j.val).extractLsb' 1 4

/-- The one-bit field of `S<j>`: `j[0]` (R47). -/
def sLowBit (j : Fin 32) : BitVec 1 :=
  (BitVec.ofNat 5 j.val).extractLsb' 0 1

/-! ## Scalars in multiply instructions (30 R50, Table F1-16) -/

/-- The scalar sizes Table F1-16 has a row for. -/
inductive ScalarSize where
  | s16
  | s32
  deriving DecidableEq, Repr

/-- A scalar operand `D<reg>[index]` (43 R102). -/
structure Scalar where
  reg : DNum
  index : Nat
  deriving DecidableEq, Repr

/-- The scalar that the fields M and Vm name (R50). -/
def decodeScalar (size : ScalarSize) (m : BitVec 1) (vm : BitVec 4) : Scalar :=
  match size with
  | .s16 => ⟨dNumber 0#1 (0#1 ++ vm.extractLsb' 0 3), (m ++ vm.extractLsb' 3 1).toNat⟩
  | .s32 => ⟨dNumber 0#1 vm, m.toNat⟩

/-- The fields M and Vm of a scalar, `none` when the scalar has no encoding: a register outside D0 to D7 (16-bit) or D0 to
D15 (32-bit), or an index the register does not have (R50, 43 R103). -/
def encodeScalar? (size : ScalarSize) (x : Scalar) : Option (BitVec 1 × BitVec 4) :=
  match size with
  | .s16 =>
    if x.reg.val ≤ 7 ∧ x.index < 4 then
      some ((BitVec.ofNat 2 x.index).extractLsb' 1 1,
        (BitVec.ofNat 2 x.index).extractLsb' 0 1 ++ BitVec.ofNat 3 x.reg.val)
    else none
  | .s32 =>
    if x.reg.val ≤ 15 ∧ x.index < 2 then
      some (BitVec.ofNat 1 x.index, BitVec.ofNat 4 x.reg.val)
    else none

/-! ## The other fields -/

/-- The `size` field's meaning (44 R112 to R115). -/
def sizeOfField (b : BitVec 2) : ElemSize :=
  if b = 0b00#2 then .e8 else if b = 0b01#2 then .e16 else if b = 0b10#2 then .e32 else .e64

/-- The `size` field of an element size. -/
def sizeField : ElemSize → BitVec 2
  | .e8 => 0b00#2
  | .e16 => 0b01#2
  | .e32 => 0b10#2
  | .e64 => 0b11#2

/-- The `align` field's meaning (44 R115). -/
def alignOfField (b : BitVec 2) : AlignSpec :=
  if b = 0b00#2 then .unspecified else if b = 0b01#2 then .a64 else if b = 0b10#2 then .a128 else .a256

/-- The `align` field of an alignment. -/
def alignField : AlignSpec → BitVec 2
  | .unspecified => 0b00#2
  | .a64 => 0b01#2
  | .a128 => 0b10#2
  | .a256 => 0b11#2

/-- The format that the `Rm` field selects: 0b1111 format 1, 0b1101 format 2, any other value format 3 with that register
(41 R71, R72, R73; R74 "every value of m from 0 to 15 is thus given a meaning"). -/
def formatOfField (rm : BitVec 4) : AddrFormat :=
  if rm = 0b1111#4 then .noWriteback
  else if rm = 0b1101#4 then .byTransferSize
  else if h : rm.toNat < 15 then .byRegister ⟨rm.toNat, h⟩
  else .noWriteback

/-- The `Rm` field of a format. -/
def formatField : AddrFormat → BitVec 4
  | .noWriteback => 0b1111#4
  | .byTransferSize => 0b1101#4
  | .byRegister rm => BitVec.ofNat 4 rm.val

/-- The one-bit field that holds a flag: 1 for true (30 R43). -/
def flagBit (b : Bool) : BitVec 1 :=
  BitVec.ofBool b

/-! ## The rows (spec/opcode_table.json) -/

/-- VADD's fields: `D size Vn Vd N Q M Vm` (44 R112). -/
def vaddFields (w : Word) : VaddOperands where
  size := sizeOfField (fieldAt w 20 2)
  quad := fieldAt w 6 1 = 1#1
  d := dNumber (fieldAt w 22 1) (fieldAt w 12 4)
  n := dNumber (fieldAt w 7 1) (fieldAt w 16 4)
  m := dNumber (fieldAt w 5 1) (fieldAt w 0 4)

/-- VSUBW's fields, U at bit `uBit` (24 in A32, 28 in T32), under the row's constraint `size != 0b11` (44 R113). -/
def vsubwFields (uBit : Nat) (w : Word) : Option VsubwOperands :=
  if fieldAt w 20 2 = 0b11#2 then none
  else some
    { isUnsigned := fieldAt w uBit 1 = 1#1
      size := sizeOfField (fieldAt w 20 2)
      d := dNumber (fieldAt w 22 1) (fieldAt w 12 4)
      n := dNumber (fieldAt w 7 1) (fieldAt w 16 4)
      m := dNumber (fieldAt w 5 1) (fieldAt w 0 4) }

/-- VMOVN's fields: `D size Vd M Vm` (44 R114). -/
def vmovnFields (w : Word) : VmovnOperands where
  size := sizeOfField (fieldAt w 18 2)
  d := dNumber (fieldAt w 22 1) (fieldAt w 12 4)
  m := dNumber (fieldAt w 5 1) (fieldAt w 0 4)

/-- VLD1's fields: `D Rn Vd size align Rm` (44 R115, 30 R51). -/
def vld1Fields (w : Word) : Vld1Operands where
  size := sizeOfField (fieldAt w 6 2)
  d := dNumber (fieldAt w 22 1) (fieldAt w 12 4)
  rn := (fieldAt w 16 4).toFin
  align := alignOfField (fieldAt w 4 2)
  format := formatOfField (fieldAt w 0 4)

/-- One row of spec/opcode_table.json: a word `w` matches it when `w &&& mask = bits` and `build w` is some instruction (the
row's `constraint`, where it has one, is in `build`). -/
structure Row where
  iset : InstrSet
  mnemonic : String
  bits : Word
  mask : Word
  build : Word → Option Instr

/-- The seven A32 rows. -/
def rowsA32 : List Row :=
  [ ⟨.a32, "VADD__integer", 0xF2000800#32, 0xFF800F10#32, fun w => some (.vaddA32 (vaddFields w))⟩,
    ⟨.a32, "VSUBW", 0xF2800300#32, 0xFE800F50#32, fun w => (vsubwFields 24 w).map .vsubwA32⟩,
    ⟨.a32, "VMOVN", 0xF3B20200#32, 0xFFB30FD0#32, fun w => some (.vmovnA32 (vmovnFields w))⟩,
    ⟨.a32, "VLD1__multiple_single_elements___1_register", 0xF4200700#32, 0xFFB00F00#32,
      fun w => some (.vld1OneA32 (vld1Fields w))⟩,
    ⟨.a32, "VLD1__multiple_single_elements___2_registers", 0xF4200A00#32, 0xFFB00F00#32,
      fun w => some (.vld1TwoA32 (vld1Fields w))⟩,
    ⟨.a32, "VLD1__multiple_single_elements___3_registers", 0xF4200600#32, 0xFFB00F00#32,
      fun w => some (.vld1ThreeA32 (vld1Fields w))⟩,
    ⟨.a32, "VLD1__multiple_single_elements___4_registers", 0xF4200200#32, 0xFFB00F00#32,
      fun w => some (.vld1FourA32 (vld1Fields w))⟩ ]

/-- The seven T32 rows. -/
def rowsT32 : List Row :=
  [ ⟨.t32, "VADD__integer", 0xEF000800#32, 0xFF800F10#32, fun w => some (.vaddT32 (vaddFields w))⟩,
    ⟨.t32, "VSUBW", 0xEF800300#32, 0xEF800F50#32, fun w => (vsubwFields 28 w).map .vsubwT32⟩,
    ⟨.t32, "VMOVN", 0xFFB20200#32, 0xFFB30FD0#32, fun w => some (.vmovnT32 (vmovnFields w))⟩,
    ⟨.t32, "VLD1__multiple_single_elements___1_register", 0xF9200700#32, 0xFFB00F00#32,
      fun w => some (.vld1OneT32 (vld1Fields w))⟩,
    ⟨.t32, "VLD1__multiple_single_elements___2_registers", 0xF9200A00#32, 0xFFB00F00#32,
      fun w => some (.vld1TwoT32 (vld1Fields w))⟩,
    ⟨.t32, "VLD1__multiple_single_elements___3_registers", 0xF9200600#32, 0xFFB00F00#32,
      fun w => some (.vld1ThreeT32 (vld1Fields w))⟩,
    ⟨.t32, "VLD1__multiple_single_elements___4_registers", 0xF9200200#32, 0xFFB00F00#32,
      fun w => some (.vld1FourT32 (vld1Fields w))⟩ ]

/-- "A decoder uses only the seven rows of its INSTR_SET" (30 R54). -/
def rowsOf : InstrSet → List Row
  | .a32 => rowsA32
  | .t32 => rowsT32

/-- The word has the row's fixed bits. -/
def Row.hasBits (r : Row) (w : Word) : Bool :=
  w &&& r.mask = r.bits

/-- What the row reads from a word, `none` when the word does not match it. -/
def Row.read (r : Row) (w : Word) : Option Instr :=
  if r.hasBits w then r.build w else none

/-- Why a decoder answers no instruction. -/
inductive Rejection where
  /-- The word matches no row: "no instruction description in source" (30 R53, 60 R125). -/
  | noInstructionDescription
  /-- Fewer bytes than the four that an instruction has (30 R40). -/
  | truncated
  deriving DecidableEq, Repr

/-- Decodes a 32-bit instruction word of the instruction set (44 R111 step 2). -/
def decode (iset : InstrSet) (w : Word) : Except Rejection Instr :=
  match (rowsOf iset).findSome? (·.read w) with
  | some i => .ok i
  | none => .error .noInstructionDescription

/-- The row's mnemonic, letter for letter as spec/opcode_table.json spells it. -/
def Instr.mnemonic : Instr → String
  | .vaddA32 _ | .vaddT32 _ => "VADD__integer"
  | .vsubwA32 _ | .vsubwT32 _ => "VSUBW"
  | .vmovnA32 _ | .vmovnT32 _ => "VMOVN"
  | .vld1OneA32 _ | .vld1OneT32 _ => "VLD1__multiple_single_elements___1_register"
  | .vld1TwoA32 _ | .vld1TwoT32 _ => "VLD1__multiple_single_elements___2_registers"
  | .vld1ThreeA32 _ | .vld1ThreeT32 _ => "VLD1__multiple_single_elements___3_registers"
  | .vld1FourA32 _ | .vld1FourT32 _ => "VLD1__multiple_single_elements___4_registers"

/-! ## Bytes (20 R32: an A32 word is little-endian; a T32 instruction is `hw1`, then `hw2`, each little-endian) -/

/-- The 32-bit value of the four bytes of an instruction, lowest address first. -/
def wordOfBytes (iset : InstrSet) (b0 b1 b2 b3 : Byte) : Word :=
  match iset with
  | .a32 => b3 ++ b2 ++ b1 ++ b0
  | .t32 => b1 ++ b0 ++ b3 ++ b2

/-- The four bytes of an instruction word, lowest address first. -/
def bytesOfWord (iset : InstrSet) (w : Word) : List Byte :=
  match iset with
  | .a32 => [fieldAt w 0 8, fieldAt w 8 8, fieldAt w 16 8, fieldAt w 24 8]
  | .t32 => [fieldAt w 16 8, fieldAt w 24 8, fieldAt w 0 8, fieldAt w 8 8]

/-- A T32 first halfword that starts a 32-bit instruction: bits [15:11] are 0b11101, 0b11110 or 0b11111 (30 R40). -/
def startsWideT32 (hw1 : BitVec 16) : Bool :=
  let top := hw1.extractLsb' 11 5
  top = 0b11101#5 || top = 0b11110#5 || top = 0b11111#5

/-- Decodes one instruction from the front of a list of bytes, total on any bytes, and returns the bytes after it. -/
def decodeBytes (iset : InstrSet) : List Byte → Except Rejection (Instr × List Byte)
  | b0 :: b1 :: b2 :: b3 :: rest =>
    match decode iset (wordOfBytes iset b0 b1 b2 b3) with
    | .ok i => .ok (i, rest)
    | .error e => .error e
  | _ => .error .truncated

/-! ## The encoder (44 R112 to R115) -/

/-- Bits 23 to 0 of VADD (the same in both sets, 44 R111). -/
def vaddLow (o : VaddOperands) : BitVec 24 :=
  0b0#1 ++ dHighBit o.d ++ sizeField o.size ++ dLowBits o.n ++ dLowBits o.d ++ 0b1000#4
    ++ dHighBit o.n ++ flagBit o.quad ++ dHighBit o.m ++ 0b0#1 ++ dLowBits o.m

/-- Bits 23 to 0 of VSUBW. -/
def vsubwLow (o : VsubwOperands) : BitVec 24 :=
  0b1#1 ++ dHighBit o.d ++ sizeField o.size ++ dLowBits o.n ++ dLowBits o.d ++ 0b0011#4
    ++ dHighBit o.n ++ 0b0#1 ++ dHighBit o.m ++ 0b0#1 ++ dLowBits o.m

/-- Bits 23 to 0 of VMOVN. -/
def vmovnLow (o : VmovnOperands) : BitVec 24 :=
  0b1#1 ++ dHighBit o.d ++ 0b11#2 ++ sizeField o.size ++ 0b10#2 ++ dLowBits o.d ++ 0b001000#6
    ++ dHighBit o.m ++ 0b0#1 ++ dLowBits o.m

/-- Bits 23 to 0 of VLD1 with the given `type` field. -/
def vld1Low (type : BitVec 4) (o : Vld1Operands) : BitVec 24 :=
  0b0#1 ++ dHighBit o.d ++ 0b10#2 ++ BitVec.ofNat 4 o.rn.val ++ dLowBits o.d ++ type
    ++ sizeField o.size ++ alignField o.align ++ formatField o.format

/-- The instruction word (for T32 as `hw1:hw2`). The top bytes are 44 R111's: A32 `1111 001U` and `1111 0100`, T32
`111U 1111` and `1111 1001`. -/
def encode : Instr → Word
  | .vaddA32 o => 0xF2#8 ++ vaddLow o
  | .vaddT32 o => 0xEF#8 ++ vaddLow o
  | .vsubwA32 o => 0b1111001#7 ++ flagBit o.isUnsigned ++ vsubwLow o
  | .vsubwT32 o => 0b111#3 ++ flagBit o.isUnsigned ++ 0b1111#4 ++ vsubwLow o
  | .vmovnA32 o => 0xF3#8 ++ vmovnLow o
  | .vmovnT32 o => 0xFF#8 ++ vmovnLow o
  | .vld1OneA32 o => 0xF4#8 ++ vld1Low 0b0111#4 o
  | .vld1OneT32 o => 0xF9#8 ++ vld1Low 0b0111#4 o
  | .vld1TwoA32 o => 0xF4#8 ++ vld1Low 0b1010#4 o
  | .vld1TwoT32 o => 0xF9#8 ++ vld1Low 0b1010#4 o
  | .vld1ThreeA32 o => 0xF4#8 ++ vld1Low 0b0110#4 o
  | .vld1ThreeT32 o => 0xF9#8 ++ vld1Low 0b0110#4 o
  | .vld1FourA32 o => 0xF4#8 ++ vld1Low 0b0010#4 o
  | .vld1FourT32 o => 0xF9#8 ++ vld1Low 0b0010#4 o

/-- The bytes of an instruction in the program text, lowest address first (20 R32). -/
def encodeBytes (i : Instr) : List Byte :=
  bytesOfWord i.instrSet (encode i)

/-! ## The table's words, for the host -/

/-- The instruction set in which a word of the table is an instruction. No word matches a row of each set: an A32 row has
bits 31 to 24 in F2 to F4, a T32 row in EF, F9, FF. -/
def tableSet? (w : Word) : Option InstrSet :=
  match decode .a32 w, decode .t32 w with
  | .ok _, _ => some .a32
  | _, .ok _ => some .t32
  | _, _ => none

/-- The instruction word whose bits, numbered as spec/opcode_table.json numbers them, are `w`, all bits at and above `nbits`
zero. -/
def tableWord (nbits w : Nat) : Word :=
  BitVec.ofNat 32 (w % 2 ^ nbits)

/-- What the decoder reads from the bytes of a table word, laid out as its instruction set stores them. -/
def decodeTableWord (nbits w : Nat) : Option Instr :=
  let word := tableWord nbits w
  match tableSet? word with
  | none => none
  | some iset =>
    match decodeBytes iset (bytesOfWord iset word) with
    | .ok (i, _) => some i
    | .error _ => none

end Sys2Proof
end

