-- ==== Sys2Proof/Machine/State.lean ====
section
/-! DEFINITION. State.lean: the machine's state as plain data (spec 10, its opening table; 70 R130), its fault reasons (60
R120) and its refusals (60 R125). -/

namespace Sys2Proof.Machine

/-- Why an encoding is Unpredictable (60 R122). -/
inductive UnpredictableReason where
  /-- The base register field is 0b1111 (41 R75). Safe. -/
  | baseIsPc
  /-- The register list runs past the last register (43 R97). Safe. -/
  | listWraps
  deriving DecidableEq, Repr

/-- The register that an UnwrittenRead names (60 R124; log 11). -/
inductive RegName where
  | r (i : Fin 15)
  | d (i : DNum)
  deriving DecidableEq, Repr

/-- The closed list of fault reasons (60 R120), which is what the fault record can hold. -/
inductive Fault where
  /-- Raised by every instruction when `SIMD_ENABLED` is false, by an odd quadword field, by a doubleword number at or above
  `NUM_DREGS`, by VMOVN with size 0b11 and by VLD1 with an alignment its type does not permit (60 R121). The hardware may
  take an exception and go on in a handler: safe. -/
  | undefined
  /-- Raised by VLD1 (60 R122). The hardware may do any of several things: safe. -/
  | unpredictable (reason : UnpredictableReason)
  /-- Raised by VLD1 at an address that breaks its alignment; carries the address (60 R123). Safe. -/
  | alignment (addr : Word)
  /-- Raised by VLD1 when a byte of the block is absent (carries the lowest absent address) or the block would wrap (carries
  its first address) (60 R124). Safe. -/
  | memFault (addr : Word)
  /-- Raised by `launchStep` of Launch.lean when an instruction reads a register, or part of one, that a launch gave no value and
  nothing has written (60 R124, 92 D9). No meaning and no `step` raises it, because every register of a `State` holds a value
  (log 2); a state in which it is recorded stays stopped with it. Safe. -/
  | unwrittenRead (register : RegName)
  deriving DecidableEq, Repr

/-- Why a step gives no meaning. -/
inductive Refusal where
  /-- An arm of `exec` whose instruction has no meaning yet. No arm is such an arm. Safe. -/
  | notModelled (mnemonic : String)
  /-- Raised by `step` for a word that matches no row of the instruction set: "no instruction description in source" (60
  R125). Safe. -/
  | noInstructionDescription
  /-- Raised by `step` when the pc stands right after the last word of the program: the run has ended and its state is final
  (70 R132). Safe. -/
  | programEnded
  /-- Raised by `step` when the pc is at no word of the program and not right after it, which no run from a well-formed
  launch reaches (70 R132). Safe. -/
  | fetchOutsideProgram
  deriving DecidableEq, Repr

/-- Data memory: the launch memory's bytes by address, addresses strictly rising (20 R30, R35). An address that is not listed
holds no byte. -/
abbrev Memory := List Host.Cell

/-- The program text: words at `base`, `base + 4`, ... (70 R132), held apart from data memory (20 R30, R37). -/
structure ProgramText where
  base : Word
  words : List Word
  deriving DecidableEq, Repr

/-- The state of the machine (10, its opening table; 70 R130). -/
structure State where
  /-- The run's parameters (00 R161); no instruction changes them. -/
  config : Config
  /-- R0 to R14 (10 R10); R13 is the SP (10 R11). -/
  regs : Vector Word 15
  /-- R15, the address of the instruction being executed (10 R12). -/
  pc : Word
  /-- D0 to D31 (10 R14). With `NUM_DREGS` = 16 no instruction reaches the upper sixteen cells (log 3). The Q and S registers
  are views of these cells (10 R15, R17). -/
  dregs : Vector DWord 32
  /-- Data memory (20 R30). -/
  mem : Memory
  /-- The program text (70 R132). -/
  text : ProgramText
  /-- The fault that ended the run, if one did (60 R120). -/
  faultRecord : Option Fault
  /-- The refusal that ended the run, if one did (60 R125). -/
  refusalMark : Option Refusal
  deriving DecidableEq, Repr

/-- The machine right after reset. The spec states no reset value (10 R24, 70 R130): the parameters take the spec's defaults
and A32 (log 1), every register is zero (DESIGN CHOICE, log 2), memory and program text list nothing (logs 4, 5), and the two
records are empty as R24 and R130 say. -/
def State.reset : State where
  config := { instrSet := .a32 }
  regs := Vector.replicate 15 0
  pc := 0
  dregs := Vector.replicate 32 0
  mem := []
  text := ⟨0, []⟩
  faultRecord := none
  refusalMark := none

end Sys2Proof.Machine
end

