-- ==== Sys2Proof/Machine/Ops.lean ====
section
/-! DEFINITION. Ops.lean: the named operations over elements, registers, memory, the pc and the two records, which every
meaning is written in (spec 00 R8). -/

namespace Sys2Proof.Machine

/-! ## Elements (10 R18) -/

/-- `Elem(v, x, size)`: bits `(x+1)*size-1` down to `x*size`. -/
def elem {n : Nat} (v : BitVec n) (x size : Nat) : BitVec size :=
  v.extractLsb' (x * size) size

/-- `SetElem(v, x, size, e)`: `v` with those bits replaced by `e`. -/
def setElem {n : Nat} (v : BitVec n) (x : Nat) {size : Nat} (e : BitVec size) : BitVec n :=
  (v &&& ~~~((BitVec.allOnes size).setWidth n <<< (x * size))) ||| (e.setWidth n <<< (x * size))

/-- The vector built by `for e = 0 to count-1: res = SetElem(res, e, size, f e)` from a zero `res` (the loop of 44 R112 to
R115). -/
def buildElems (n : Nat) {size : Nat} (f : Nat → BitVec size) : (count : Nat) → BitVec n
  | 0 => 0
  | k + 1 => setElem (buildElems n f k) k (f k)

/-! ## General-purpose registers (10 R10, R11) -/

/-- `R[i]` for R0 to R14. R15 is the pc, which no instruction in scope reads as an operand (10 R12). -/
def State.readR (s : State) (i : Fin 15) : Word := s.regs[i]

/-- `R[i] <- v` for R0 to R14. -/
def State.writeR (s : State) (i : Fin 15) (v : Word) : State :=
  { s with regs := s.regs.set i v }

/-- A four-bit register number that is not 15 as a register R0 to R14; 15 is the pc (10 R11). -/
def gprOf? (n : Fin 16) : Option (Fin 15) :=
  if h : n.val < 15 then some ⟨n.val, h⟩ else none

/-! ## The SIMD and floating-point register file and its views (10 R13 to R17) -/

/-- `D[i]`. -/
def State.readD (s : State) (i : DNum) : DWord := s.dregs[i]

/-- `D[i] <- v`. -/
def State.writeD (s : State) (i : DNum) (v : DWord) : State :=
  { s with dregs := s.dregs.set i v }

/-- The doubleword register `k` after `D<d>`, `D<d+k>` (43 R95). The decode conditions keep `d + k` below 32; the number is
taken modulo 32 only so that the function is total. -/
def dPlus (d : DNum) (k : Nat) : DNum :=
  Fin.ofNat 32 (d.val + k)

/-- `D<2k>`, the first half of `Q<k>` (10 R15). -/
def qFirst (k : Fin 16) : DNum := ⟨2 * k.val, by omega⟩

/-- `D<2k+1>`, the second half of `Q<k>` (10 R15). -/
def qSecond (k : Fin 16) : DNum := ⟨2 * k.val + 1, by omega⟩

/-- `Q[k] = D[2k+1] : D[2k]` (10 R15, R16). -/
def State.readQ (s : State) (k : Fin 16) : QWord :=
  s.readD (qSecond k) ++ s.readD (qFirst k)

/-- `Q[k] <- v`: `D[2k] <- v[63:0]`, `D[2k+1] <- v[127:64]` (10 R15). -/
def State.writeQ (s : State) (k : Fin 16) (v : QWord) : State :=
  (s.writeD (qFirst k) (v.extractLsb' 0 64)).writeD (qSecond k) (v.extractLsb' 64 64)

/-- The quadword register whose half `D<i>` is: the field pair of `Q<k>` holds `2k` (30 R46). -/
def qOf (i : DNum) : Fin 16 := ⟨i.val / 2, by omega⟩

/-- The doubleword register that holds `S<j>` (10 R17). -/
def sHome (j : Fin 32) : DNum := ⟨j.val / 2, by omega⟩

/-- `S[j] = Elem(D[j div 2], j mod 2, 32)` (10 R17). -/
def State.readS (s : State) (j : Fin 32) : Word :=
  elem (s.readD (sHome j)) (j.val % 2) 32

/-- `S[j] <- v` (10 R17). -/
def State.writeS (s : State) (j : Fin 32) (v : Word) : State :=
  s.writeD (sHome j) (setElem (s.readD (sHome j)) (j.val % 2) v)

/-- The values of the `count` doubleword registers from `D<d>` on. -/
def State.readDs (s : State) (d : DNum) (count : Nat) : List DWord :=
  (List.range count).map fun r => s.readD (dPlus d r)

/-- Writes consecutive doubleword registers from `D<d>` on. -/
def State.writeDs (s : State) (d : DNum) : List DWord → State
  | [] => s
  | v :: vs => (s.writeD d v).writeDs (dPlus d 1) vs

/-! ## The program counter (10 R12) -/

/-- `pc <- pc + 4` modulo 2^32, the last act of an instruction that completes (44 R111 step 8). -/
def State.advance (s : State) : State :=
  { s with pc := s.pc + 4 }

/-! ## Data memory (20 R30 to R35) -/

/-- The canonical form from an address on: addresses strictly rising, below 2^32. No entry can equal what an unlisted address
reads as, because that is no value (log 4). -/
def Memory.risingFrom (low : Nat) : Memory → Bool
  | [] => true
  | c :: cs => decide (low ≤ c.1) && decide (c.1 < 2 ^ 32) && Memory.risingFrom (c.1 + 1) cs

/-- The memory is in its canonical form. -/
def Memory.wf (m : Memory) : Bool :=
  Memory.risingFrom 0 m

/-- The byte at an address, `none` where the launch memory holds none (20 R35). -/
def Memory.byte? : Memory → Nat → Option Byte
  | [], _ => none
  | c :: cs, a => if c.1 = a then some c.2 else Memory.byte? cs a

/-- Gives the byte at an address, keeping the canonical form. -/
def Memory.put : Memory → Nat → Byte → Memory
  | [], a, b => [(a, b)]
  | c :: cs, a, b =>
    if a < c.1 then (a, b) :: c :: cs
    else if a = c.1 then (a, b) :: cs
    else c :: Memory.put cs a b

/-- Gives consecutive bytes from an address on. -/
def Memory.putBytes (m : Memory) (a : Nat) : List Byte → Memory
  | [] => m
  | b :: bs => Memory.putBytes (m.put a b) (a + 1) bs

/-- The `n` bytes from address `a` on, lowest address first, or the lowest absent address. -/
def Memory.readBlock (m : Memory) : (a n : Nat) → Except Nat (List Byte)
  | _, 0 => .ok []
  | a, n + 1 =>
    match m.byte? a with
    | none => .error a
    | some b =>
      match Memory.readBlock m (a + 1) n with
      | .ok bs => .ok (b :: bs)
      | .error x => .error x

/-- The value of `w` bits whose bits `8i+7` to `8i` are byte `i` of the list. -/
def valueOfBytes (w : Nat) : List Byte → BitVec w
  | [] => 0
  | b :: bs => (valueOfBytes w bs <<< 8) ||| b.setWidth w

/-- `n` bytes in rising address order as one value, under the byte order (20 R32): little-endian takes the byte at the lowest
address as bits 7 to 0, big-endian the byte at the highest. -/
def orderedValue (bigEndian : Bool) (w : Nat) (bs : List Byte) : BitVec w :=
  valueOfBytes w (if bigEndian then bs.reverse else bs)

/-- The bytes of a value of `8n` bits in rising address order, the reverse of `orderedValue` (20 R32). -/
def orderedBytes (bigEndian : Bool) {w : Nat} (n : Nat) (v : BitVec w) : List Byte :=
  let bs := (List.range n).map fun i => elem v i 8
  if bigEndian then bs.reverse else bs

/-- The bytes of the block of `n` bytes from `addr` on, each read once, or the MemFault it raises: with the block's first
address when the block would pass the top of the address space, otherwise with the lowest absent address (20 R31, R35; 60
R124; 92 D15). -/
def State.loadBlock (s : State) (addr : Word) (n : Nat) : Except Fault (List Byte) :=
  if 2 ^ 32 < addr.toNat + n then .error (.memFault addr)
  else
    match s.mem.readBlock addr.toNat n with
    | .ok bs => .ok bs
    | .error x => .error (.memFault (BitVec.ofNat 32 x))

/-- `MemRead(addr, n)` (00 R8, 20 R32): the value of the `n` bytes from `addr` on, or MemFault. -/
def State.memRead (s : State) (addr : Word) (n : Nat) : Except Fault (BitVec (8 * n)) :=
  match s.loadBlock addr n with
  | .ok bs => .ok (orderedValue s.config.bigEndian (8 * n) bs)
  | .error f => .error f

/-- `MemWrite(addr, n, v)` (00 R8, 20 R32): MemRead's reverse, or MemFault with nothing written. No admitted instruction
stores (20 R36). -/
def State.memWrite (s : State) (addr : Word) (n : Nat) (v : BitVec (8 * n)) : Except Fault State :=
  match s.loadBlock addr n with
  | .ok _ => .ok { s with mem := s.mem.putBytes addr.toNat (orderedBytes s.config.bigEndian n v) }
  | .error f => .error f

/-! ## What ends a run (60 R120, R125)

The spec describes no exception entry: no fault is vectored, nothing is saved, no return exists (60 R120, R127). What it does
describe is the record. -/

/-- A fault is recorded and nothing else changes; the pc stays at the faulting instruction (60 R120, R121; 92 D11). -/
def State.recordFault (s : State) (f : Fault) : State :=
  { s with faultRecord := some f }

/-- "The refusal mark is kept for the whole run, like a fault" (60 R125). -/
def State.recordRefusal (s : State) (r : Refusal) : State :=
  { s with refusalMark := some r }

/-- An instruction that passed its checks: the state it leaves, with the pc moved on (44 R111 steps 7 and 8). -/
def complete (s : State) : Host.Outcome State Fault Refusal :=
  .next s.advance

end Sys2Proof.Machine
end

