-- ==== Sys2Proof/Machine/Operands.lean ====
section
/-! DEFINITION. Operands.lean: element sizes, operand shapes, the conditions on register operands, the addressing mode of the
element and structure loads and stores, register lists and scalars (spec 30 R43 to R50, 40 R67, 41 R70 to R79, 43 R94 to
R104). -/

namespace Sys2Proof

/-- The element size in bits, `8 << UInt(size)` (44 R112). -/
def ElemSize.bits : ElemSize → Nat
  | .e8 => 8
  | .e16 => 16
  | .e32 => 32
  | .e64 => 64

/-- The element size in bytes, `1 << UInt(size)` (44 R115). -/
def ElemSize.bytes : ElemSize → Nat
  | .e8 => 1
  | .e16 => 2
  | .e32 => 4
  | .e64 => 8

/-- The alignment in bytes, `4 << UInt(align)`, `none` for 0b00 (44 R115). -/
def AlignSpec.bytes? : AlignSpec → Option Nat
  | .unspecified => none
  | .a64 => some 8
  | .a128 => some 16
  | .a256 => some 32

/-- The mode updates its base register: formats 2 and 3 (41 R71, R72, R73; `wback` of R74). -/
def AddrFormat.writesBack : AddrFormat → Bool
  | .noWriteback => false
  | .byTransferSize | .byRegister _ => true

namespace Machine

/-! ## The conditions on register operands (10 R14; 30 R46) -/

/-- The low bit of the four-bit field of a doubleword number: 1 makes the number no quadword register (30 R46). -/
def oddField (i : DNum) : Bool := i.val % 2 = 1

/-- `D<i>` to `D<i+k-1>` all exist: `i + k ≤ NUM_DREGS` (10 R14). -/
def inBank (c : Config) (i : DNum) (k : Nat) : Bool := i.val + k ≤ c.numDregs

/-- The number of doubleword registers of an operand whose width the Q bit selects (30 R43, 44 R112). -/
def regsOfQ (quad : Bool) : Nat := if quad then 2 else 1

/-! ## Operand shapes (40 R67, Table F1-11) -/

/-- The shapes of Table F1-11. -/
inductive Shape where
  | same
  | long
  | narrow
  | wide
  deriving DecidableEq, Repr

/-- The widths of result, first and second operand in units of the narrower side (Table F1-11). -/
def Shape.widths : Shape → Nat × Nat × Nat
  | .same => (1, 1, 1)
  | .long => (2, 1, 1)
  | .narrow => (1, 2, 2)
  | .wide => (2, 2, 1)

/-! ## The Advanced SIMD addressing mode (41 R70 to R79) -/

/-- The amount the base moves by: `R[m]` in format 3, the transfer size otherwise (`offset` of 41 R74). -/
def postOffset (s : State) (ts : Nat) : AddrFormat → Word
  | .noWriteback | .byTransferSize => BitVec.ofNat 32 ts
  | .byRegister rm => s.readR rm

/-- The base register's value after the instruction, modulo 2^32 (41 R72, R73, R74). -/
def postBase (s : State) (rn : Fin 15) (ts : Nat) (f : AddrFormat) : Word :=
  s.readR rn + postOffset s ts f

/-- The base register update of the mode, with the new base computed from the state `s0` before any write (41 R74). -/
def writeBack (s0 : State) (rn : Fin 15) (ts : Nat) (f : AddrFormat) (s : State) : State :=
  if f.writesBack then s.writeR rn (postBase s0 rn ts f) else s

/-- The alignment an access must meet, in bytes: the one the instruction carries; with none, the element size when
`STRICT_ALIGN` is true; otherwise any address will do (20 R33, 92 D5). -/
def requiredAlign (c : Config) (size : ElemSize) (a : AlignSpec) : Nat :=
  match a.bytes? with
  | some n => n
  | none => if c.strictAlign then size.bytes else 1

/-- The Alignment fault of an address that breaks the alignment (20 R33, 60 R123). -/
def alignFault? (c : Config) (size : ElemSize) (a : AlignSpec) (addr : Word) : Option Fault :=
  if addr.toNat % requiredAlign c size a = 0 then none else some (.alignment addr)

/-! ## Register lists (43 R94 to R99) -/

/-- The numbers of a list of `k` members spaced `inc` apart from `D<d>` (43 R97). -/
def listNumbers (d k inc : Nat) : List Nat :=
  (List.range k).map fun i => d + i * inc

/-- "Register lists must not wrap around the end of the register bank": `d + (k-1)*inc ≤ NUM_DREGS - 1` (43 R97). -/
def listFits (c : Config) (d k inc : Nat) : Bool :=
  d + (k - 1) * inc < c.numDregs

/-! ## Scalars (43 R102, R104; 30 R50) -/

/-- The number of bits of a multiply instruction's scalar (30 R50). -/
def scalarBits : ScalarSize → Nat
  | .s16 => 16
  | .s32 => 32

/-- The value a scalar `D<m>[x]` names, `Elem(D[m], x, size)` (43 R102). -/
def State.readScalar (s : State) (x : Scalar) (size : Nat) : BitVec size :=
  elem (s.readD x.reg) x.index size

/-- A scalar destination `D<m>[x]`: that element alone is replaced (43 R90, R102). -/
def State.writeScalar (s : State) (x : Scalar) {size : Nat} (v : BitVec size) : State :=
  s.writeD x.reg (setElem (s.readD x.reg) x.index v)

/-- `D<m>[x]` exists at the element size: `0 ≤ x < 64/size` (43 R102, 10 R18). -/
def scalarExists (c : Config) (x : Scalar) (size : ElemSize) : Bool :=
  inBank c x.reg 1 && decide (x.index < 64 / size.bits)

/-- The single-precision register equivalent to the 32-bit scalar `Dm[x]`, `S[2m + x]` for m from 0 to 15 and x 0 or 1; none
above D15 (43 R104). -/
def sOfScalar? (x : Scalar) : Option (Fin 32) :=
  if h : x.reg.val ≤ 15 ∧ x.index ≤ 1 then some ⟨2 * x.reg.val + x.index, by omega⟩ else none

/-! ## Widths that a field selects (30 R43, R44) -/

/-- The registers an operand's width bit selects among: Q bit 0 doubleword, 1 quadword (R43); sz bit 0 single-precision, 1
double-precision (R44). -/
inductive RegWidth where
  | single
  | double
  | quad
  deriving DecidableEq, Repr

/-- Q, bit[6]: "Q = 0 for doubleword operations, or Q = 1 for quadword operations" (30 R43). -/
def widthOfQ (w : Word) : RegWidth :=
  if fieldAt w 6 1 = 1#1 then .quad else .double

/-- sz, bit[8]: "sz = 1 for double-precision operations, or sz = 0 for single-precision operations" (30 R44). No admitted
instruction is a floating-point instruction. -/
def widthOfSz (w : Word) : RegWidth :=
  if fieldAt w 8 1 = 1#1 then .double else .single

/-- A floating-point register operand (30 R44). -/
inductive FpReg where
  | single (j : Fin 32)
  | double (i : DNum)
  deriving DecidableEq, Repr

/-- The floating-point register of a field pair: `<Dx>`, numbered with the one-bit field most significant, when sz is 1;
`<Sx>`, numbered with it least significant, when sz is 0 (30 R44, R45, R47). -/
def fpReg (w : Word) (oneBit : BitVec 1) (fourBits : BitVec 4) : FpReg :=
  match widthOfSz w with
  | .single => .single (sNumber fourBits oneBit)
  | .double | .quad => .double (dNumber oneBit fourBits)

/-- The destination of a floating-point instruction word: D and Vd (30 R41, R44). -/
def fpDest (w : Word) : FpReg := fpReg w (fieldAt w 22 1) (fieldAt w 12 4)

/-- The first operand of a floating-point instruction word: N and Vn (30 R41, R44). -/
def fpFirst (w : Word) : FpReg := fpReg w (fieldAt w 7 1) (fieldAt w 16 4)

/-- The second operand of a floating-point instruction word: M and Vm (30 R41, R44). -/
def fpSecond (w : Word) : FpReg := fpReg w (fieldAt w 5 1) (fieldAt w 0 4)

end Machine

end Sys2Proof
end

