-- ==== Sys2Proof/Machine/Flags.lean ====
section
/-! DEFINITION. Flags.lean: what the spec says of flags and of the arithmetic that would set one. The spec gives the machine no
flag and no condition code (10 R21), and every admitted instruction writes none (44 R111). What remains is the arithmetic of
the four instruction modifiers (40 R65, R66), one of which says when a result has saturated. No admitted instruction has a
modifier, so no meaning calls these (40 R66, "no rule depends on these formulas"). -/

namespace Sys2Proof.Machine

/-- Table F1-10's modifiers (40 R65). -/
inductive Modifier where
  | saturating
  | rounding
  | doubling
  | halving
  deriving DecidableEq, Repr

/-- The letter of a modifier (40 R65). -/
def Modifier.letter : Modifier → Char
  | .saturating => 'Q'
  | .rounding => 'R'
  | .doubling => 'D'
  | .halving => 'H'

/-- The least value of an element type (40 R66, Q). -/
def elemMin (isSigned : Bool) (esize : Nat) : Int :=
  if isSigned then -(2 ^ (esize - 1)) else 0

/-- The greatest value of an element type (40 R66, Q). -/
def elemMax (isSigned : Bool) (esize : Nat) : Int :=
  if isSigned then 2 ^ (esize - 1) - 1 else 2 ^ esize - 1

/-- Q: the exact result clamped to the destination's range (40 R66). -/
def saturate (isSigned : Bool) (esize : Nat) (r : Int) : Int :=
  max (elemMin isSigned esize) (min (elemMax isSigned esize) r)

/-- The element was clamped: the condition that would set the cumulative saturation flag (40 R66), a flag that is no state of
this model (10 R21). -/
def saturated (isSigned : Bool) (esize : Nat) (r : Int) : Bool :=
  saturate isSigned esize r ≠ r

/-- Without Q the written element is the exact result modulo 2^esize (40 R66). -/
def wrapTo (esize : Nat) (r : Int) : BitVec esize :=
  BitVec.ofInt esize r

/-- R: `2^(s-1)` is added before the `s` low bits are discarded (nothing is added when none is); without R they are truncated toward minus infinity (40
R66). -/
def discardLow (rounds : Bool) (s : Nat) (r : Int) : Int :=
  (if rounds && s ≠ 0 then r + 2 ^ (s - 1) else r) / 2 ^ s

/-- D: the result doubled, before saturation and before any accumulation (40 R66). -/
def doubled (r : Int) : Int := 2 * r

/-- H: `floor(r / 2)`, with R `floor((r + 1) / 2)` (40 R66). -/
def halved (rounds : Bool) (r : Int) : Int :=
  (if rounds then r + 1 else r) / 2

end Sys2Proof.Machine
end

