-- ==== Sys2Proof/Machine/LoadElements.lean ====
section
/-! DEFINITION. LoadElements.lean: VLD1 (multiple single elements), one to four registers (spec 44 R115), through the Advanced
SIMD addressing mode (41). -/

namespace Sys2Proof.Machine

/-- The alignments a list of `regs` registers permits: 64 for any list, 128 for two or four registers, 256 for four (44
R115). -/
def alignPermitted (regs : Nat) : AlignSpec → Bool
  | .unspecified | .a64 => true
  | .a128 => regs = 2 || regs = 4
  | .a256 => regs = 4

/-- `transfer_size`: the number of bytes `regs` doubleword registers hold; it does not depend on the element size (44 R115, 41
R72). -/
def transferSize (regs : Nat) : Nat := 8 * regs

/-- VLD1's faults that the word and the configuration settle, in the order 44 R115 tests them: Undefined (enable, alignment,
first register), then Unpredictable (base, list). Otherwise the base register. -/
def vld1Base (c : Config) (regs : Nat) (o : Vld1Operands) : Except Fault (Fin 15) :=
  if !c.simdEnabled then .error .undefined
  else if !alignPermitted regs o.align then .error .undefined
  else if !inBank c o.d 1 then .error .undefined
  else
    match gprOf? o.rn with
    | none => .error (.unpredictable .baseIsPc)
    | some rn =>
      if listFits c o.d.val regs 1 then .ok rn else .error (.unpredictable .listWraps)

/-- One doubleword register from its eight bytes, lowest address first: element `e` takes the next `ebytes` bytes in the byte
order, so a lower element always comes from lower addresses (44 R115, 20 R32). -/
def loadRegister (bigEndian : Bool) (size : ElemSize) (bs : List Byte) : DWord :=
  buildElems 64
    (fun e => orderedValue bigEndian size.bits ((bs.drop (e * size.bytes)).take size.bytes))
    (8 / size.bytes)

/-- The registers of a list from the bytes of the block, the first register from the lowest addresses (44 R115). -/
def loadedRegisters (bigEndian : Bool) (size : ElemSize) (regs : Nat) (bs : List Byte) : List DWord :=
  (List.range regs).map fun r => loadRegister bigEndian size ((bs.drop (8 * r)).take 8)

/-- VLD1 of `regs` registers, the same in both instruction sets (44 R111, R115): base and index are read first, then the
alignment and the block are checked, then the registers and the base are written. -/
def vld1 (regs : Nat) (o : Vld1Operands) (s : State) : Host.Outcome State Fault Refusal :=
  match vld1Base s.config regs o with
  | .error f => .fault f
  | .ok rn =>
    let addr := s.readR rn
    match alignFault? s.config o.size o.align addr with
    | some f => .fault f
    | none =>
      match s.loadBlock addr (transferSize regs) with
      | .error f => .fault f
      | .ok bs =>
        complete (writeBack s rn (transferSize regs) o.format
          (s.writeDs o.d (loadedRegisters s.config.bigEndian o.size regs bs)))

/-- VLD1 (multiple single elements), 1 register, A32 row. -/
def execVld1OneA32 (o : Vld1Operands) (s : State) : Host.Outcome State Fault Refusal := vld1 1 o s

/-- VLD1 (multiple single elements), 1 register, T32 row. -/
def execVld1OneT32 (o : Vld1Operands) (s : State) : Host.Outcome State Fault Refusal := vld1 1 o s

/-- VLD1 (multiple single elements), 2 registers, A32 row. -/
def execVld1TwoA32 (o : Vld1Operands) (s : State) : Host.Outcome State Fault Refusal := vld1 2 o s

/-- VLD1 (multiple single elements), 2 registers, T32 row. -/
def execVld1TwoT32 (o : Vld1Operands) (s : State) : Host.Outcome State Fault Refusal := vld1 2 o s

/-- VLD1 (multiple single elements), 3 registers, A32 row. -/
def execVld1ThreeA32 (o : Vld1Operands) (s : State) : Host.Outcome State Fault Refusal := vld1 3 o s

/-- VLD1 (multiple single elements), 3 registers, T32 row. -/
def execVld1ThreeT32 (o : Vld1Operands) (s : State) : Host.Outcome State Fault Refusal := vld1 3 o s

/-- VLD1 (multiple single elements), 4 registers, A32 row. -/
def execVld1FourA32 (o : Vld1Operands) (s : State) : Host.Outcome State Fault Refusal := vld1 4 o s

/-- VLD1 (multiple single elements), 4 registers, T32 row. -/
def execVld1FourT32 (o : Vld1Operands) (s : State) : Host.Outcome State Fault Refusal := vld1 4 o s

end Sys2Proof.Machine
end

