-- ==== Sys2Proof/Machine/Narrow.lean ====
section
/-! DEFINITION. Narrow.lean: VMOVN, two registers, narrow shape (spec 44 R114). -/

namespace Sys2Proof.Machine

/-- VMOVN's faults: the enable, size 0b11, an odd `Qm` field (30 R46), a register that does not exist (10 R14). -/
def vmovnFault? (c : Config) (o : VmovnOperands) : Option Fault :=
  if !c.simdEnabled then some .undefined
  else if o.size = .e64 then some .undefined
  else if oddField o.m then some .undefined
  else if !(inBank c o.d 1 && inBank c (qFirst (qOf o.m)) 2) then some .undefined
  else none

/-- The least significant half of every element of `a`, whose elements have twice the result's size (44 R114). -/
def narrowLanes (size : ElemSize) (a : QWord) : DWord :=
  buildElems 64 (fun e => (elem a e (2 * size.bits)).setWidth size.bits) (64 / size.bits)

/-- VMOVN, the same in both instruction sets (44 R111, R114). -/
def vmovn (o : VmovnOperands) (s : State) : Host.Outcome State Fault Refusal :=
  match vmovnFault? s.config o with
  | some f => .fault f
  | none => complete (s.writeD o.d (narrowLanes o.size (s.readQ (qOf o.m))))

/-- VMOVN, A32 row. -/
def execVmovnA32 (o : VmovnOperands) (s : State) : Host.Outcome State Fault Refusal := vmovn o s

/-- VMOVN, T32 row. -/
def execVmovnT32 (o : VmovnOperands) (s : State) : Host.Outcome State Fault Refusal := vmovn o s

end Sys2Proof.Machine
end

