-- ==== Sys2Proof/Machine/ThreeSame.lean ====
section
/-! DEFINITION. ThreeSame.lean: VADD (integer), three registers of the same length (spec 44 R112). -/

namespace Sys2Proof.Machine

/-- VADD's faults, in the order 44 R111 and R112 test them: the enable, a quadword operand with an odd field (30 R46), a
register that does not exist (10 R14). -/
def vaddFault? (c : Config) (o : VaddOperands) : Option Fault :=
  let k := regsOfQ o.quad
  if !c.simdEnabled then some .undefined
  else if o.quad && (oddField o.d || oddField o.n || oddField o.m) then some .undefined
  else if !(inBank c o.d k && inBank c o.n k && inBank c o.m k) then some .undefined
  else none

/-- The lane-wise sum of two doubleword vectors: each element modulo 2^esize, no carry between elements (44 R112). -/
def addLanes (size : ElemSize) (a b : DWord) : DWord :=
  buildElems 64 (fun e => elem a e size.bits + elem b e size.bits) (64 / size.bits)

/-- VADD's destination values, all sources read first (44 R111 step 5, R112). -/
def vaddResults (s : State) (o : VaddOperands) : List DWord :=
  (List.range (regsOfQ o.quad)).map fun r =>
    addLanes o.size (s.readD (dPlus o.n r)) (s.readD (dPlus o.m r))

/-- VADD (integer), the same in both instruction sets (44 R111, R112). -/
def vadd (o : VaddOperands) (s : State) : Host.Outcome State Fault Refusal :=
  match vaddFault? s.config o with
  | some f => .fault f
  | none => complete (s.writeDs o.d (vaddResults s o))

/-- VADD (integer), A32 row. -/
def execVaddA32 (o : VaddOperands) (s : State) : Host.Outcome State Fault Refusal := vadd o s

/-- VADD (integer), T32 row. -/
def execVaddT32 (o : VaddOperands) (s : State) : Host.Outcome State Fault Refusal := vadd o s

end Sys2Proof.Machine
end

