-- ==== Sys2Proof/Machine/Wide.lean ====
section
/-! DEFINITION. Wide.lean: VSUBW, three registers of different lengths, wide shape (spec 44 R113). -/

namespace Sys2Proof.Machine

/-- VSUBW's faults: the enable, an odd `Qd` or `Qn` field (30 R46), a register that does not exist (10 R14). -/
def vsubwFault? (c : Config) (o : VsubwOperands) : Option Fault :=
  if !c.simdEnabled then some .undefined
  else if oddField o.d || oddField o.n then some .undefined
  else if !(inBank c (qFirst (qOf o.d)) 2 && inBank c (qFirst (qOf o.n)) 2 && inBank c o.m 1) then some .undefined
  else none

/-- The second operand's element at twice its width: zero-extended for the U types, sign-extended for the S types (44 R113). -/
def widen (isUnsigned : Bool) {n : Nat} (x : BitVec n) : BitVec (2 * n) :=
  if isUnsigned then x.setWidth (2 * n) else x.signExtend (2 * n)

/-- `a`'s double-width elements minus `b`'s widened ones, each modulo 2^(2*esize) (44 R113). -/
def subWideLanes (isUnsigned : Bool) (size : ElemSize) (a : QWord) (b : DWord) : QWord :=
  buildElems 128 (fun e => elem a e (2 * size.bits) - widen isUnsigned (elem b e size.bits)) (64 / size.bits)

/-- VSUBW, the same in both instruction sets (44 R111, R113). -/
def vsubw (o : VsubwOperands) (s : State) : Host.Outcome State Fault Refusal :=
  match vsubwFault? s.config o with
  | some f => .fault f
  | none =>
    complete (s.writeQ (qOf o.d) (subWideLanes o.isUnsigned o.size (s.readQ (qOf o.n)) (s.readD o.m)))

/-- VSUBW, A32 row. -/
def execVsubwA32 (o : VsubwOperands) (s : State) : Host.Outcome State Fault Refusal := vsubw o s

/-- VSUBW, T32 row. -/
def execVsubwT32 (o : VsubwOperands) (s : State) : Host.Outcome State Fault Refusal := vsubw o s

end Sys2Proof.Machine
end

