-- ==== Sys2Proof/Machine/Dispatch.lean ====
section
/-! DEFINITION. Dispatch.lean: one arm for each constructor of Instr. -/

namespace Sys2Proof.Machine

/-- What an instruction does (spec 44 R111 steps 3 to 8). -/
def exec (i : Instr) (s : State) : Host.Outcome State Fault Refusal :=
  match i with
  | .vaddA32 o => Sys2Proof.Machine.execVaddA32 o s
  | .vaddT32 o => Sys2Proof.Machine.execVaddT32 o s
  | .vsubwA32 o => Sys2Proof.Machine.execVsubwA32 o s
  | .vsubwT32 o => Sys2Proof.Machine.execVsubwT32 o s
  | .vmovnA32 o => Sys2Proof.Machine.execVmovnA32 o s
  | .vmovnT32 o => Sys2Proof.Machine.execVmovnT32 o s
  | .vld1OneA32 o => Sys2Proof.Machine.execVld1OneA32 o s
  | .vld1OneT32 o => Sys2Proof.Machine.execVld1OneT32 o s
  | .vld1TwoA32 o => Sys2Proof.Machine.execVld1TwoA32 o s
  | .vld1TwoT32 o => Sys2Proof.Machine.execVld1TwoT32 o s
  | .vld1ThreeA32 o => Sys2Proof.Machine.execVld1ThreeA32 o s
  | .vld1ThreeT32 o => Sys2Proof.Machine.execVld1ThreeT32 o s
  | .vld1FourA32 o => Sys2Proof.Machine.execVld1FourA32 o s
  | .vld1FourT32 o => Sys2Proof.Machine.execVld1FourT32 o s

end Sys2Proof.Machine
end

