-- ==== Sys2Proof/Machine/Fetch.lean ====
section
/-! DEFINITION. Fetch.lean: reading and placing words of the program text, and the end of a run (spec 70 R132). -/

namespace Sys2Proof.Machine

/-- The address right after the last word, `B + 4k` (70 R132). -/
def ProgramText.stop (t : ProgramText) : Word :=
  t.base + BitVec.ofNat 32 (4 * t.words.length)

/-- The position in the list of the word that stands at an address, when one does: a multiple of 4 from the base, below `4k`
(70 R132). -/
def ProgramText.index? (t : ProgramText) (a : Word) : Option Nat :=
  let offset := (a - t.base).toNat
  if offset % 4 = 0 ∧ offset / 4 < t.words.length then some (offset / 4) else none

/-- "Fetch at a pc in that range returns the word there" (70 R132). At `B + 4k` the run has ended; a pc elsewhere stands at no
word. -/
def State.fetch (s : State) : Except Refusal Word :=
  match s.text.index? s.pc with
  | some j =>
    match s.text.words[j]? with
    | some w => .ok w
    | none => .error .fetchOutsideProgram
  | none => if s.pc = s.text.stop then .error .programEnded else .error .fetchOutsideProgram

/-- What the decoder of the run's instruction set makes of the word, and the meaning of that (44 R111 step 2, 60 R125). -/
def runWord (s : State) (w : Word) : Host.Outcome State Fault Refusal :=
  match decode s.config.instrSet w with
  | .ok i => exec i s
  | .error _ => .refused .noInstructionDescription

/-- The text with `w` at address `a`: in the place of the word that stands there, or as a program of that one word (log 5). -/
def ProgramText.place (t : ProgramText) (a : Word) (w : Word) : ProgramText :=
  match t.index? a with
  | some j => { t with words := t.words.set j w }
  | none => { base := a, words := [w] }

/-- The run's instruction set when a word of the table is to be run: the set of the row it matches (log 8). -/
def setForWord (c : Config) (w : Word) : InstrSet :=
  match tableSet? w with
  | some iset => iset
  | none => c.instrSet

/-- The state in which the next step fetches `w` and runs it: `w` stands at the pc, the instruction set is the one whose row
it matches, and no earlier stop is recorded (log 5). -/
def State.launchWord (s : State) (w : Word) : State :=
  { s with
    config := { s.config with instrSet := setForWord s.config w }
    text := s.text.place s.pc w
    faultRecord := none
    refusalMark := none }

end Sys2Proof.Machine
end

