-- ==== Sys2Proof/Machine/Step.lean ====
section
/-! DEFINITION. Step.lean: one step of the machine (spec 44 R111, 60 R120, R125, 70 R132). -/

namespace Sys2Proof.Machine

/-- One step. A recorded fault or refusal is never cleared and no later step is taken (60 R120, R125); otherwise the word at
the pc is fetched, decoded and run. -/
def step (s : State) : Host.Outcome State Fault Refusal :=
  match s.faultRecord with
  | some f => .fault f
  | none =>
    match s.refusalMark with
    | some r => .refused r
    | none =>
      match s.fetch with
      | .ok w => runWord s w
      | .error r => .refused r

/-- The state with a word of spec/opcode_table.json where the next step fetches (log 5, log 8). -/
def State.withFetchWord (s : State) (nbits w : Nat) : State :=
  s.launchWord (tableWord nbits w)

end Sys2Proof.Machine
end

