-- ==== Sys2Proof/Machine/AsmSyntax.lean ====
section
/-! DEFINITION. AsmSyntax.lean: an assembler line after its characters have been read (spec 40 R60 to R64, 41 R71 to R78, 42
R81, 43 R90 to R100). AsmText.lean reads and prints the characters. -/

namespace Sys2Proof.Machine

/-- The four mnemonics the spec describes, operation and shape together: "a parser must work from a list of whole mnemonics"
(40 R65). -/
inductive Mnemonic where
  | vadd
  | vsubw
  | vmovn
  | vld1
  deriving DecidableEq, Repr

/-- `<c>` (40 R63). -/
inductive Cond where
  | eq | ne | cs | cc | mi | pl | vs | vc | hi | ls | ge | lt | gt | le | al
  deriving DecidableEq, Repr

/-- `<q>` (40 R63). -/
inductive WidthQual where
  | n
  | w
  deriving DecidableEq, Repr

/-- The type letters of a data type specifier (42 R81). -/
inductive TypeLetter where
  | i
  | s
  | u
  | p
  | f
  deriving DecidableEq, Repr

/-- `<type><size>`, or a size alone (42 R81). -/
structure DataType where
  letter : Option TypeLetter
  size : ElemSize
  deriving DecidableEq, Repr

/-- A specifier as written: `.F` and `.D` abbreviate `.F32` and `.F64` (42 R86). -/
inductive DtSpec where
  | typed (t : DataType)
  | abbrevF
  | abbrevD
  deriving DecidableEq, Repr

/-- The letter of a vector register (43 R91). -/
inductive VecKind where
  | q
  | d
  | s
  deriving DecidableEq, Repr

/-- A vector register as written: a letter and a decimal number (43 R91). -/
structure VecReg where
  kind : VecKind
  num : Nat
  deriving DecidableEq, Repr

/-- A general-purpose register as written (43 R91, 10 R11). -/
inductive GprText where
  | r (num : Nat)
  | sp
  | lr
  | pc
  deriving DecidableEq, Repr

/-- What follows a list member: nothing, an element index, or empty brackets (43 R95, R96). -/
inductive ElemSuffix where
  | whole
  | lane (x : Nat)
  | allLanes
  deriving DecidableEq, Repr

/-- A member of a register list: a register, or a range of whole registers (43 R95, R98). -/
inductive ListItem where
  | one (r : VecReg) (suffix : ElemSuffix)
  | range (first last : VecReg)
  deriving DecidableEq, Repr

/-- A register list, with or without its braces (43 R94, R100). -/
structure RegList where
  braces : Bool
  items : List ListItem
  deriving DecidableEq, Repr

/-- The alignment separator: `:`, or the `@` of earlier manuals (41 R77). -/
inductive AlignSep where
  | colon
  | at
  deriving DecidableEq, Repr

/-- What follows the closing bracket of an address (41 R71, R72, R73, R78). -/
inductive PostText where
  | none
  | bang
  | imm (n : Nat)
  | reg (r : GprText)
  deriving DecidableEq, Repr

/-- An address of the Advanced SIMD addressing mode (41 R71 to R78). -/
structure AddressText where
  base : GprText
  align : Option (AlignSep × Nat)
  post : PostText
  deriving DecidableEq, Repr

/-- The operands: vector registers (40 R60), or a list and an address (40 R60, 43 R94, 41 R70). -/
inductive OperandText where
  | vectors (rs : List VecReg)
  | load (list : RegList) (address : AddressText)
  deriving DecidableEq, Repr

/-- An assembler line: `V<operation>{<shape>}{<c>}{<q>}{.<dt>} operands`, with the non-standard Q shape suffix (40 R60,
R68). -/
structure AsmLine where
  mnemonic : Mnemonic
  qSuffix : Bool
  cond : Option Cond
  width : Option WidthQual
  dts : List DtSpec
  operands : OperandText
  deriving DecidableEq, Repr

/-- Why the assembler rejects a line. -/
inductive AsmError where
  /-- The characters are no line of the template (40 R60). -/
  | notALine
  /-- The mnemonic is none of the four: "no instruction description in source" (60 R125). -/
  | noInstructionDescription
  /-- `<c>` other than AL (40 R63, 92 D14). -/
  | conditionNotAdmitted
  /-- `<q>` other than `.W` (40 R63, 92 D14). -/
  | widthNotAdmitted
  /-- A Q suffix that the assembler does not accept, or on a mnemonic that has a shape or loads (40 R68). -/
  | qSuffixNotAccepted
  /-- A Q suffix with an operand that is no quadword register (40 R68). -/
  | qSuffixNeedsQuadwords
  /-- No data type where one is required (42 R88 step 2). -/
  | dataTypeRequired
  /-- The governing data type is not one the instruction takes (42 R85, R88 step 4). -/
  | dataTypeNotAccepted
  /-- The further data types do not match the shape, or their number fits no form (42 R87, R88 step 5, 92 D18). -/
  | dataTypesDoNotMatchShape
  /-- Operands of the wrong number, kind or width (40 R69, Table F1-11). -/
  | operandShape
  /-- A register number that names no register (43 R91). -/
  | noSuchRegister
  /-- A list that is not one of the forms of 43 R95 to R99, or not a list the instruction takes (43 R94, 44 R115). -/
  | listForm
  /-- Braces left out of a list that is not one register (43 R100). -/
  | bracesRequired
  /-- A list that would run past the last register (43 R97). -/
  | listWraps
  /-- An alignment that the instruction does not permit with that list (41 R76, 44 R115). -/
  | alignNotPermitted
  /-- PC as the base (41 R75). -/
  | baseIsPc
  /-- SP or PC as the index (41 R73). -/
  | indexIsPcOrSp
  /-- A `#<transfer_size>` other than the instruction's own (41 R78). -/
  | transferSizeMismatch
  deriving DecidableEq, Repr

end Sys2Proof.Machine
end

