-- ==== Sys2Proof/Machine/Assembler.lean ====
section
/-! DEFINITION. Assembler.lean: from an assembler line to the instruction of the configuration's instruction set (spec 40 R63
to R69, 41 R71 to R78, 42 R80 to R89, 43 R90 to R100, 44 R112 to R115). -/

namespace Sys2Proof.Machine

/-! ## Data types (42) -/

/-- The specifiers that exist: `P` has sizes 8 and 16, `F` sizes 16, 32 and 64, the others all four (42 R81, R85). -/
def DataType.exists (t : DataType) : Bool :=
  match t.letter with
  | some .p => t.size = .e8 || t.size = .e16
  | some .f => t.size ≠ .e8
  | some .i | some .s | some .u | none => true

/-- "1. expand abbreviations" (42 R86, R88). -/
def DtSpec.expand : DtSpec → DataType
  | .typed t => t
  | .abbrevF => ⟨some .f, .e32⟩
  | .abbrevD => ⟨some .f, .e64⟩

/-- Table F1-12: `given` is allowed where `required` is required (42 R85); where none is required any is (R86). -/
def acceptsType (required : Option DataType) (given : DataType) : Bool :=
  given.exists &&
    match required with
    | none => true
    | some r =>
      r.size = given.size &&
        (r.letter = given.letter || r.letter = none
          || (r.letter = some .i && (given.letter = some .s || given.letter = some .u)))

/-- The shape of each mnemonic (40 R67, 44). -/
def Mnemonic.shape : Mnemonic → Shape
  | .vadd | .vld1 => .same
  | .vsubw => .wide
  | .vmovn => .narrow

/-- The number of source operands (42 R84, R88). -/
def Mnemonic.sources : Mnemonic → Nat
  | .vadd | .vsubw => 2
  | .vmovn => 1
  | .vld1 => 0

/-- The governing specifier, the one R80 calls `<dt>`, is one the instruction takes: VADD `.I<size>`; VSUBW exactly `S` or `U`
of 8, 16, 32; VMOVN `.I<size>` of 16, 32, 64; VLD1 a bare size (44 R112 to R115, 42 R88 step 4). -/
def Mnemonic.takes (m : Mnemonic) (t : DataType) : Bool :=
  match m with
  | .vadd => acceptsType (some ⟨some .i, t.size⟩) t
  | .vsubw =>
    (acceptsType (some ⟨some .s, t.size⟩) t || acceptsType (some ⟨some .u, t.size⟩) t) && t.size ≠ .e64
  | .vmovn => acceptsType (some ⟨some .i, t.size⟩) t && t.size ≠ .e8
  | .vld1 => acceptsType (some ⟨none, t.size⟩) t

/-- The size twice as large, where one exists (42 R82). -/
def doubleSize? : ElemSize → Option ElemSize
  | .e8 => some .e16
  | .e16 => some .e32
  | .e32 => some .e64
  | .e64 => none

/-- The size half as large, where one exists (42 R82). -/
def halfSize? : ElemSize → Option ElemSize
  | .e8 => none
  | .e16 => some .e8
  | .e32 => some .e16
  | .e64 => some .e32

/-- The sizes of the result and of the first operand that the shape implies from the size `k` of `<dt>` (42 R82). -/
def impliedSizes? (sh : Shape) (k : ElemSize) : Option (ElemSize × ElemSize) :=
  match sh with
  | .same => some (k, k)
  | .long => (doubleSize? k).map fun r => (r, k)
  | .narrow => (halfSize? k).map fun r => (r, k)
  | .wide => (doubleSize? k).map fun r => (r, r)

/-- A specifier in an earlier position matches the implied `.I<size>`: that size, and `I` or a more specific letter `S` or `U`
(42 R88, 92 D18). -/
def matchesImplied (k : ElemSize) (t : DataType) : Bool :=
  acceptsType (some ⟨some .i, k⟩) t

/-- No list carries both an explicit `S` and an explicit `U` (42 R88, 92 D18). -/
def signednessAgrees (ts : List DataType) : Bool :=
  !(ts.any (fun t => t.letter = some .s) && ts.any (fun t => t.letter = some .u))

/-- Why a governing specifier is not taken: a floating-point type makes the line a floating-point instruction, of which there is
no description (95 T6 `VADD.F`, 60 R125); anything else is an error of the line (42 R85). -/
def typeRejection (m : Mnemonic) (t : DataType) : AsmError :=
  if m ≠ .vld1 ∧ t.letter = some .f ∧ t.exists then .noInstructionDescription else .dataTypeNotAccepted

/-- The normal form of a specifier list (42 R88): the governing specifier, when the list is accepted. -/
def governingType (m : Mnemonic) (specs : List DtSpec) : Except AsmError DataType :=
  let ts := specs.map DtSpec.expand
  match ts.getLast? with
  | none => .error .dataTypeRequired
  | some dt =>
    if !m.takes dt then .error (typeRejection m dt)
    else
      match ts, m.sources, impliedSizes? m.shape dt.size with
      | [_], _, _ => .ok dt
      | [t1, _], 1, some (res, _) =>
        if matchesImplied res t1 && signednessAgrees ts then .ok dt else .error .dataTypesDoNotMatchShape
      | [t1, _], 2, some (_, first) =>
        if matchesImplied first t1 && signednessAgrees ts then .ok dt else .error .dataTypesDoNotMatchShape
      | [t1, t2, _], 2, some (res, first) =>
        if matchesImplied res t1 && matchesImplied first t2 && signednessAgrees ts then .ok dt
        else .error .dataTypesDoNotMatchShape
      | _, _, _ => .error .dataTypesDoNotMatchShape

/-! ## Registers (43 R91) -/

/-- The doubleword number that a field pair holds for a written register: that of `D<i>`, and of the first half of `Q<k>`, when
the register exists (43 R91, 30 R46). -/
def fieldNumber? (c : Config) (r : VecReg) : Option DNum :=
  match r.kind with
  | .d => if h : r.num < 32 then if r.num < c.numDregs then some ⟨r.num, h⟩ else none else none
  | .q => if h : r.num < 16 then if 2 * r.num < c.numDregs then some ⟨2 * r.num, by omega⟩ else none else none
  | .s => none

/-- The number of a general-purpose register: SP is R13, LR is R14, PC is R15 (10 R11, 43 R91). -/
def GprText.number : GprText → Nat
  | .r n => n
  | .sp => 13
  | .lr => 14
  | .pc => 15

/-! ## Register lists (43 R94 to R100) -/

/-- The numbers `a`, `a+1`, ..., `b` of a range, an error when `a > b` (43 R98). -/
def rangeNumbers (a b : Nat) : Except AsmError (List Nat) :=
  if a ≤ b then .ok (listNumbers a (b + 1 - a) 1) else .error .listForm

/-- The number of a member that is one whole register of the given letter. -/
def ListItem.wholeOf (kind : VecKind) : ListItem → Option Nat
  | .one r .whole => if r.kind = kind then some r.num else none
  | .one _ (.lane _) | .one _ .allLanes | .range _ _ => none

/-- The written whole registers of a list, all of one letter: an enumeration, or one range (43 R95, R98, log 12). -/
def writtenRegisters (items : List ListItem) : Except AsmError (VecKind × List Nat) :=
  match items with
  | [.range a b] =>
    if a.kind = b.kind then (rangeNumbers a.num b.num).map fun ns => (a.kind, ns) else .error .listForm
  | .one a .whole :: rest =>
    match rest.mapM (ListItem.wholeOf a.kind) with
    | some ns => .ok (a.kind, a.num :: ns)
    | none => .error .listForm
  | _ => .error .listForm

/-- The doubleword registers of a list: `Q<a>` stands for `D<2a>`, `D<2a+1>` (43 R99). -/
def doublewordsOf : VecKind × List Nat → Except AsmError (List Nat)
  | (.d, ns) => .ok ns
  | (.q, ns) => .ok (ns.flatMap fun a => [2 * a, 2 * a + 1])
  | (.s, _) => .error .listForm

/-- Braces may be left out "where a register list contains only one register" (43 R100). That the register must be one
doubleword register written by itself, neither a quadword register nor a range of one as in `D4-D4`, is the model's choice (log
12). -/
def bracesMayBeOmitted (l : RegList) : Bool :=
  match l.items with
  | [.one r _] => r.kind = .d
  | _ => false

/-- A list of whole registers as its doubleword numbers: consecutive, within the bank (43 R94 to R100). -/
def listDoublewords (c : Config) (l : RegList) : Except AsmError (List Nat) :=
  if !l.braces && !bracesMayBeOmitted l then .error .bracesRequired
  else
    match writtenRegisters l.items with
    | .error e => .error e
    | .ok w =>
      match doublewordsOf w with
      | .error e => .error e
      | .ok [] => .error .listForm
      | .ok (d :: ds) =>
        if d :: ds ≠ listNumbers d (ds.length + 1) 1 then .error .listForm
        else if !listFits c d (ds.length + 1) 1 then .error .listWraps
        else .ok (d :: ds)

/-- A member that names elements: with an index or with empty brackets (43 R95, R96). -/
def ListItem.namesElements : ListItem → Bool
  | .one _ (.lane _) | .one _ .allLanes => true
  | .one _ .whole | .range _ _ => false

/-- The doubleword number of a member `D<n>` written with the given suffix. -/
def ListItem.doublewordWith (suffix : ElemSuffix) : ListItem → Option Nat
  | .one r s => if r.kind = .d ∧ s = suffix then some r.num else none
  | .range _ _ => none

/-- A list of elements, `{<Dd[x]>, ...}` or `{<Dd[]>, ...}`: the doubleword numbers, one or two apart, and the index or empty
brackets that every member carries (43 R95, R96, R97). 43 R94 leaves to documents that are not in the source how many members
such a list may have and how far apart; that any number of them is taken, one or two apart and at no other distance, is the
model's choice (log 12). No admitted instruction takes one. -/
def elementList (c : Config) (l : RegList) : Except AsmError (List Nat × ElemSuffix) :=
  if !l.braces && !bracesMayBeOmitted l then .error .bracesRequired
  else
    match l.items with
    | .one r suffix :: _ =>
      if suffix = .whole then .error .listForm
      else
        match l.items.mapM (ListItem.doublewordWith suffix) with
        | none => .error .listForm
        | some ns =>
          if ns = listNumbers r.num ns.length 1 then
            if listFits c r.num ns.length 1 then .ok (ns, suffix) else .error .listWraps
          else if ns = listNumbers r.num ns.length 2 then
            if listFits c r.num ns.length 2 then .ok (ns, suffix) else .error .listWraps
          else .error .listForm
    | _ => .error .listForm

/-- The scalars that an element list names at an element size: element `x` of each register, or every element of each (43
R96). -/
def scalarsOfList (size : ElemSize) (ns : List Nat) : ElemSuffix → List (Nat × Nat)
  | .lane x => ns.map fun n => (n, x)
  | .whole | .allLanes => ns.flatMap fun n => (List.range (64 / size.bits)).map fun x => (n, x)

/-! ## Addresses (41) -/

/-- The alignment a written number of bits stands for (44 R115). -/
def alignOfBits? : Nat → Option AlignSpec
  | 64 => some .a64
  | 128 => some .a128
  | 256 => some .a256
  | _ => none

/-- The alignment of an address whose list has `regs` registers; `@` is read as `:` (41 R76, R77; 44 R115). -/
def alignOfText (regs : Nat) : Option (AlignSep × Nat) → Except AsmError AlignSpec
  | none => .ok .unspecified
  | some (_, bits) =>
    match alignOfBits? bits with
    | none => .error .alignNotPermitted
    | some a => if alignPermitted regs a then .ok a else .error .alignNotPermitted

/-- The base register: any but the PC (41 R75). -/
def baseOfText (g : GprText) : Except AsmError (Fin 16) :=
  if h : g.number < 16 then
    if g.number = 15 then .error .baseIsPc else .ok ⟨g.number, h⟩
  else .error .noSuchRegister

/-- The format: `!` and the transfer size written as an immediate are format 2, a register other than SP and PC is format 3 (41
R71, R72, R73, R78). -/
def formatOfText (regs : Nat) : PostText → Except AsmError AddrFormat
  | .none => .ok .noWriteback
  | .bang => .ok .byTransferSize
  | .imm n => if n = transferSize regs then .ok .byTransferSize else .error .transferSizeMismatch
  | .reg g =>
    if g.number = 13 ∨ g.number = 15 then .error .indexIsPcOrSp
    else if h : g.number < 15 then .ok (.byRegister ⟨g.number, h⟩)
    else .error .noSuchRegister

/-! ## Instructions of an instruction set -/

/-- VADD's instruction in the set. -/
def vaddIn (iset : InstrSet) (o : VaddOperands) : Instr :=
  match iset with
  | .a32 => .vaddA32 o
  | .t32 => .vaddT32 o

/-- VSUBW's instruction in the set. -/
def vsubwIn (iset : InstrSet) (o : VsubwOperands) : Instr :=
  match iset with
  | .a32 => .vsubwA32 o
  | .t32 => .vsubwT32 o

/-- VMOVN's instruction in the set. -/
def vmovnIn (iset : InstrSet) (o : VmovnOperands) : Instr :=
  match iset with
  | .a32 => .vmovnA32 o
  | .t32 => .vmovnT32 o

/-- VLD1's instruction in the set, by the number of registers; there is none but for one to four (44 R115). -/
def vld1In? (iset : InstrSet) (regs : Nat) (o : Vld1Operands) : Option Instr :=
  match iset, regs with
  | .a32, 1 => some (.vld1OneA32 o)
  | .a32, 2 => some (.vld1TwoA32 o)
  | .a32, 3 => some (.vld1ThreeA32 o)
  | .a32, 4 => some (.vld1FourA32 o)
  | .t32, 1 => some (.vld1OneT32 o)
  | .t32, 2 => some (.vld1TwoT32 o)
  | .t32, 3 => some (.vld1ThreeT32 o)
  | .t32, 4 => some (.vld1FourT32 o)
  | _, _ => none

/-! ## Lines (40 R60 to R69) -/

/-- "If <dest> is omitted, it is the same as <src1>": two registers of a two-source instruction are `<src1>`, `<src2>` (40 R64,
43 R92). -/
def threeRegisters : List VecReg → Except AsmError (VecReg × VecReg × VecReg)
  | [a, b, c] => .ok (a, b, c)
  | [a, b] => .ok (a, a, b)
  | _ => .error .operandShape

/-- VADD: all doubleword or all quadword registers, which decide the Q bit (40 R69, 44 R112). -/
def asmVadd (c : Config) (dt : DataType) (rs : List VecReg) : Except AsmError Instr :=
  match threeRegisters rs with
  | .error e => .error e
  | .ok (rd, rn, rm) =>
    if rd.kind ≠ rn.kind ∨ rn.kind ≠ rm.kind ∨ rd.kind = .s then .error .operandShape
    else
      match fieldNumber? c rd, fieldNumber? c rn, fieldNumber? c rm with
      | some d, some n, some m => .ok (vaddIn c.instrSet ⟨dt.size, rd.kind = .q, d, n, m⟩)
      | _, _, _ => .error .noSuchRegister

/-- VSUBW: `Qd, Qn, Dm` (40 R67, 44 R113). -/
def asmVsubw (c : Config) (dt : DataType) (rs : List VecReg) : Except AsmError Instr :=
  match threeRegisters rs with
  | .error e => .error e
  | .ok (rd, rn, rm) =>
    if rd.kind ≠ .q ∨ rn.kind ≠ .q ∨ rm.kind ≠ .d then .error .operandShape
    else
      match fieldNumber? c rd, fieldNumber? c rn, fieldNumber? c rm with
      | some d, some n, some m => .ok (vsubwIn c.instrSet ⟨dt.letter = some .u, dt.size, d, n, m⟩)
      | _, _, _ => .error .noSuchRegister

/-- VMOVN: `Dd, Qm`, both written (40 R64, R67); the size field is the result's (44 R114). -/
def asmVmovn (c : Config) (dt : DataType) (rs : List VecReg) : Except AsmError Instr :=
  match rs with
  | [rd, rm] =>
    if rd.kind ≠ .d ∨ rm.kind ≠ .q then .error .operandShape
    else
      match halfSize? dt.size, fieldNumber? c rd, fieldNumber? c rm with
      | some size, some d, some m => .ok (vmovnIn c.instrSet ⟨size, d, m⟩)
      | none, _, _ => .error .dataTypeNotAccepted
      | _, _, _ => .error .noSuchRegister
  | _ => .error .operandShape

/-- The list of a VLD1: whole registers. With element forms the line is another VLD1, of which there is no description (60
R125). -/
def listForVld1 (c : Config) (l : RegList) : Except AsmError (List Nat) :=
  if l.items.any ListItem.namesElements then .error .noInstructionDescription else listDoublewords c l

/-- VLD1: a list of one to four consecutive registers and an address (44 R115, 41). -/
def asmVld1 (c : Config) (dt : DataType) (l : RegList) (a : AddressText) : Except AsmError Instr :=
  match listForVld1 c l with
  | .error e => .error e
  | .ok ds =>
    match alignOfText ds.length a.align, baseOfText a.base, formatOfText ds.length a.post with
    | .error e, _, _ => .error e
    | _, .error e, _ => .error e
    | _, _, .error e => .error e
    | .ok align, .ok rn, .ok format =>
      match vld1In? c.instrSet ds.length ⟨dt.size, Fin.ofNat 32 (ds.headD 0), rn, align, format⟩ with
      | some i => .ok i
      | none => .error .listForm

/-- The Q shape suffix: accepted when the assembler accepts it, on a shapeless data-processing mnemonic, with quadword
registers only (40 R68). -/
def checkQSuffix (acceptQShape : Bool) (l : AsmLine) : Except AsmError Unit :=
  if !l.qSuffix then .ok ()
  else if !acceptQShape || l.mnemonic ≠ .vadd then .error .qSuffixNotAccepted
  else
    match l.operands with
    | .vectors rs => if rs.all (fun r => r.kind = .q) then .ok () else .error .qSuffixNeedsQuadwords
    | .load _ _ => .error .operandShape

/-- `<c>` absent or AL, `<q>` absent or `.W` (40 R63, 92 D14). -/
def checkCondition (l : AsmLine) : Except AsmError Unit :=
  if l.cond ≠ none ∧ l.cond ≠ some .al then .error .conditionNotAdmitted
  else if l.width = some .n then .error .widthNotAdmitted
  else .ok ()

/-- `ACCEPT_Q_SHAPE` where it is not given: "default true for the assembler" (00 R161, 92 "Parameters left open"). -/
def acceptQShapeDefault : Bool := true

/-- Assembles one line for the configuration's instruction set and bank; `acceptQShape` is `ACCEPT_Q_SHAPE` (00 R161). -/
def assemble (c : Config) (acceptQShape : Bool := acceptQShapeDefault) (l : AsmLine) : Except AsmError Instr :=
  match checkCondition l, checkQSuffix acceptQShape l, governingType l.mnemonic l.dts with
  | .error e, _, _ => .error e
  | _, .error e, _ => .error e
  | _, _, .error e => .error e
  | .ok _, .ok _, .ok dt =>
    match l.mnemonic, l.operands with
    | .vadd, .vectors rs => asmVadd c dt rs
    | .vsubw, .vectors rs => asmVsubw c dt rs
    | .vmovn, .vectors rs => asmVmovn c dt rs
    | .vld1, .load list a => asmVld1 c dt list a
    | .vadd, .load _ _ | .vsubw, .load _ _ | .vmovn, .load _ _ | .vld1, .vectors _ => .error .operandShape

end Sys2Proof.Machine
end

