-- ==== Sys2Proof/Machine/Run.lean ====
section
/-! DEFINITION. Run.lean: a run, with the records a stopped run leaves (spec 60 R120, R125; 70 R132). `step` answers the
reason a step stops with; here is the state that keeps it. -/

namespace Sys2Proof.Machine

/-- The pc stands right after the program and nothing stopped the run: "the run ends, and its state is final" (70 R132). -/
def State.isFinal (s : State) : Bool :=
  s.pc = s.text.stop && s.faultRecord.isNone && s.refusalMark.isNone

/-- The state after a step: the next state, or the same state with the fault or the refusal recorded. The end of the program
is no fault and no refusal and records nothing (70 R132). -/
def State.after (s : State) : State :=
  match step s with
  | .next t => t
  | .fault f => s.recordFault f
  | .refused .programEnded => s
  | .refused r => s.recordRefusal r

/-- The state after `n` steps. -/
def State.runFor (s : State) : Nat → State
  | 0 => s
  | n + 1 => s.after.runFor n

end Sys2Proof.Machine
end

