-- ==== Sys2Proof/Machine/Launch.lean ====
section
/-! DEFINITION. Launch.lean: the spec's launch states, in which a register, or the part of one, may hold NO VALUE, and the
fault `UnwrittenRead` of an instruction that reads one (spec 10 R24; 70 R130; 92 D9; 60 R120, R124, R126). A `State` holds a
value in every register, so that a program runs from reset (log 2); which of those values a launch gave is kept beside it,
and `launchStep` is the step that never lets the others be read. -/

namespace Sys2Proof.Machine

/-- The parts of the register files that separately have a value or none (92 D9): each of R0 to R14, each 32-bit half of D0 to
D15 (by its S register), each of D16 to D31. -/
inductive RegPart where
  | gpr (i : Fin 15)
  | single (j : Fin 32)
  | upper (i : Fin 16)
  deriving DecidableEq, Repr

/-- A launch state or a state of a run from one: the machine, and the register parts that have a value. -/
structure Launched where
  machine : State
  valued : List RegPart
  deriving DecidableEq, Repr

/-- The parts of `D<i>` (92 D9, 10 R17). -/
def partsOfD (i : DNum) : List RegPart :=
  if h : i.val < 16 then [.single ⟨2 * i.val, by omega⟩, .single ⟨2 * i.val + 1, by omega⟩]
  else [.upper ⟨i.val - 16, by omega⟩]

/-- The doubleword registers of `count` consecutive numbers from `d` on. -/
def dRun (d : DNum) (count : Nat) : List DNum :=
  (List.range count).map (dPlus d)

/-- What an instruction reads and writes: the inputs of 44 R111 step 5 and the outputs of step 7. -/
structure Footprint where
  readsR : List (Fin 15)
  readsD : List DNum
  writesD : List DNum
  deriving DecidableEq, Repr

/-- VADD's (44 R112). -/
def vaddFootprint (o : VaddOperands) : Footprint :=
  ⟨[], dRun o.n (regsOfQ o.quad) ++ dRun o.m (regsOfQ o.quad), dRun o.d (regsOfQ o.quad)⟩

/-- VSUBW's (44 R113). -/
def vsubwFootprint (o : VsubwOperands) : Footprint :=
  ⟨[], [qFirst (qOf o.n), qSecond (qOf o.n), o.m], [qFirst (qOf o.d), qSecond (qOf o.d)]⟩

/-- VMOVN's (44 R114). -/
def vmovnFootprint (o : VmovnOperands) : Footprint :=
  ⟨[], [qFirst (qOf o.m), qSecond (qOf o.m)], [o.d]⟩

/-- VLD1's: the base, and the index in format 3; "the destination registers are not read" (44 R115). The base it may write is
one it reads. -/
def vld1Footprint (regs : Nat) (o : Vld1Operands) : Footprint :=
  let index := match o.format with
    | .byRegister rm => [rm]
    | .noWriteback | .byTransferSize => []
  ⟨(gprOf? o.rn).toList ++ index, [], dRun o.d regs⟩

/-- The footprint of each instruction. -/
def footprint : Instr → Footprint
  | .vaddA32 o | .vaddT32 o => vaddFootprint o
  | .vsubwA32 o | .vsubwT32 o => vsubwFootprint o
  | .vmovnA32 o | .vmovnT32 o => vmovnFootprint o
  | .vld1OneA32 o | .vld1OneT32 o => vld1Footprint 1 o
  | .vld1TwoA32 o | .vld1TwoT32 o => vld1Footprint 2 o
  | .vld1ThreeA32 o | .vld1ThreeT32 o => vld1Footprint 3 o
  | .vld1FourA32 o | .vld1FourT32 o => vld1Footprint 4 o

/-- VLD1's Undefined or Unpredictable fault, if it has one (44 R115). -/
def vld1Fault? (c : Config) (regs : Nat) (o : Vld1Operands) : Option Fault :=
  match vld1Base c regs o with
  | .ok _ => none
  | .error f => some f

/-- The Undefined or Unpredictable fault that the word and the configuration settle, before any register is read (44 R111
steps 3 and 4). -/
def decodeFault? (c : Config) : Instr → Option Fault
  | .vaddA32 o | .vaddT32 o => vaddFault? c o
  | .vsubwA32 o | .vsubwT32 o => vsubwFault? c o
  | .vmovnA32 o | .vmovnT32 o => vmovnFault? c o
  | .vld1OneA32 o | .vld1OneT32 o => vld1Fault? c 1 o
  | .vld1TwoA32 o | .vld1TwoT32 o => vld1Fault? c 2 o
  | .vld1ThreeA32 o | .vld1ThreeT32 o => vld1Fault? c 3 o
  | .vld1FourA32 o | .vld1FourT32 o => vld1Fault? c 4 o

/-- `R<i>` has a value. -/
def Launched.hasR (l : Launched) (i : Fin 15) : Bool :=
  l.valued.contains (.gpr i)

/-- Every part of `D<i>` has a value. -/
def Launched.hasD (l : Launched) (i : DNum) : Bool :=
  (partsOfD i).all l.valued.contains

/-- The first register that the footprint reads and that has no value: "general-purpose registers before vector registers, the
lowest number first" (60 R126; 92 D19 over the order 44 R115 writes, log 11). -/
def Launched.unwritten? (l : Launched) (f : Footprint) : Option RegName :=
  match (List.finRange 15).find? (fun i => f.readsR.contains i && !l.hasR i) with
  | some i => some (.r i)
  | none => ((List.finRange 32).find? (fun i => f.readsD.contains i && !l.hasD i)).map .d

/-- "A write gives the written part a value" (92 D9). -/
def Launched.afterWrites (l : Launched) (f : Footprint) (t : State) : Launched :=
  ⟨t, f.writesD.flatMap partsOfD ++ l.valued⟩

/-- An instruction under the launch discipline, in the priority order of 60 R126: Undefined and Unpredictable, then
UnwrittenRead, then the rest of its meaning. -/
def launchExec (i : Instr) (l : Launched) : Host.Outcome Launched Fault Refusal :=
  match decodeFault? l.machine.config i with
  | some f => .fault f
  | none =>
    match l.unwritten? (footprint i) with
    | some r => .fault (.unwrittenRead r)
    | none =>
      match exec i l.machine with
      | .next t => .next (l.afterWrites (footprint i) t)
      | .fault f => .fault f
      | .refused r => .refused r

/-- One step under the launch discipline. A recorded fault, UnwrittenRead among them, or a recorded refusal is never cleared
and no later step is taken (60 R120, R125). -/
def launchStep (l : Launched) : Host.Outcome Launched Fault Refusal :=
  match l.machine.faultRecord with
  | some f => .fault f
  | none =>
    match l.machine.refusalMark with
    | some r => .refused r
    | none =>
      match l.machine.fetch with
      | .error r => .refused r
      | .ok w =>
        match decode l.machine.config.instrSet w with
        | .error _ => .refused .noInstructionDescription
        | .ok i => launchExec i l

/-- A fault is recorded in the machine's fault record, UnwrittenRead like the others, and nothing else changes (60 R120). -/
def Launched.recordFault (l : Launched) (f : Fault) : Launched :=
  { l with machine := l.machine.recordFault f }

/-- A refusal is recorded in the machine's refusal mark, and nothing else changes (60 R125). -/
def Launched.recordRefusal (l : Launched) (r : Refusal) : Launched :=
  { l with machine := l.machine.recordRefusal r }

/-- The launched state after a step: the next one, or the same one with the fault or the refusal recorded; the end of the
program records nothing (70 R132). -/
def Launched.after (l : Launched) : Launched :=
  match launchStep l with
  | .next t => t
  | .fault f => l.recordFault f
  | .refused .programEnded => l
  | .refused r => l.recordRefusal r

/-- The launched state after `n` steps. -/
def Launched.runFor (l : Launched) : Nat → Launched
  | 0 => l
  | n + 1 => l.after.runFor n

/-- The arguments of a launch (70 R130): the values it gives, with a value for each S register it names and for each
doubleword register it names, the launch memory's bytes, the program and the entry address, and the configuration. -/
structure Launch where
  config : Config
  gprs : List (Fin 15 × Word)
  doubles : List (DNum × DWord)
  singles : List (Fin 32 × Word)
  bytes : List (Nat × Byte)
  text : ProgramText
  entry : Word
  deriving DecidableEq, Repr

/-- The doubleword registers a launch gives values: those of the bank, D0 to D(NUM_DREGS-1) (70 R130). That an entry for another
one is passed over is the model's choice (log 17). -/
def Launch.presentDoubles (a : Launch) : List (DNum × DWord) :=
  a.doubles.filter fun p => inBank a.config p.1 1

/-- The bytes a launch gives memory: those at addresses of the address space (70 R130, 20 R30). That an entry for another address
is passed over is the model's choice (log 17). -/
def Launch.presentBytes (a : Launch) : List (Nat × Byte) :=
  a.bytes.filter fun p => p.1 < 2 ^ 32

/-- The launch state (70 R130): an empty fault record, and a value in exactly the parts the launch names. What R130 says nothing
of is the model's choice (log 17): a register, a half or an address named twice takes the value named last, and an S register is
written after the doubleword registers. -/
def Launch.start (a : Launch) : Launched :=
  let s0 : State := { State.reset with config := a.config, pc := a.entry, text := a.text }
  let s1 := a.gprs.foldl (fun s p => s.writeR p.1 p.2) s0
  let s2 := a.presentDoubles.foldl (fun s p => s.writeD p.1 p.2) s1
  let s3 := a.singles.foldl (fun s p => s.writeS p.1 p.2) s2
  ⟨{ s3 with mem := a.presentBytes.foldl (fun m p => m.put p.1 p.2) [] },
    a.gprs.map (fun p => .gpr p.1) ++ a.presentDoubles.flatMap (fun p => partsOfD p.1) ++ a.singles.map (fun p => .single p.1)⟩

end Sys2Proof.Machine
end

