-- ==== Sys2Proof/Machine/Disassembler.lean ====
section
/-! DEFINITION. Disassembler.lean: the canonical line of an admitted instruction (spec 92 D16; 40 R64, R68; 41 R77, R78; 42
R87; 43 R101). -/

namespace Sys2Proof.Machine

/-- `D<i>` as written. -/
def dText (i : DNum) : VecReg := ⟨.d, i.val⟩

/-- The quadword register of a field pair as written. -/
def qText (i : DNum) : VecReg := ⟨.q, (qOf i).val⟩

/-- A general-purpose register as printed: `R<number>` but for SP, which the spec's examples write so (95 T11 L5, log 13). -/
def gprText (n : Fin 16) : GprText :=
  if n = 13 then .sp else .r n.val

/-- A line with no suffix, condition or width (92 D16). -/
def plainLine (m : Mnemonic) (dt : DataType) (ops : OperandText) : AsmLine :=
  ⟨m, false, none, none, [.typed dt], ops⟩

/-- `VADD.I<size>` and all three operands (92 D16, 40 R64). -/
def vaddLine (o : VaddOperands) : AsmLine :=
  let reg := if o.quad then qText else dText
  plainLine .vadd ⟨some .i, o.size⟩ (.vectors [reg o.d, reg o.n, reg o.m])

/-- `VSUBW.S<size>` or `VSUBW.U<size>`. -/
def vsubwLine (o : VsubwOperands) : AsmLine :=
  plainLine .vsubw ⟨some (if o.isUnsigned then .u else .s), o.size⟩ (.vectors [qText o.d, qText o.n, dText o.m])

/-- `VMOVN.I<size of the operand>`. -/
def vmovnLine (o : VmovnOperands) : Option AsmLine :=
  (doubleSize? o.size).map fun k => plainLine .vmovn ⟨some .i, k⟩ (.vectors [dText o.d, qText o.m])

/-- The alignment as printed, with `:` (41 R77, 92 D16). -/
def alignText : AlignSpec → Option (AlignSep × Nat)
  | .unspecified => none
  | .a64 => some (.colon, 64)
  | .a128 => some (.colon, 128)
  | .a256 => some (.colon, 256)

/-- The format as printed: format 2 with `!` (41 R78). -/
def postText : AddrFormat → PostText
  | .noWriteback => .none
  | .byTransferSize => .bang
  | .byRegister rm => .reg (gprText ⟨rm.val, by omega⟩)

/-- `VLD1.<size>`, the list in braces with every doubleword name (43 R101), and the address. -/
def vld1Line (regs : Nat) (o : Vld1Operands) : AsmLine :=
  plainLine .vld1 ⟨none, o.size⟩
    (.load ⟨true, (listNumbers o.d.val regs 1).map fun n => .one ⟨.d, n⟩ .whole⟩
      ⟨gprText o.rn, alignText o.align, postText o.format⟩)

/-- The line of an instruction, faults aside. -/
def lineOf : Instr → Option AsmLine
  | .vaddA32 o | .vaddT32 o => some (vaddLine o)
  | .vsubwA32 o | .vsubwT32 o => some (vsubwLine o)
  | .vmovnA32 o | .vmovnT32 o => vmovnLine o
  | .vld1OneA32 o | .vld1OneT32 o => some (vld1Line 1 o)
  | .vld1TwoA32 o | .vld1TwoT32 o => some (vld1Line 2 o)
  | .vld1ThreeA32 o | .vld1ThreeT32 o => some (vld1Line 3 o)
  | .vld1FourA32 o | .vld1FourT32 o => some (vld1Line 4 o)

/-- The word is one the assembler's language can write: an instruction of the configuration's set whose fields are no
Undefined or Unpredictable combination. The enable plays no part in text. -/
def admitted (c : Config) (i : Instr) : Bool :=
  i.wellFormed && i.instrSet = c.instrSet && (decodeFault? { c with simdEnabled := true } i).isNone

/-- Disassembles an admitted instruction (92 D16). -/
def disassemble (c : Config) (i : Instr) : Option AsmLine :=
  if admitted c i then lineOf i else none

end Sys2Proof.Machine
end

