-- ==== Sys2Proof/Machine/AsmText.lean ====
section
/-! DEFINITION. AsmText.lean: the characters of an assembler line, read and printed (spec 40 R60 to R65, 41 R71 to R78, 42 R81,
R86, 43 R91 to R100; 92 D16). Either letter case is read (40 R60); capitals are printed. -/

namespace Sys2Proof.Machine

/-! ## Characters and numbers -/

/-- The opening brace of a register list (43 R94). -/
def openBrace : Char := Char.ofNat 123

/-- The closing brace of a register list. -/
def closeBrace : Char := Char.ofNat 125

/-- A letter in capitals (40 R60: either case is accepted). -/
def upcase (c : Char) : Char :=
  if 97 ≤ c.toNat ∧ c.toNat ≤ 122 then Char.ofNat (c.toNat - 32) else c

/-- A decimal digit. -/
def isDigitChar (c : Char) : Bool := decide (48 ≤ c.toNat) && decide (c.toNat ≤ 57)

/-- A letter or a digit. -/
def isWordChar (c : Char) : Bool :=
  isDigitChar c || (decide (65 ≤ (upcase c).toNat) && decide ((upcase c).toNat ≤ 90))

/-- A decimal number with no needless leading zero. For register numbers decimal is the spec's (43 R91); that the numbers of
`#<transfer_size>`, of `:<align>` and of an element index are decimal too, and are read in no other radix, is the model's choice
(log 21), because 40 R60 leaves the conventions of immediates to a document that is not in the source. -/
def readNumber (cs : List Char) : Option Nat :=
  if cs = [] ∨ !cs.all isDigitChar ∨ (cs.length > 1 ∧ cs.head? = some '0') then none
  else some (cs.foldl (fun n c => 10 * n + (c.toNat - 48)) 0)

/-- The digit of a number below ten. -/
def digitChar (n : Nat) : Char := Char.ofNat (48 + n % 10)

/-- A number below a thousand in decimal. -/
def printNumber (n : Nat) : List Char :=
  if n < 10 then [digitChar n]
  else if n < 100 then [digitChar (n / 10), digitChar n]
  else [digitChar (n / 100), digitChar (n / 10), digitChar n]

/-! ## The mnemonic part: `V<operation>{<shape>}{<c>}{<q>}{.<dt>}` (40 R60) -/

/-- The whole mnemonics (40 R65). -/
def mnemonicTexts : List (List Char × Mnemonic) :=
  [ (['V', 'A', 'D', 'D'], .vadd), (['V', 'S', 'U', 'B', 'W'], .vsubw), (['V', 'M', 'O', 'V', 'N'], .vmovn),
    (['V', 'L', 'D', '1'], .vld1) ]

/-- The condition codes (40 R63). -/
def condTexts : List (List Char × Cond) :=
  [ (['E', 'Q'], .eq), (['N', 'E'], .ne), (['C', 'S'], .cs), (['C', 'C'], .cc), (['M', 'I'], .mi), (['P', 'L'], .pl),
    (['V', 'S'], .vs), (['V', 'C'], .vc), (['H', 'I'], .hi), (['L', 'S'], .ls), (['G', 'E'], .ge), (['L', 'T'], .lt),
    (['G', 'T'], .gt), (['L', 'E'], .le), (['A', 'L'], .al) ]

/-- Looks a text up in a table. -/
def lookupText {α : Type} (table : List (List Char × α)) (cs : List Char) : Option α :=
  (table.find? fun p => p.1 = cs).map (·.2)

/-- What follows a mnemonic's letters: the Q suffix, then the condition. -/
def readSuffix (cs : List Char) : Option (Bool × Option Cond) :=
  match cs with
  | [] => some (false, none)
  | ['Q'] => some (true, none)
  | 'Q' :: rest => (lookupText condTexts rest).map fun c => (true, some c)
  | rest => (lookupText condTexts rest).map fun c => (false, some c)

/-- The name up to the first full stop: one of the four mnemonics and its suffixes. -/
def readName (cs : List Char) : Option (Mnemonic × Bool × Option Cond) :=
  mnemonicTexts.findSome? fun p =>
    if p.1.isPrefixOf cs then (readSuffix (cs.drop p.1.length)).map fun x => (p.2, x) else none

/-- An element size in decimal. -/
def readSize (cs : List Char) : Option ElemSize :=
  lookupText [(['8'], .e8), (['1', '6'], .e16), (['3', '2'], .e32), (['6', '4'], .e64)] cs

/-- The letter of a data type. -/
def readLetter (c : Char) : Option TypeLetter :=
  lookupText [(['I'], .i), (['S'], .s), (['U'], .u), (['P'], .p), (['F'], .f)] [c]

/-- One data type specifier, without its full stop (42 R81, R86). -/
def readDt (cs : List Char) : Option DtSpec :=
  match cs with
  | ['F'] => some .abbrevF
  | ['D'] => some .abbrevD
  | c :: rest =>
    match readSize (c :: rest) with
    | some k => some (.typed ⟨none, k⟩)
    | none =>
      match readLetter c, readSize rest with
      | some l, some k => some (.typed ⟨some l, k⟩)
      | _, _ => none
  | [] => none

/-- The pieces between full stops. -/
def splitStops : List Char → List (List Char)
  | [] => [[]]
  | c :: cs =>
    match splitStops cs with
    | piece :: pieces => if c = '.' then [] :: piece :: pieces else (c :: piece) :: pieces
    | [] => [[c]]

/-- The pieces after the name: `<q>` first when it stands, then the data types (40 R60, R63). -/
def readPieces (pieces : List (List Char)) : Option (Option WidthQual × List DtSpec) :=
  match pieces with
  | ['W'] :: rest => (rest.mapM readDt).map fun ts => (some .w, ts)
  | ['N'] :: rest => (rest.mapM readDt).map fun ts => (some .n, ts)
  | rest => (rest.mapM readDt).map fun ts => (none, ts)

/-! ## The operand part -/

/-- The pieces of the operand part. -/
inductive Token where
  | word (cs : List Char)
  | comma
  | openList
  | closeList
  | openBracket
  | closeBracket
  | bang
  | hash
  | colon
  | atSign
  | dash
  deriving DecidableEq, Repr

/-- The punctuation of the operand part (40 R60, 41 R71 to R78, 43 R94 to R98). No character starts a comment: 40 R60 leaves
comment characters to conventions that are not in the source, and that a line with one is no line is the model's choice (log
20). -/
def readPunctuation (c : Char) : Option Token :=
  if c = openBrace then some .openList
  else if c = closeBrace then some .closeList
  else if c = ',' then some .comma
  else if c = '[' then some .openBracket
  else if c = ']' then some .closeBracket
  else if c = '!' then some .bang
  else if c = '#' then some .hash
  else if c = ':' then some .colon
  else if c = '@' then some .atSign
  else if c = '-' then some .dash
  else none

/-- The word read so far, before further tokens. -/
def flushWord (acc : List Char) (ts : List Token) : List Token :=
  if acc = [] then ts else .word acc :: ts

/-- Cuts the operand part into tokens, with `acc` the word read so far; blanks part words and mean nothing else. -/
def readTokens (acc : List Char) : List Char → Option (List Token)
  | [] => some (flushWord acc [])
  | c :: cs =>
    if isWordChar c then readTokens (acc ++ [upcase c]) cs
    else if c = ' ' then (readTokens [] cs).map (flushWord acc)
    else
      match readPunctuation c with
      | some t => (readTokens [] cs).map fun ts => flushWord acc (t :: ts)
      | none => none

/-- A vector register (43 R91). -/
def readVecReg (cs : List Char) : Option VecReg :=
  match cs with
  | 'Q' :: ds => (readNumber ds).map (VecReg.mk .q)
  | 'D' :: ds => (readNumber ds).map (VecReg.mk .d)
  | 'S' :: ds => (readNumber ds).map (VecReg.mk .s)
  | _ => none

/-- A general-purpose register (43 R91, 10 R11). -/
def readGpr (cs : List Char) : Option GprText :=
  match cs with
  | ['S', 'P'] => some .sp
  | ['L', 'R'] => some .lr
  | ['P', 'C'] => some .pc
  | 'R' :: ds => (readNumber ds).map .r
  | _ => none

/-- Vector registers parted by commas. -/
def readVectors : List Token → Option (List VecReg)
  | [.word w] => (readVecReg w).map fun r => [r]
  | .word w :: .comma :: rest =>
    match readVecReg w, readVectors rest with
    | some r, some rs => some (r :: rs)
    | _, _ => none
  | _ => none

/-- One member of a register list, and the tokens after it (43 R95, R98). 43 R98 shows ranges of whole registers only; that members
with an index or empty brackets make no range, so that a line with `D0[]-D3[]` is no line, is the model's choice (log 12). -/
def readItem : List Token → Option (ListItem × List Token)
  | .word a :: .dash :: .word b :: rest =>
    match readVecReg a, readVecReg b with
    | some x, some y => some (.range x y, rest)
    | _, _ => none
  | .word a :: .openBracket :: .closeBracket :: rest => (readVecReg a).map fun r => (.one r .allLanes, rest)
  | .word a :: .openBracket :: .word x :: .closeBracket :: rest =>
    match readVecReg a, readNumber x with
    | some r, some n => some (.one r (.lane n), rest)
    | _, _ => none
  | .word a :: rest => (readVecReg a).map fun r => (.one r .whole, rest)
  | _ => none

/-- The members up to the closing brace, and the tokens after it; `fuel` bounds their number. -/
def readItems : (fuel : Nat) → List Token → Option (List ListItem × List Token)
  | 0, _ => none
  | fuel + 1, ts =>
    match readItem ts with
    | some (it, .closeList :: rest) => some ([it], rest)
    | some (it, .comma :: rest) => (readItems fuel rest).map fun p => (it :: p.1, p.2)
    | _ => none

/-- A register list, with or without braces (43 R94, R100). -/
def readRegList (ts : List Token) : Option (RegList × List Token) :=
  match ts with
  | .openList :: rest => (readItems rest.length rest).map fun p => (⟨true, p.1⟩, p.2)
  | _ => (readItem ts).map fun p => (⟨false, [p.1]⟩, p.2)

/-- What follows the closing bracket of an address. -/
def readPost : List Token → Option PostText
  | [] => some .none
  | [.bang] => some .bang
  | [.comma, .hash, .word n] => (readNumber n).map .imm
  | [.comma, .word g] => (readGpr g).map .reg
  | _ => none

/-- An address (41 R71 to R78). -/
def readAddress : List Token → Option AddressText
  | .openBracket :: .word g :: .closeBracket :: post =>
    match readGpr g, readPost post with
    | some b, some p => some ⟨b, none, p⟩
    | _, _ => none
  | .openBracket :: .word g :: .colon :: .word n :: .closeBracket :: post =>
    match readGpr g, readNumber n, readPost post with
    | some b, some k, some p => some ⟨b, some (.colon, k), p⟩
    | _, _, _ => none
  | .openBracket :: .word g :: .atSign :: .word n :: .closeBracket :: post =>
    match readGpr g, readNumber n, readPost post with
    | some b, some k, some p => some ⟨b, some (.at, k), p⟩
    | _, _, _ => none
  | _ => none

/-- The operands of a line: vector registers, or a list and an address. -/
def readOperands (ts : List Token) : Option OperandText :=
  match readVectors ts with
  | some rs => some (.vectors rs)
  | none =>
    match readRegList ts with
    | some (l, .comma :: rest) => (readAddress rest).map (.load l)
    | _ => none

/-- Reads a line: the mnemonic part "without spaces", then the operands (40 R60). -/
def readLine (cs : List Char) : Except AsmError AsmLine :=
  let cs := cs.dropWhile (· = ' ')
  let pieces := splitStops ((cs.takeWhile (· ≠ ' ')).map upcase)
  match readName (pieces.headD []) with
  | none => .error .noInstructionDescription
  | some (m, q, cond) =>
    match readPieces pieces.tail, readTokens [] (cs.dropWhile (· ≠ ' ')) with
    | some (width, dts), some ts =>
      match readOperands ts with
      | some ops => .ok ⟨m, q, cond, width, dts, ops⟩
      | none => .error .notALine
    | _, _ => .error .notALine

/-! ## Printing -/

/-- The text of a table's value. -/
def textOf {α : Type} [DecidableEq α] (table : List (List Char × α)) (x : α) : List Char :=
  ((table.find? fun p => p.2 = x).map (·.1)).getD []

/-- Pieces with `", "` between them. -/
def joinComma : List (List Char) → List Char
  | [] => []
  | [p] => p
  | p :: ps => p ++ ',' :: ' ' :: joinComma ps

/-- A vector register. -/
def printVecReg (r : VecReg) : List Char :=
  (match r.kind with
   | .q => 'Q'
   | .d => 'D'
   | .s => 'S') :: printNumber r.num

/-- A general-purpose register. -/
def printGpr : GprText → List Char
  | .r n => 'R' :: printNumber n
  | .sp => ['S', 'P']
  | .lr => ['L', 'R']
  | .pc => ['P', 'C']

/-- A member of a list. -/
def printItem : ListItem → List Char
  | .one r .whole => printVecReg r
  | .one r .allLanes => printVecReg r ++ ['[', ']']
  | .one r (.lane x) => printVecReg r ++ '[' :: printNumber x ++ [']']
  | .range a b => printVecReg a ++ '-' :: printVecReg b

/-- A register list. -/
def printRegList (l : RegList) : List Char :=
  if l.braces then openBrace :: joinComma (l.items.map printItem) ++ [closeBrace]
  else joinComma (l.items.map printItem)

/-- What follows the closing bracket. -/
def printPost : PostText → List Char
  | .none => []
  | .bang => ['!']
  | .imm n => ',' :: ' ' :: '#' :: printNumber n
  | .reg g => ',' :: ' ' :: printGpr g

/-- The alignment of an address. -/
def printAlign : Option (AlignSep × Nat) → List Char
  | none => []
  | some (.colon, n) => ':' :: printNumber n
  | some (.at, n) => '@' :: printNumber n

/-- An address. -/
def printAddress (a : AddressText) : List Char :=
  '[' :: printGpr a.base ++ printAlign a.align ++ ']' :: printPost a.post

/-- The operands. -/
def printOperands : OperandText → List Char
  | .vectors rs => joinComma (rs.map printVecReg)
  | .load l a => joinComma [printRegList l, printAddress a]

/-- A data type specifier with its full stop. -/
def printDt : DtSpec → List Char
  | .abbrevF => ['.', 'F']
  | .abbrevD => ['.', 'D']
  | .typed t =>
    '.' :: (match t.letter with
      | none => []
      | some .i => ['I']
      | some .s => ['S']
      | some .u => ['U']
      | some .p => ['P']
      | some .f => ['F']) ++ printNumber t.size.bits

/-- A line (40 R60). -/
def printLine (l : AsmLine) : List Char :=
  textOf mnemonicTexts l.mnemonic ++ (if l.qSuffix then ['Q'] else [])
    ++ (match l.cond with
      | none => []
      | some c => textOf condTexts c)
    ++ (match l.width with
      | none => []
      | some .n => ['.', 'N']
      | some .w => ['.', 'W'])
    ++ l.dts.flatMap printDt ++ ' ' :: printOperands l.operands

/-! ## Text to word and back -/

/-- The instruction word of a line of text (for T32 as `hw1:hw2`). -/
def assembleText (c : Config) (acceptQShape : Bool := acceptQShapeDefault) (cs : List Char) : Except AsmError Word :=
  match readLine cs with
  | .error e => .error e
  | .ok l =>
    match assemble c acceptQShape l with
    | .error e => .error e
    | .ok i => .ok (encode i)

/-- The canonical text of an admitted instruction word (92 D16). -/
def disassembleText (c : Config) (w : Word) : Option (List Char) :=
  match decode c.instrSet w with
  | .error _ => none
  | .ok i => (disassemble c i).map printLine

end Sys2Proof.Machine
end

