-- ==== Sys2Proof/Safety.lean ====
section
/-! DEFINITION. Safety.lean: what a well-formed state is and what a safe run is, in the terms the statements use. -/

namespace Sys2Proof.Machine

/-- The program text's base is a multiple of 4 (70 R132) and its end, `B + 4k`, is an address below 2^32. The second half is
the model's choice (log 19): the spec gives no such bound, and fetch, step and run work modulo 2^32 without it. -/
def ProgramText.wf (t : ProgramText) : Bool :=
  t.base.toNat % 4 = 0 && decide (t.base.toNat + 4 * t.words.length < 2 ^ 32)

/-- The pc is at a word of the program or right after the last one: "a fetch at any other pc outside the range cannot happen"
(70 R132). -/
def State.pcInProgram (s : State) : Bool :=
  decide (s.text.base.toNat ≤ s.pc.toNat) && decide (s.pc.toNat ≤ s.text.base.toNat + 4 * s.text.words.length)

/-- "pc is always a multiple of 4" (10 R12). -/
def State.pcAligned (s : State) : Bool := s.pc.toNat % 4 = 0

/-- With `NUM_DREGS` = 16 the upper sixteen cells, which no register of the bank is, hold zero, so that equal machines are
equal data (log 3). -/
def State.absentCellsZero (s : State) : Bool :=
  (List.finRange 32).all fun i => inBank s.config i 1 || s.readD i == 0

/-- The invariant of the machine: the text is well formed, the pc is aligned and in it, the memory has its canonical form and
absent cells are zero. -/
def State.inv (s : State) : Bool :=
  s.text.wf && s.pcAligned && s.pcInProgram && s.mem.wf && s.absentCellsZero

/-- No fault and no refusal has been recorded. -/
def State.running (s : State) : Bool :=
  s.faultRecord.isNone && s.refusalMark.isNone

/-- The run from `s` ends at the end of its program within `n` steps, with no fault and no refusal. -/
def State.endsSafely (s : State) (n : Nat) : Prop :=
  (s.runFor n).isFinal = true

/-- Two launched states that differ at most in what the parts without a value hold. -/
def sameButUnvalued (a b : Launched) : Prop :=
  a.valued = b.valued ∧
  a.machine.config = b.machine.config ∧ a.machine.pc = b.machine.pc ∧ a.machine.mem = b.machine.mem ∧
  a.machine.text = b.machine.text ∧ a.machine.faultRecord = b.machine.faultRecord ∧
  a.machine.refusalMark = b.machine.refusalMark ∧
  (∀ i, RegPart.gpr i ∈ a.valued → a.machine.readR i = b.machine.readR i) ∧
  (∀ j, RegPart.single j ∈ a.valued → a.machine.readS j = b.machine.readS j) ∧
  (∀ i : Fin 16, RegPart.upper i ∈ a.valued →
    a.machine.readD ⟨i.val + 16, by omega⟩ = b.machine.readD ⟨i.val + 16, by omega⟩)

end Sys2Proof.Machine
end

