-- ==== Sys2Proof/Certificates/Slice0/Obligations.lean ====
section
/-! DEFINITION. Obligations.lean: the statements for the provers, and the few words they are said in. -/

open Sys2Proof Sys2Proof.Machine

namespace Sys2Proof.Machine

/-! ## Words of the statements -/

/-- The operands of either VADD row. -/
def vaddParts? : Instr → Option VaddOperands
  | .vaddA32 o | .vaddT32 o => some o
  | .vsubwA32 _ | .vsubwT32 _ | .vmovnA32 _ | .vmovnT32 _ => none
  | .vld1OneA32 _ | .vld1OneT32 _ | .vld1TwoA32 _ | .vld1TwoT32 _ => none
  | .vld1ThreeA32 _ | .vld1ThreeT32 _ | .vld1FourA32 _ | .vld1FourT32 _ => none

/-- The operands of either VSUBW row. -/
def vsubwParts? : Instr → Option VsubwOperands
  | .vsubwA32 o | .vsubwT32 o => some o
  | .vaddA32 _ | .vaddT32 _ | .vmovnA32 _ | .vmovnT32 _ => none
  | .vld1OneA32 _ | .vld1OneT32 _ | .vld1TwoA32 _ | .vld1TwoT32 _ => none
  | .vld1ThreeA32 _ | .vld1ThreeT32 _ | .vld1FourA32 _ | .vld1FourT32 _ => none

/-- The operands of either VMOVN row. -/
def vmovnParts? : Instr → Option VmovnOperands
  | .vmovnA32 o | .vmovnT32 o => some o
  | .vaddA32 _ | .vaddT32 _ | .vsubwA32 _ | .vsubwT32 _ => none
  | .vld1OneA32 _ | .vld1OneT32 _ | .vld1TwoA32 _ | .vld1TwoT32 _ => none
  | .vld1ThreeA32 _ | .vld1ThreeT32 _ | .vld1FourA32 _ | .vld1FourT32 _ => none

/-- The number of registers and the operands of any VLD1 row. -/
def vld1Parts? : Instr → Option (Nat × Vld1Operands)
  | .vld1OneA32 o | .vld1OneT32 o => some (1, o)
  | .vld1TwoA32 o | .vld1TwoT32 o => some (2, o)
  | .vld1ThreeA32 o | .vld1ThreeT32 o => some (3, o)
  | .vld1FourA32 o | .vld1FourT32 o => some (4, o)
  | .vaddA32 _ | .vaddT32 _ | .vsubwA32 _ | .vsubwT32 _ | .vmovnA32 _ | .vmovnT32 _ => none

/-- The frame of an instruction that writes the doubleword registers in `written` and nothing else but the pc: every other
register, every byte of memory, the configuration, the program text and the two records are as before. -/
def OnlyDoublewords (written : DNum → Prop) (s t : State) : Prop :=
  (∀ i, ¬ written i → t.readD i = s.readD i) ∧
  (∀ r, t.readR r = s.readR r) ∧
  (∀ a, t.mem.byte? a = s.mem.byte? a) ∧ t.mem = s.mem ∧
  t.config = s.config ∧ t.text = s.text ∧ t.faultRecord = s.faultRecord ∧ t.refusalMark = s.refusalMark

/-- VADD's conditions: no Undefined condition of 44 R112 holds. -/
def VaddDefined (c : Config) (o : VaddOperands) : Prop :=
  c.simdEnabled = true ∧
  (o.quad = true → o.d.val % 2 = 0 ∧ o.n.val % 2 = 0 ∧ o.m.val % 2 = 0) ∧
  o.d.val + (if o.quad then 2 else 1) ≤ c.numDregs ∧
  o.n.val + (if o.quad then 2 else 1) ≤ c.numDregs ∧
  o.m.val + (if o.quad then 2 else 1) ≤ c.numDregs

/-- VSUBW's conditions: no Undefined condition of 44 R113 holds. -/
def VsubwDefined (c : Config) (o : VsubwOperands) : Prop :=
  c.simdEnabled = true ∧ o.d.val % 2 = 0 ∧ o.n.val % 2 = 0 ∧
  o.d.val + 2 ≤ c.numDregs ∧ o.n.val + 2 ≤ c.numDregs ∧ o.m.val < c.numDregs

/-- VMOVN's conditions: no Undefined condition of 44 R114 holds. -/
def VmovnDefined (c : Config) (o : VmovnOperands) : Prop :=
  c.simdEnabled = true ∧ o.size ≠ .e64 ∧ o.m.val % 2 = 0 ∧ o.d.val < c.numDregs ∧ o.m.val + 2 ≤ c.numDregs

/-- VLD1's conditions: no Undefined condition of 44 R115 holds. -/
def Vld1Defined (c : Config) (regs : Nat) (o : Vld1Operands) : Prop :=
  c.simdEnabled = true ∧
  (o.align = .unspecified ∨ o.align = .a64 ∨ (o.align = .a128 ∧ (regs = 2 ∨ regs = 4)) ∨ (o.align = .a256 ∧ regs = 4)) ∧
  o.d.val < c.numDregs

/-- The alignment in bytes that 20 R33 asks of the address. -/
def alignNeeded (c : Config) (o : Vld1Operands) : Nat :=
  match o.align with
  | .a64 => 8
  | .a128 => 16
  | .a256 => 32
  | .unspecified => if c.strictAlign then 2 ^ (sizeField o.size).toNat else 1

/-- What VLD1 leaves in its base register (41 R71, R72, R73): the sum is modulo 2^32. -/
def newBase (s : State) (regs : Nat) (rn : Fin 15) : AddrFormat → Word
  | .noWriteback => s.readR rn
  | .byTransferSize => s.readR rn + BitVec.ofNat 32 (8 * regs)
  | .byRegister rm => s.readR rn + s.readR rm

/-- A type that Table F1-12 lists under `.I<size>`, or that type itself (42 R85). -/
def IntegerType (t : DataType) : Prop :=
  t.letter = some .i ∨ t.letter = some .s ∨ t.letter = some .u

/-- The types that a mnemonic takes as `<dt>` (44 R112 to R115, 42 R81, R85): VADD integer types, VSUBW `S` and `U` up to 32 bits,
VMOVN integer types from 16 bits on, VLD1 every type there is. -/
def TakenType (m : Mnemonic) (t : DataType) : Prop :=
  match m with
  | .vadd => IntegerType t
  | .vsubw => (t.letter = some .s ∨ t.letter = some .u) ∧ t.size.bits ≤ 32
  | .vmovn => IntegerType t ∧ 16 ≤ t.size.bits
  | .vld1 => (t.letter = some .p → t.size.bits ≤ 16) ∧ (t.letter = some .f → 16 ≤ t.size.bits)

/-- The types that may stand before `<dt>` (42 R82 to R84, R88): for two source operands up to two, of the size of the result and
the first operand; for one source operand one, of the size of the result; none for a load. -/
def EarlierTypes (m : Mnemonic) (dt : DataType) (early : List DataType) : Prop :=
  match m with
  | .vadd => early.length ≤ 2 ∧ ∀ t ∈ early, IntegerType t ∧ t.size.bits = dt.size.bits
  | .vsubw => early.length ≤ 2 ∧ ∀ t ∈ early, IntegerType t ∧ t.size.bits = 2 * dt.size.bits
  | .vmovn => early.length ≤ 1 ∧ ∀ t ∈ early, IntegerType t ∧ 2 * t.size.bits = dt.size.bits
  | .vld1 => early = []

/-- The line with the list of the given members, in braces, and the given address as its operands. -/
def withList (l : AsmLine) (items : List ListItem) (addr : AddressText) : AsmLine :=
  { l with operands := .load ⟨true, items⟩ addr }

/-- The instruction reads `R<r>`: the base of a load, and its index in format 3 (41 R71 to R74, 44 R115). -/
def ReadsGpr (i : Instr) (r : Fin 15) : Prop :=
  ∃ regs o, vld1Parts? i = some (regs, o) ∧ (o.rn.val = r.val ∨ o.format = .byRegister r)

/-- The instruction reads `D<d>`: a register of a source operand of VADD, VSUBW or VMOVN; no load reads one (44 R112 to
R115). -/
def ReadsDoubleword (i : Instr) (d : DNum) : Prop :=
  (∃ o, vaddParts? i = some o ∧ ∃ k, k < (if o.quad then 2 else 1) ∧ (d.val = o.n.val + k ∨ d.val = o.m.val + k)) ∨
  (∃ o, vsubwParts? i = some o ∧ (d.val = o.n.val ∨ d.val = o.n.val + 1 ∨ d.val = o.m.val)) ∨
  (∃ o, vmovnParts? i = some o ∧ (d.val = o.m.val ∨ d.val = o.m.val + 1))

/-- The instruction writes `D<d>`: a register of its destination operand or list (44 R112 to R115). -/
def WritesDoubleword (i : Instr) (d : DNum) : Prop :=
  (∃ o, vaddParts? i = some o ∧ ∃ k, k < (if o.quad then 2 else 1) ∧ d.val = o.d.val + k) ∨
  (∃ o, vsubwParts? i = some o ∧ (d.val = o.d.val ∨ d.val = o.d.val + 1)) ∨
  (∃ o, vmovnParts? i = some o ∧ d.val = o.d.val) ∨
  (∃ regs o, vld1Parts? i = some (regs, o) ∧ o.d.val ≤ d.val ∧ d.val < o.d.val + regs)

/-- `p` is a part of `D<d>`: either 32-bit half of D0 to D15, all of D16 to D31 (92 D9). -/
def PartOf (d : DNum) : RegPart → Prop
  | .gpr _ => False
  | .single j => d.val = j.val / 2
  | .upper k => d.val = k.val + 16

/-- The instruction reads the named register, and the register, or part of it, has no value (10 R24, 92 D9). -/
def ReadsUnvalued (l : Launched) (i : Instr) : RegName → Prop
  | .r r => ReadsGpr i r ∧ RegPart.gpr r ∉ l.valued
  | .d d => ReadsDoubleword i d ∧ ∃ p, PartOf d p ∧ p ∉ l.valued

/-- Nothing is recorded, the word at the pc decodes to `i`, and `i` has no Undefined or Unpredictable condition: all that comes
before the reading of registers (44 R111 steps 1 to 4, 60 R126). -/
def ReachesReads (l : Launched) (i : Instr) : Prop :=
  l.machine.faultRecord = none ∧ l.machine.refusalMark = none ∧ decodeFault? l.machine.config i = none ∧
  ∃ w, l.machine.fetch = .ok w ∧ decode l.machine.config.instrSet w = .ok i

/-- Two outcomes of the launch discipline that differ at most in what parts without a value hold. -/
def SameOutcome : Host.Outcome Launched Fault Refusal → Host.Outcome Launched Fault Refusal → Prop
  | .next a, .next b => sameButUnvalued a b
  | .fault f, .fault g => f = g
  | .refused q, .refused r => q = r
  | _, _ => False

end Sys2Proof.Machine

/-! ## Reset, the invariant, the step -/

/-- What reset leaves: the four parameters at the defaults of 92 ("Parameters left open") and INSTR_SET, which has no default,
at A32, all five the model's choice of what reset takes (log 1); no byte of memory, which 10 R24 calls unspecified and supplied
by the launch (log 4); no word of text, the model's choice (log 5); and the two records empty (10 R24, 70 R130). -/
def Obligations.ResetLeavesDefaultsAndEmptyRecords : Prop :=
  State.reset.config.bank = .thirtyTwo ∧ State.reset.config.bigEndian = false ∧ State.reset.config.strictAlign = false ∧
  State.reset.config.simdEnabled = true ∧ State.reset.config.instrSet = .a32 ∧
  State.reset.faultRecord = none ∧ State.reset.refusalMark = none ∧
  (∀ a, State.reset.mem.byte? a = none) ∧ State.reset.text.words = []

/-- The invariant of Safety.lean holds right after reset. -/
def Obligations.ResetSatisfiesInvariant : Prop :=
  State.reset.inv = true

/-- Every step from every state with the invariant keeps it: the text stays well formed, the pc stays a multiple of 4 and in
the program or right after it (10 R12, 70 R132), memory keeps its canonical form, absent registers stay zero. -/
def Obligations.StepKeepsInvariant : Prop :=
  ∀ s t : State, s.inv = true → step s = .next t → t.inv = true

/-- When no stop is recorded and the word of the text at the pc decodes to an instruction, the step is the instruction's
meaning at that state, with nothing added around it (44 R111, 70 R132). -/
def Obligations.StepRunsDecodedInstruction : Prop :=
  ∀ (s : State) (j : Nat) (w : Word) (i : Instr), s.faultRecord = none → s.refusalMark = none →
    4 * j < 2 ^ 32 → s.pc = s.text.base + BitVec.ofNat 32 (4 * j) → s.text.words[j]? = some w →
    decode s.config.instrSet w = .ok i → step s = exec i s

/-- A word that matches no row of the run's instruction set is refused, also when SIMD is disabled (60 R125, R126). -/
def Obligations.UnmatchedWordIsRefused : Prop :=
  ∀ (s : State) (w : Word), s.faultRecord = none → s.refusalMark = none → s.fetch = .ok w →
    (∀ r ∈ rowsOf s.config.instrSet, r.read w = none) →
    step s = .refused .noInstructionDescription ∧
    ∀ n, s.runFor (n + 1) = s.recordRefusal .noInstructionDescription

/-- At `B + 4k` with nothing recorded the run has ended: no instruction runs, nothing changes, and the state is final however
long one waits (70 R132). -/
def Obligations.RunEndsRightAfterTheProgram : Prop :=
  ∀ s : State, s.faultRecord = none → s.refusalMark = none → 4 * s.text.words.length < 2 ^ 32 →
    s.pc = s.text.base + BitVec.ofNat 32 (4 * s.text.words.length) →
    step s = .refused .programEnded ∧ s.isFinal = true ∧ ∀ n, s.runFor n = s

/-- A fault is recorded with no register, memory byte or pc changed, is never cleared, and no later step is taken (60 R120, 92
D11). -/
def Obligations.FaultIsRecordedAndEndsTheRun : Prop :=
  ∀ (s : State) (f : Fault), step s = .fault f →
    ∀ n, s.runFor (n + 1) = { s with faultRecord := some f } ∧ step (s.runFor (n + 1)) = .fault f

/-- A program of k words has ended after k steps: at its end, with a fault recorded, or with a refusal recorded (10 R12, 60
R120, R125, 70 R132). -/
def Obligations.EveryRunEndsWithinItsLength : Prop :=
  ∀ s : State, s.inv = true → s.running = true → s.pc = s.text.base →
    (s.runFor s.text.words.length).isFinal = true ∨
    (s.runFor s.text.words.length).faultRecord.isSome = true ∨
    (s.runFor s.text.words.length).refusalMark.isSome = true

/-- The host's word runs: with a word of either table half stored by `withFetchWord`, the next step is the meaning of the
instruction it decodes to, and the registers, memory and pc are those it was stored into (log 5, log 8: the model's choice of
how a word is launched). -/
def Obligations.StoredTableWordRuns : Prop :=
  ∀ (s : State) (nbits w : Nat) (iset : InstrSet) (i : Instr), decode iset (tableWord nbits w) = .ok i →
    step (s.withFetchWord nbits w) = exec i (s.withFetchWord nbits w) ∧
    (s.withFetchWord nbits w).regs = s.regs ∧ (s.withFetchWord nbits w).dregs = s.dregs ∧
    (s.withFetchWord nbits w).pc = s.pc ∧ (s.withFetchWord nbits w).mem = s.mem

/-! ## Encoding -/

/-- Decoding the word of a well-formed instruction gives the instruction back, with every operand. -/
def Obligations.DecodeInvertsEncode : Prop :=
  ∀ i : Instr, i.wellFormed = true → decode i.instrSet (encode i) = .ok i

/-- A word that decodes is the word of its instruction, which is well formed and of the decoder's instruction set: no bit of a
word is dropped. -/
def Obligations.EncodeInvertsDecode : Prop :=
  ∀ (iset : InstrSet) (w : Word) (i : Instr), decode iset w = .ok i →
    encode i = w ∧ i.instrSet = iset ∧ i.wellFormed = true

/-- Decoding four bytes laid out as 20 R32 says gives the instruction back, and the bytes after it. -/
def Obligations.DecodeBytesInvertsEncodeBytes : Prop :=
  ∀ (i : Instr) (rest : List Byte), i.wellFormed = true →
    decodeBytes i.instrSet (encodeBytes i ++ rest) = .ok (i, rest)

/-- No word is an instruction of both sets, and in T32 every word that is one starts with a halfword of a 32-bit instruction (30
R40, R54). -/
def Obligations.NoWordBelongsToBothSets : Prop :=
  (∀ (w : Word) (i j : Instr), decode .a32 w = .ok i → decode .t32 w ≠ .ok j) ∧
  (∀ (w : Word) (i : Instr), decode .t32 w = .ok i → startsWideT32 (w.extractLsb' 16 16) = true)

/-- The T32 word of an instruction is its A32 word with the top byte exchanged (44 R111): `1111 001U` for `111U 1111`, `1111
0100` for `1111 1001`. -/
def Obligations.SetsDifferInTheTopByteOnly : Prop :=
  (∀ o, encode (.vaddA32 o) = 0xF2#8 ++ (encode (.vaddT32 o)).extractLsb' 0 24 ∧
    (encode (.vaddT32 o)).extractLsb' 24 8 = 0xEF#8) ∧
  (∀ o, encode (.vsubwA32 o) = (0b1111001#7 ++ BitVec.ofBool o.isUnsigned) ++ (encode (.vsubwT32 o)).extractLsb' 0 24 ∧
    (encode (.vsubwT32 o)).extractLsb' 24 8 = 0b111#3 ++ BitVec.ofBool o.isUnsigned ++ 0b1111#4) ∧
  (∀ o, encode (.vmovnA32 o) = 0xF3#8 ++ (encode (.vmovnT32 o)).extractLsb' 0 24 ∧
    (encode (.vmovnT32 o)).extractLsb' 24 8 = 0xFF#8) ∧
  (∀ o, (encode (.vld1OneA32 o) = 0xF4#8 ++ (encode (.vld1OneT32 o)).extractLsb' 0 24 ∧
      (encode (.vld1OneT32 o)).extractLsb' 24 8 = 0xF9#8) ∧
    (encode (.vld1TwoA32 o) = 0xF4#8 ++ (encode (.vld1TwoT32 o)).extractLsb' 0 24 ∧
      (encode (.vld1TwoT32 o)).extractLsb' 24 8 = 0xF9#8) ∧
    (encode (.vld1ThreeA32 o) = 0xF4#8 ++ (encode (.vld1ThreeT32 o)).extractLsb' 0 24 ∧
      (encode (.vld1ThreeT32 o)).extractLsb' 24 8 = 0xF9#8) ∧
    (encode (.vld1FourA32 o) = 0xF4#8 ++ (encode (.vld1FourT32 o)).extractLsb' 0 24 ∧
      (encode (.vld1FourT32 o)).extractLsb' 24 8 = 0xF9#8))

/-- The words of the spec's example lines decode to the instructions the lines name (44 R116), in both sets. -/
def Obligations.ExampleWordsDecode : Prop :=
  decode .a32 0xF2220844#32 = .ok (.vaddA32 ⟨.e32, true, 0, 2, 4⟩) ∧
  decode .t32 0xEF220844#32 = .ok (.vaddT32 ⟨.e32, true, 0, 2, 4⟩) ∧
  decode .a32 0xF28A6300#32 = .ok (.vsubwA32 ⟨false, .e8, 6, 10, 0⟩) ∧
  decode .t32 0xEF8A6300#32 = .ok (.vsubwT32 ⟨false, .e8, 6, 10, 0⟩) ∧
  decode .a32 0xF3B60202#32 = .ok (.vmovnA32 ⟨.e16, 0, 2⟩) ∧
  decode .t32 0xFFB60202#32 = .ok (.vmovnT32 ⟨.e16, 0, 2⟩) ∧
  decode .a32 0xF420070F#32 = .ok (.vld1OneA32 ⟨.e8, 0, 0, .unspecified, .noWriteback⟩) ∧
  decode .t32 0xF920070F#32 = .ok (.vld1OneT32 ⟨.e8, 0, 0, .unspecified, .noWriteback⟩)

/-- Doubleword register numbers (30 R45): the one-bit field is the most significant bit, in both directions, and the numbers
stand at bits 22 and 15 to 12, bits 7 and 19 to 16, bits 5 and 3 to 0 of every word that has the operand. -/
def Obligations.DoublewordNumberFields : Prop :=
  (∀ (x : BitVec 1) (v : BitVec 4), (dNumber x v).val = 16 * x.toNat + v.toNat) ∧
  (∀ i : DNum, (dHighBit i).toNat = i.val / 16 ∧ (dLowBits i).toNat = i.val % 16 ∧
    dNumber (dHighBit i) (dLowBits i) = i) ∧
  (∀ (iset : InstrSet) (w : Word) (i : Instr), decode iset w = .ok i →
    (∀ o, vaddParts? i = some o → o.d = dNumber (w.extractLsb' 22 1) (w.extractLsb' 12 4) ∧
      o.n = dNumber (w.extractLsb' 7 1) (w.extractLsb' 16 4) ∧ o.m = dNumber (w.extractLsb' 5 1) (w.extractLsb' 0 4)) ∧
    (∀ o, vsubwParts? i = some o → o.d = dNumber (w.extractLsb' 22 1) (w.extractLsb' 12 4) ∧
      o.n = dNumber (w.extractLsb' 7 1) (w.extractLsb' 16 4) ∧ o.m = dNumber (w.extractLsb' 5 1) (w.extractLsb' 0 4)) ∧
    (∀ o, vmovnParts? i = some o → o.d = dNumber (w.extractLsb' 22 1) (w.extractLsb' 12 4) ∧
      o.m = dNumber (w.extractLsb' 5 1) (w.extractLsb' 0 4)) ∧
    (∀ regs o, vld1Parts? i = some (regs, o) → o.d = dNumber (w.extractLsb' 22 1) (w.extractLsb' 12 4)))

/-- Quadword register numbers (30 R46): a field pair with its low bit 0 holds twice the number, one with its low bit 1 names
no quadword register. -/
def Obligations.QuadwordNumberFields : Prop :=
  (∀ (x : BitVec 1) (v : BitVec 4), qNumber? x v =
    if h : v.toNat % 2 = 0 then some ⟨(dNumber x v).val / 2, by omega⟩ else none) ∧
  (∀ k : Fin 16, (qHighBit k).toNat = k.val / 8 ∧ (qLowBits k).toNat = 2 * (k.val % 8) ∧
    qNumber? (qHighBit k) (qLowBits k) = some k ∧ (dNumber (qHighBit k) (qLowBits k)).val = 2 * k.val)

/-- The Q bit (30 R43): bit 6 is 1 for quadword and 0 for doubleword operations. VADD alone of the described instructions has
it; in VSUBW and VMOVN bit 6 is a fixed opcode bit, which is 0. -/
def Obligations.QBitSelectsTheWidth : Prop :=
  (∀ w : Word, (widthOfQ w = .quad ↔ w.getLsbD 6 = true) ∧ (widthOfQ w = .double ↔ w.getLsbD 6 = false)) ∧
  (∀ (iset : InstrSet) (w : Word) (i : Instr), decode iset w = .ok i →
    (∀ o, vaddParts? i = some o → o.quad = w.getLsbD 6) ∧
    (∀ o, vsubwParts? i = some o → w.getLsbD 6 = false) ∧
    (∀ o, vmovnParts? i = some o → w.getLsbD 6 = false))

/-- Single-precision register numbers (30 R47): the one-bit field is the least significant bit, the four-bit field alone is
the doubleword register that contains the register, and in a word whose sz bit is 0 the numbers stand at bits 15 to 12 and
22, bits 19 to 16 and 7, bits 3 to 0 and 5. In a word whose sz bit is 1 the operands are the doubleword registers that 30 R45
numbers with the same fields (30 R44). -/
def Obligations.SingleNumberFields : Prop :=
  (∀ (x : BitVec 1) (v : BitVec 4), (sNumber v x).val = 2 * v.toNat + x.toNat ∧ (sHome (sNumber v x)).val = v.toNat) ∧
  (∀ j : Fin 32, (sHighBits j).toNat = j.val / 2 ∧ (sLowBit j).toNat = j.val % 2 ∧
    sNumber (sHighBits j) (sLowBit j) = j) ∧
  (∀ w : Word, w.extractLsb' 8 1 = 0#1 →
    fpDest w = .single (sNumber (w.extractLsb' 12 4) (w.extractLsb' 22 1)) ∧
    fpFirst w = .single (sNumber (w.extractLsb' 16 4) (w.extractLsb' 7 1)) ∧
    fpSecond w = .single (sNumber (w.extractLsb' 0 4) (w.extractLsb' 5 1))) ∧
  (∀ w : Word, w.extractLsb' 8 1 = 1#1 →
    fpDest w = .double (dNumber (w.extractLsb' 22 1) (w.extractLsb' 12 4)) ∧
    fpFirst w = .double (dNumber (w.extractLsb' 7 1) (w.extractLsb' 16 4)) ∧
    fpSecond w = .double (dNumber (w.extractLsb' 5 1) (w.extractLsb' 0 4)))

/-- The other fields of a word that decodes (44 R112 to R115, 30 R51): the element size, VSUBW's U, and of a VLD1 the number of
registers its type field selects, Rn at bits 19 to 16, the alignment at 5 to 4, and the format that Rm at bits 3 to 0 selects:
0b1111 format 1, 0b1101 format 2, any other value format 3 with that register (41 R71 to R74). -/
def Obligations.OtherFieldsStandWhereTheEncodingPutsThem : Prop :=
  ∀ (iset : InstrSet) (w : Word) (i : Instr), decode iset w = .ok i →
    (∀ o, vaddParts? i = some o → o.size.bits = 8 * 2 ^ (w.extractLsb' 20 2).toNat ∧ o.quad = w.getLsbD 6) ∧
    (∀ o, vsubwParts? i = some o → o.size.bits = 8 * 2 ^ (w.extractLsb' 20 2).toNat ∧
      (iset = .a32 → o.isUnsigned = w.getLsbD 24) ∧ (iset = .t32 → o.isUnsigned = w.getLsbD 28)) ∧
    (∀ o, vmovnParts? i = some o → o.size.bits = 8 * 2 ^ (w.extractLsb' 18 2).toNat) ∧
    (∀ regs o, vld1Parts? i = some (regs, o) →
      ((regs = 1 ↔ w.extractLsb' 8 4 = 0b0111#4) ∧ (regs = 2 ↔ w.extractLsb' 8 4 = 0b1010#4) ∧
        (regs = 3 ↔ w.extractLsb' 8 4 = 0b0110#4) ∧ (regs = 4 ↔ w.extractLsb' 8 4 = 0b0010#4)) ∧
      o.rn.val = (w.extractLsb' 16 4).toNat ∧ o.size.bits = 8 * 2 ^ (w.extractLsb' 6 2).toNat ∧
      ((o.align = .unspecified ↔ w.extractLsb' 4 2 = 0b00#2) ∧ (o.align = .a64 ↔ w.extractLsb' 4 2 = 0b01#2) ∧
        (o.align = .a128 ↔ w.extractLsb' 4 2 = 0b10#2) ∧ (o.align = .a256 ↔ w.extractLsb' 4 2 = 0b11#2)) ∧
      (o.format = .noWriteback ↔ w.extractLsb' 0 4 = 0b1111#4) ∧
      (o.format = .byTransferSize ↔ w.extractLsb' 0 4 = 0b1101#4) ∧
      ∀ rm : Fin 15, o.format = .byRegister rm ↔ rm ≠ 13 ∧ rm.val = (w.extractLsb' 0 4).toNat)

/-- Scalars of multiply instructions (30 R50, Table F1-16): register and index from M and Vm, back again, none outside D0 to
D7 or D0 to D15 or past the register's elements; the operand is that element of that register, and the 32-bit one is the
single-precision register of the same five bits. -/
def Obligations.MultiplyScalarFields : Prop :=
  (∀ (m : BitVec 1) (vm : BitVec 4),
    ((decodeScalar .s16 m vm).reg.val = vm.toNat % 8 ∧ (decodeScalar .s16 m vm).index = 2 * m.toNat + vm.toNat / 8 ∧
      encodeScalar? .s16 (decodeScalar .s16 m vm) = some (m, vm)) ∧
    ((decodeScalar .s32 m vm).reg.val = vm.toNat ∧ (decodeScalar .s32 m vm).index = m.toNat ∧
      encodeScalar? .s32 (decodeScalar .s32 m vm) = some (m, vm) ∧
      sOfScalar? (decodeScalar .s32 m vm) = some (sNumber vm m))) ∧
  (∀ x : Scalar, 7 < x.reg.val ∨ 3 < x.index → encodeScalar? .s16 x = none) ∧
  (∀ x : Scalar, 15 < x.reg.val ∨ 1 < x.index → encodeScalar? .s32 x = none) ∧
  (∀ (s : State) (m : BitVec 1) (vm : BitVec 4),
    s.readScalar (decodeScalar .s16 m vm) 16 =
      elem (s.readD ⟨vm.toNat % 8, by omega⟩) (2 * m.toNat + vm.toNat / 8) 16 ∧
    s.readScalar (decodeScalar .s32 m vm) 32 = s.readS (sNumber vm m))

/-! ## Register views -/

/-- A quadword register is a pair of doubleword registers (10 R15, R16): the lower-numbered one is its bits 63 to 0, a write to
the pair writes both and nothing else, a write to a half changes that half; with 16 doubleword registers only Q0 to Q7
exist. -/
def Obligations.QuadwordIsPairOfDoublewords : Prop :=
  ∀ (s : State) (k : Fin 16), (qFirst k).val = 2 * k.val ∧ (qSecond k).val = 2 * k.val + 1 ∧
    s.readQ k = s.readD (qSecond k) ++ s.readD (qFirst k) ∧
    (∀ v : QWord, (s.writeQ k v).readQ k = v ∧ (s.writeQ k v).readD (qFirst k) = v.extractLsb' 0 64 ∧
      (s.writeQ k v).readD (qSecond k) = v.extractLsb' 64 64 ∧
      ∀ i, i ≠ qFirst k → i ≠ qSecond k → (s.writeQ k v).readD i = s.readD i) ∧
    (∀ v : DWord, (s.writeD (qFirst k) v).readQ k = s.readD (qSecond k) ++ v ∧
      (s.writeD (qSecond k) v).readQ k = v ++ s.readD (qFirst k)) ∧
    (s.config.bank = .sixteen → (inBank s.config (qFirst k) 2 = true ↔ k.val < 8))

/-- Single-precision registers overlay D0 to D15 (10 R17): `S<2m>` is the low and `S<2m+1>` the high word of `D<m>`, a write
changes that word alone, `S<4k>` to `S<4k+3>` are `Q<k>`, and D16 to D31 have no such view. -/
def Obligations.SinglesOverlayTheLowDoublewords : Prop :=
  ∀ s : State,
    (∀ m : Fin 16, s.readS ⟨2 * m.val + 1, by omega⟩ ++ s.readS ⟨2 * m.val, by omega⟩ = s.readD ⟨m.val, by omega⟩) ∧
    (∀ k : Fin 8, ((s.readS ⟨4 * k.val + 3, by omega⟩ ++ s.readS ⟨4 * k.val + 2, by omega⟩) ++
      (s.readS ⟨4 * k.val + 1, by omega⟩ ++ s.readS ⟨4 * k.val, by omega⟩) : QWord) = s.readQ ⟨k.val, by omega⟩) ∧
    (∀ (j : Fin 32) (v : Word), (s.writeS j v).readS j = v ∧ (∀ j', j' ≠ j → (s.writeS j v).readS j' = s.readS j') ∧
      ∀ i : DNum, i.val ≠ j.val / 2 → (s.writeS j v).readD i = s.readD i)

/-- "Dm[x] in a 32-bit context (0 <= m <= 15, 0 <= x <=1) is equivalent to S[2m + x]" (43 R104): either name reads what was
written through the other, and no register above D15 has such a name. -/
def Obligations.WordScalarIsSingleRegister : Prop :=
  (∀ (s : State) (m : DNum) (x : Nat), m.val ≤ 15 → x ≤ 1 → ∃ j : Fin 32, j.val = 2 * m.val + x ∧
    sOfScalar? ⟨m, x⟩ = some j ∧ s.readScalar ⟨m, x⟩ 32 = s.readS j ∧
    ∀ v : Word, (s.writeS j v).readScalar ⟨m, x⟩ 32 = v ∧ (s.writeScalar ⟨m, x⟩ v).readS j = v) ∧
  (∀ (m : DNum) (x : Nat), 16 ≤ m.val → sOfScalar? ⟨m, x⟩ = none)

/-! ## VADD, VSUBW, VMOVN -/

/-- VADD completes when no Undefined condition holds: every element of every destination register is the sum modulo 2^esize of
the elements the sources held before, the pc moves by 4, and nothing else changes (44 R112; D and Q form, both sets). -/
def Obligations.VaddAddsElements : Prop :=
  ∀ (i : Instr) (o : VaddOperands) (s : State), vaddParts? i = some o → VaddDefined s.config o →
    ∃ t, exec i s = .next t ∧ t.pc = s.pc + 4 ∧
      (∀ r e, r < (if o.quad then 2 else 1) → e < 64 / o.size.bits →
        elem (t.readD (dPlus o.d r)) e o.size.bits =
          BitVec.ofNat o.size.bits ((elem (s.readD (dPlus o.n r)) e o.size.bits).toNat +
            (elem (s.readD (dPlus o.m r)) e o.size.bits).toNat)) ∧
      OnlyDoublewords (fun j => o.d.val ≤ j.val ∧ j.val < o.d.val + (if o.quad then 2 else 1)) s t

/-- VADD is Undefined in every other case (44 R112, 60 R121). -/
def Obligations.VaddOtherwiseUndefined : Prop :=
  ∀ (i : Instr) (o : VaddOperands) (s : State), vaddParts? i = some o → ¬ VaddDefined s.config o →
    exec i s = .fault .undefined

/-- VSUBW completes when no Undefined condition holds: every double-width element of Qd is the element of Qn minus the element
of Dm, taken as unsigned for the U types and as signed for the S types, modulo 2^(2*esize), all read before; nothing else
changes (44 R113, both sets). -/
def Obligations.VsubwSubtractsWidenedElements : Prop :=
  ∀ (i : Instr) (o : VsubwOperands) (s : State), vsubwParts? i = some o → VsubwDefined s.config o →
    ∃ t, exec i s = .next t ∧ t.pc = s.pc + 4 ∧
      (∀ e, e < 64 / o.size.bits →
        elem (t.readQ (qOf o.d)) e (2 * o.size.bits) =
          BitVec.ofInt (2 * o.size.bits) ((elem (s.readQ (qOf o.n)) e (2 * o.size.bits)).toInt -
            (if o.isUnsigned then ((elem (s.readD o.m) e o.size.bits).toNat : Int)
              else (elem (s.readD o.m) e o.size.bits).toInt))) ∧
      OnlyDoublewords (fun j => j.val = o.d.val ∨ j.val = o.d.val + 1) s t

/-- VSUBW is Undefined in every other case (44 R113, 60 R121). -/
def Obligations.VsubwOtherwiseUndefined : Prop :=
  ∀ (i : Instr) (o : VsubwOperands) (s : State), vsubwParts? i = some o → ¬ VsubwDefined s.config o →
    exec i s = .fault .undefined

/-- VMOVN completes when no Undefined condition holds: every element of Dd is the least significant half of the element of Qm,
read before; nothing else changes, the other half of an overlapping Qm included (44 R114, both sets). -/
def Obligations.VmovnKeepsLowHalves : Prop :=
  ∀ (i : Instr) (o : VmovnOperands) (s : State), vmovnParts? i = some o → VmovnDefined s.config o →
    ∃ t, exec i s = .next t ∧ t.pc = s.pc + 4 ∧
      (∀ e, e < 64 / o.size.bits →
        elem (t.readD o.d) e o.size.bits =
          BitVec.ofNat o.size.bits (elem (s.readQ (qOf o.m)) e (2 * o.size.bits)).toNat) ∧
      OnlyDoublewords (fun j => j = o.d) s t

/-- VMOVN is Undefined in every other case (44 R114, 60 R121). -/
def Obligations.VmovnOtherwiseUndefined : Prop :=
  ∀ (i : Instr) (o : VmovnOperands) (s : State), vmovnParts? i = some o → ¬ VmovnDefined s.config o →
    exec i s = .fault .undefined

/-! ## VLD1 -/

/-- VLD1 of one to four registers completes when nothing is Undefined or Unpredictable, the address is aligned as needed and
every byte of the block is present below the top of the address space: byte j of element e of register r is the byte of memory
that the byte order puts there, the base register is as its format says, and nothing else changes; it stores nothing (44 R115,
41 R71 to R74, 20 R31, R32; all eight rows). -/
def Obligations.Vld1LoadsRegisters : Prop :=
  ∀ (i : Instr) (regs : Nat) (o : Vld1Operands) (rn : Fin 15) (s : State), vld1Parts? i = some (regs, o) →
    Vld1Defined s.config regs o → o.rn.val = rn.val → o.d.val + regs ≤ s.config.numDregs →
    (s.readR rn).toNat % alignNeeded s.config o = 0 → (s.readR rn).toNat + 8 * regs ≤ 2 ^ 32 →
    (∀ k, k < 8 * regs → (s.mem.byte? ((s.readR rn).toNat + k)).isSome = true) →
    ∃ t, exec i s = .next t ∧ t.pc = s.pc + 4 ∧
      (∀ r e j, r < regs → e < 8 / o.size.bytes → j < o.size.bytes →
        some (elem (t.readD (dPlus o.d r)) (e * o.size.bytes + j) 8) =
          s.mem.byte? ((s.readR rn).toNat + 8 * r + e * o.size.bytes +
            (if s.config.bigEndian then o.size.bytes - 1 - j else j))) ∧
      t.readR rn = newBase s regs rn o.format ∧
      (∀ q, q ≠ rn → t.readR q = s.readR q) ∧
      (∀ d : DNum, d.val < o.d.val ∨ o.d.val + regs ≤ d.val → t.readD d = s.readD d) ∧
      (∀ a, t.mem.byte? a = s.mem.byte? a) ∧ t.mem = s.mem ∧
      t.config = s.config ∧ t.text = s.text ∧ t.faultRecord = s.faultRecord ∧ t.refusalMark = s.refusalMark

/-- Every Undefined condition of VLD1 comes before anything else (44 R115, 60 R126). -/
def Obligations.Vld1UndefinedComesFirst : Prop :=
  ∀ (i : Instr) (regs : Nat) (o : Vld1Operands) (s : State), vld1Parts? i = some (regs, o) →
    ¬ Vld1Defined s.config regs o → exec i s = .fault .undefined

/-- With nothing Undefined, the pc as base is Unpredictable, and with another base so is a list that runs past the last
register, whatever the address (41 R75, 43 R97, 60 R122, R126). -/
def Obligations.Vld1UnpredictableEncodings : Prop :=
  ∀ (i : Instr) (regs : Nat) (o : Vld1Operands) (s : State), vld1Parts? i = some (regs, o) → Vld1Defined s.config regs o →
    (o.rn = 15 → exec i s = .fault (.unpredictable .baseIsPc)) ∧
    (o.rn ≠ 15 → s.config.numDregs < o.d.val + regs → exec i s = .fault (.unpredictable .listWraps))

/-- With a defined and predictable encoding, an address that is not aligned as the instruction or STRICT_ALIGN asks is an
Alignment fault that carries the address, also when the block is absent or would wrap (20 R33, 60 R123, R126). -/
def Obligations.Vld1MisalignedAddressFaults : Prop :=
  ∀ (i : Instr) (regs : Nat) (o : Vld1Operands) (rn : Fin 15) (s : State), vld1Parts? i = some (regs, o) →
    Vld1Defined s.config regs o → o.rn.val = rn.val → o.d.val + regs ≤ s.config.numDregs →
    (s.readR rn).toNat % alignNeeded s.config o ≠ 0 →
    exec i s = .fault (.alignment (s.readR rn))

/-- With an aligned address, a block past the top of the address space is MemFault at its first address, and one below it with
an absent byte is MemFault at the lowest absent address (20 R31, R35, 60 R124). -/
def Obligations.Vld1AbsentBlockFaults : Prop :=
  ∀ (i : Instr) (regs : Nat) (o : Vld1Operands) (rn : Fin 15) (s : State), vld1Parts? i = some (regs, o) →
    Vld1Defined s.config regs o → o.rn.val = rn.val → o.d.val + regs ≤ s.config.numDregs →
    (s.readR rn).toNat % alignNeeded s.config o = 0 →
    (2 ^ 32 < (s.readR rn).toNat + 8 * regs → exec i s = .fault (.memFault (s.readR rn))) ∧
    (∀ k, (s.readR rn).toNat + 8 * regs ≤ 2 ^ 32 → k < 8 * regs → s.mem.byte? ((s.readR rn).toNat + k) = none →
      (∀ j, j < k → (s.mem.byte? ((s.readR rn).toNat + j)).isSome = true) →
      exec i s = .fault (.memFault (s.readR rn + BitVec.ofNat 32 k)))

/-- With little-endian data and no strict alignment the element size of a VLD1 makes no difference (44 R115, corner cases). -/
def Obligations.Vld1SizeMattersOnlyBigEndian : Prop :=
  ∀ (i i' : Instr) (regs : Nat) (o : Vld1Operands) (k : ElemSize) (s : State), vld1Parts? i = some (regs, o) →
    vld1Parts? i' = some (regs, { o with size := k }) → s.config.bigEndian = false → s.config.strictAlign = false →
    exec i s = exec i' s

/-! ## All instructions -/

/-- When SIMD_ENABLED is false every instruction is Undefined (10 R22, 60 R121). -/
def Obligations.DisabledSimdIsUndefined : Prop :=
  ∀ (i : Instr) (s : State), s.config.simdEnabled = false → exec i s = .fault .undefined

/-- No instruction is refused once decoded, and a fault it ends in is one of the closed list of 60 R120 other than
UnwrittenRead. That exec raises no UnwrittenRead is the model's choice (log 2): every register of a State holds a value, and the
launch discipline raises it. -/
def Obligations.DecodedInstructionsAreNeverRefused : Prop :=
  ∀ (i : Instr) (s : State), (∃ t, exec i s = .next t) ∨ ∃ f, exec i s = .fault f ∧
    (f = .undefined ∨ (∃ regs o, vld1Parts? i = some (regs, o) ∧
      (f = .unpredictable .baseIsPc ∨ f = .unpredictable .listWraps ∨ (∃ a, f = .alignment a) ∨ ∃ a, f = .memFault a)))

/-- Whatever instruction completes, the pc moves by 4, and memory, program text, configuration and records are as before: no
admitted instruction stores, branches or writes a flag (10 R12, R21, 20 R36, R37, 44 R111). -/
def Obligations.InstructionsOnlyWriteRegisters : Prop :=
  ∀ (i : Instr) (s t : State), exec i s = .next t →
    t.pc = s.pc + 4 ∧ (∀ a, t.mem.byte? a = s.mem.byte? a) ∧ t.mem = s.mem ∧ t.text = s.text ∧ t.config = s.config ∧
    t.faultRecord = s.faultRecord ∧ t.refusalMark = s.refusalMark

/-- The only general-purpose register an instruction ever changes is the base of a load in format 2 or 3 (41 R71, R72, R73). -/
def Obligations.OnlyLoadsChangeTheirBase : Prop :=
  ∀ (i : Instr) (s t : State) (r : Fin 15), exec i s = .next t → t.readR r ≠ s.readR r →
    ∃ regs o, vld1Parts? i = some (regs, o) ∧ o.rn.val = r.val ∧ o.format ≠ .noWriteback

/-- With 16 doubleword registers no instruction changes, or depends on, the cells of the other sixteen (10 R14): from two states
that differ in those cells alone, an instruction ends in the same way. -/
def Obligations.SmallBankNeverReachesUpperCells : Prop :=
  ∀ (i : Instr) (s u : State), s.config.bank = .sixteen → s = { u with dregs := s.dregs } →
    (∀ d : DNum, d.val < 16 → s.readD d = u.readD d) →
    (∀ f, exec i s = .fault f ↔ exec i u = .fault f) ∧
    (∀ t, exec i s = .next t → ∃ v, exec i u = .next v ∧ t = { v with dregs := t.dregs } ∧
      (∀ d : DNum, d.val < 16 → t.readD d = v.readD d) ∧ ∀ d : DNum, 16 ≤ d.val → t.readD d = s.readD d)

/-! ## Memory -/

/-- MemRead (20 R32): it answers exactly when the block fits and every byte is present, and bits 8i+7 to 8i of its value are
the byte at `addr + i`, with BIG_ENDIAN the byte at `addr + n-1-i`. -/
def Obligations.MemReadFollowsTheByteOrder : Prop :=
  ∀ (s : State) (addr : Word) (n : Nat),
    ((∃ v, s.memRead addr n = .ok v) ↔
      addr.toNat + n ≤ 2 ^ 32 ∧ ∀ k, k < n → (s.mem.byte? (addr.toNat + k)).isSome = true) ∧
    (∀ v, s.memRead addr n = .ok v → ∀ k, k < n →
      some (elem v k 8) = s.mem.byte? (addr.toNat + (if s.config.bigEndian then n - 1 - k else k)))

/-- MemWrite is MemRead's reverse (20 R32): it succeeds exactly when the block fits and every byte is present, and is MemFault
otherwise, at the block's first address when it would wrap and at the lowest absent address when it does not (60 R124; log 4);
what was written is read back, every byte outside the block is as before, and so is everything but memory, the program text
among it (20 R37). -/
def Obligations.MemWriteIsReadBack : Prop :=
  ∀ (s : State) (addr : Word) (n : Nat) (v : BitVec (8 * n)),
    ((∃ t, s.memWrite addr n v = .ok t) ↔
      addr.toNat + n ≤ 2 ^ 32 ∧ ∀ k, k < n → (s.mem.byte? (addr.toNat + k)).isSome = true) ∧
    (2 ^ 32 < addr.toNat + n → s.memWrite addr n v = .error (.memFault addr)) ∧
    (∀ k, addr.toNat + n ≤ 2 ^ 32 → k < n → s.mem.byte? (addr.toNat + k) = none →
      (∀ j, j < k → (s.mem.byte? (addr.toNat + j)).isSome = true) →
      s.memWrite addr n v = .error (.memFault (addr + BitVec.ofNat 32 k))) ∧
    ∀ t, s.memWrite addr n v = .ok t →
      t.memRead addr n = .ok v ∧
      (∀ a, a < addr.toNat ∨ addr.toNat + n ≤ a → t.mem.byte? a = s.mem.byte? a) ∧
      t = { s with mem := t.mem }

/-! ## The launch discipline -/

/-- An instruction that reads a register with no value stops with UnwrittenRead of the first one: general-purpose before
vector, lowest number first, after Undefined and Unpredictable, before Alignment and MemFault (60 R124, R126; 92 D9, D19). -/
def Obligations.UnwrittenReadNamesTheFirstRegister : Prop :=
  ∀ (i : Instr) (l : Launched), decodeFault? l.machine.config i = none →
    (∀ r, r ∈ (footprint i).readsR → l.hasR r = false → (∀ q, q < r → q ∈ (footprint i).readsR → l.hasR q = true) →
      launchExec i l = .fault (.unwrittenRead (.r r))) ∧
    ((∀ r, r ∈ (footprint i).readsR → l.hasR r = true) →
      ∀ d, d ∈ (footprint i).readsD → l.hasD d = false → (∀ e, e < d → e ∈ (footprint i).readsD → l.hasD e = true) →
      launchExec i l = .fault (.unwrittenRead (.d d)))

/-- What an instruction with no Undefined or Unpredictable condition reads and writes, in terms of its operands (44 R111 step 5,
R112 to R115): a load's base and index, the source registers of the others, and no destination register. -/
def Obligations.FootprintsAreTheOperands : Prop :=
  ∀ (c : Config) (i : Instr), decodeFault? c i = none →
    (∀ r, r ∈ (footprint i).readsR ↔ ReadsGpr i r) ∧
    (∀ d, d ∈ (footprint i).readsD ↔ ReadsDoubleword i d) ∧
    (∀ d, d ∈ (footprint i).writesD ↔ WritesDoubleword i d)

/-- The launch discipline adds UnwrittenRead and nothing else. Where the instruction at the pc reads a register that has no
value, and nothing comes before the reading, the step is UnwrittenRead of such a register (10 R24, 60 R124, R126). Everywhere
else it ends as the machine's step does, and a next state has the machine's next state and a value in the parts that had one
and in those of the registers the instruction writes (92 D9). That UnwrittenRead is outside the machine's step is the model's
choice (log 2). -/
def Obligations.LaunchStepFollowsTheStep : Prop :=
  ∀ l : Launched,
    (∀ i, ReachesReads l i → (∃ r, ReadsUnvalued l i r) →
      ∃ r, ReadsUnvalued l i r ∧ launchStep l = .fault (.unwrittenRead r)) ∧
    ((∀ i, ReachesReads l i → ∀ r, ¬ ReadsUnvalued l i r) →
      (∀ f, step l.machine = .fault f → launchStep l = .fault f) ∧
      (∀ r, step l.machine = .refused r → launchStep l = .refused r) ∧
      (∀ t, step l.machine = .next t → ∃ i l', ReachesReads l i ∧ launchStep l = .next l' ∧ l'.machine = t ∧
        ∀ p, p ∈ l'.valued ↔ p ∈ l.valued ∨ ∃ d, WritesDoubleword i d ∧ PartOf d p))

/-- A fault of a launched run, UnwrittenRead like the others, and a refusal is recorded with nothing else changed, is never
cleared, and no later step is taken (60 R120, R125, 92 D11); the end of the program records nothing (70 R132, log 5). -/
def Obligations.LaunchStopIsRecordedAndEndsTheRun : Prop :=
  (∀ (l : Launched) (f : Fault), launchStep l = .fault f →
    ∀ n, l.runFor (n + 1) = { l with machine := { l.machine with faultRecord := some f } } ∧
      launchStep (l.runFor (n + 1)) = .fault f) ∧
  (∀ (l : Launched) (r : Refusal), launchStep l = .refused r → r ≠ .programEnded →
    ∀ n, l.runFor (n + 1) = { l with machine := { l.machine with refusalMark := some r } } ∧
      launchStep (l.runFor (n + 1)) = .refused r) ∧
  (∀ l : Launched, launchStep l = .refused .programEnded → ∀ n, l.runFor n = l)

/-- Nothing a run under the launch discipline does depends on what registers without a value hold, the reset values the model
chose among them (10 R24, 92 D9; log 2). -/
def Obligations.LaunchedRunsIgnoreUnvaluedParts : Prop :=
  ∀ a b : Launched, sameButUnvalued a b → SameOutcome (launchStep a) (launchStep b)

/-! ## Modifiers -/

/-- Modifier Q (40 R66): the written element is the exact result where it lies in the range of the destination type,
`[0, 2^esize - 1]` unsigned or `[-2^(esize-1), 2^(esize-1) - 1]` signed, and the nearer end of the range elsewhere, and it has
saturated exactly then. -/
def Obligations.SaturationClampsToTheRange : Prop :=
  ∀ (isSigned : Bool) (esize : Nat) (low high r : Int), 0 < esize →
    low = (if isSigned then -(2 ^ (esize - 1)) else 0) →
    high = (if isSigned then 2 ^ (esize - 1) - 1 else 2 ^ esize - 1) →
    (low ≤ r → r ≤ high → saturate isSigned esize r = r ∧ saturated isSigned esize r = false) ∧
    (r < low → saturate isSigned esize r = low ∧ saturated isSigned esize r = true) ∧
    (high < r → saturate isSigned esize r = high ∧ saturated isSigned esize r = true)

/-! ## Assembler and disassembler -/

/-- "assemble(disassemble(w)) = w for every admitted w" (92 D16), of lines as data and of their characters, whether or not the
assembler accepts the Q suffix: assembling the line of an admitted instruction gives the instruction back, and assembling the
text of a word gives the word. -/
def Obligations.AssembleInvertsDisassemble : Prop :=
  (∀ (c : Config) (q : Bool) (i : Instr) (l : AsmLine), disassemble c i = some l →
    assemble c q l = .ok i ∧ readLine (printLine l) = .ok l) ∧
  (∀ (c : Config) (q : Bool) (w : Word) (cs : List Char), disassembleText c w = some cs → assembleText c q cs = .ok w)

/-- Every admitted instruction has a line, and every word of one a text (92 D16). -/
def Obligations.EveryAdmittedInstructionHasALine : Prop :=
  (∀ (c : Config) (i : Instr), admitted c i = true → ∃ l, disassemble c i = some l) ∧
  (∀ (c : Config) (w : Word) (i : Instr), decode c.instrSet w = .ok i → admitted c i = true →
    ∃ l, disassemble c i = some l ∧ disassembleText c w = some (printLine l))

/-- Either letter case is accepted (40 R60): a text and the same text in capitals assemble to the same word, or are rejected
with the same error. -/
def Obligations.LetterCaseIsImmaterial : Prop :=
  ∀ (c : Config) (q : Bool) (cs : List Char), assembleText c q (cs.map upcase) = assembleText c q cs

/-- The assembler emits no word that is Undefined or Unpredictable on an enabled machine of its configuration, and only words of
its instruction set (43 R97, 41 R73, R75, 92 D8). -/
def Obligations.AssemblerEmitsAdmittedInstructions : Prop :=
  ∀ (c : Config) (q : Bool) (l : AsmLine) (i : Instr), assemble c q l = .ok i → admitted c i = true

/-- "If <dest> is omitted, it is the same as <src1>" (40 R64, 43 R92). -/
def Obligations.OmittedDestinationIsFirstSource : Prop :=
  ∀ (c : Config) (q : Bool) (l : AsmLine) (a b : VecReg), l.mnemonic = .vadd ∨ l.mnemonic = .vsubw →
    assemble c q { l with operands := .vectors [a, b] } = assemble c q { l with operands := .vectors [a, a, b] }

/-- The Q shape suffix (40 R68): where ACCEPT_Q_SHAPE is not given it is accepted (00 R161); with quadword operands it changes
nothing, with any other operand or when it is not accepted the line is rejected, and the disassembler never prints it. That
VSUBW, VMOVN and VLD1 never take it is the model's choice, from R68's "shapeless operation" (log 16). -/
def Obligations.QSuffixAddsNothing : Prop :=
  (∀ (c : Config) (l : AsmLine) (rs : List VecReg), l.mnemonic = .vadd → l.operands = .vectors rs →
    ((∀ r ∈ rs, r.kind = .q) →
      assemble c true { l with qSuffix := true } = assemble c true { l with qSuffix := false }) ∧
    ((∃ r ∈ rs, r.kind ≠ .q) → ∀ i, assemble c true { l with qSuffix := true } ≠ .ok i)) ∧
  (∀ (c : Config) (l : AsmLine) (i : Instr), assemble c false { l with qSuffix := true } ≠ .ok i) ∧
  (∀ (c : Config) (q : Bool) (l : AsmLine) (i : Instr), l.mnemonic ≠ .vadd →
    assemble c q { l with qSuffix := true } ≠ .ok i) ∧
  (∀ (c : Config) (l : AsmLine), assemble c (l := l) = assemble c true l) ∧
  (∀ (c : Config) (cs : List Char), assembleText c (cs := cs) = assembleText c true cs) ∧
  (∀ (c : Config) (l : AsmLine) (i : Instr), disassemble c i = some l → l.qSuffix = false)

/-- `@` is read as `:` (41 R77), the transfer size written as an immediate is `!`, any other immediate being rejected (41 R78),
and the disassembler prints `:` and `!`, never an immediate. -/
def Obligations.AddressSpellingsAgree : Prop :=
  (∀ (c : Config) (q : Bool) (l : AsmLine) (list : RegList) (a : AddressText) (ds : List Nat), l.mnemonic = .vld1 →
    (∀ n, assemble c q { l with operands := .load list { a with align := some (.at, n) } } =
      assemble c q { l with operands := .load list { a with align := some (.colon, n) } }) ∧
    (listDoublewords c list = .ok ds →
      assemble c q { l with operands := .load list { a with post := .imm (8 * ds.length) } } =
        assemble c q { l with operands := .load list { a with post := .bang } } ∧
      ∀ n i, n ≠ 8 * ds.length → assemble c q { l with operands := .load list { a with post := .imm n } } ≠ .ok i)) ∧
  (∀ (c : Config) (i : Instr) (l : AsmLine) (list : RegList) (a : AddressText), disassemble c i = some l →
    l.operands = .load list a → (∀ p, a.align = some p → p.1 = .colon) ∧ (∀ n, a.post ≠ .imm n) ∧
    ∀ regs o, vld1Parts? i = some (regs, o) → o.format = .byTransferSize → a.post = .bang)

/-- All accepted spellings of the data types give the instruction of the last specifier alone (42 R84, R87, R88). -/
def Obligations.LastDataTypeGoverns : Prop :=
  ∀ (c : Config) (q : Bool) (l : AsmLine) (i : Instr), assemble c q l = .ok i →
    ∃ t, l.dts.getLast? = some t ∧ assemble c q { l with dts := [t] } = .ok i

/-- Which lists of data types are accepted (42 R83 to R88, 92 D18): those whose last type is one the mnemonic takes, with at most
as many earlier types as the operands allow, each of the size the shape implies and with the letter `I`, `S` or `U`, and no `S`
beside a `U`; `.F` and `.D` stand for `.F32` and `.F64` (42 R86). An accepted list is its last type, and a line with any other list
is rejected. -/
def Obligations.DataTypeListsFollowTheShape : Prop :=
  (∀ (m : Mnemonic) (specs : List DtSpec) (dt : DataType), governingType m specs = .ok dt ↔
    ∃ early, specs.map DtSpec.expand = early ++ [dt] ∧ TakenType m dt ∧ EarlierTypes m dt early ∧
      ¬ ((∃ t ∈ early ++ [dt], t.letter = some .s) ∧ ∃ t ∈ early ++ [dt], t.letter = some .u)) ∧
  (DtSpec.abbrevF.expand = ⟨some .f, .e32⟩ ∧ DtSpec.abbrevD.expand = ⟨some .f, .e64⟩) ∧
  (∀ (c : Config) (q : Bool) (l : AsmLine) (dt : DataType), governingType l.mnemonic l.dts = .ok dt →
    assemble c q l = assemble c q { l with dts := [.typed dt] }) ∧
  (∀ (c : Config) (q : Bool) (l : AsmLine), (∀ dt, governingType l.mnemonic l.dts ≠ .ok dt) →
    ∀ i, assemble c q l ≠ .ok i)

/-- Register list spellings (43 R98, R99): a range is its enumeration, a range downwards is rejected, quadword registers are
the doubleword registers of their halves, either spelling assembles to the same instruction whatever the rest of the line, and
no quadword register with an index or empty brackets is a member of any list, at whatever place. -/
def Obligations.ListSpellingsAgree : Prop :=
  (∀ (c : Config) (a b : Nat),
    (a ≤ b → listDoublewords c ⟨true, [.range ⟨.d, a⟩ ⟨.d, b⟩]⟩ =
      listDoublewords c ⟨true, (listNumbers a (b + 1 - a) 1).map fun n => .one ⟨.d, n⟩ .whole⟩) ∧
    (b < a → listDoublewords c ⟨true, [.range ⟨.d, a⟩ ⟨.d, b⟩]⟩ = .error .listForm) ∧
    (a ≤ b → listDoublewords c ⟨true, [.range ⟨.q, a⟩ ⟨.q, b⟩]⟩ =
      listDoublewords c ⟨true, [.range ⟨.d, 2 * a⟩ ⟨.d, 2 * b + 1⟩]⟩) ∧
    (a ≤ b → listDoublewords c ⟨true, (listNumbers a (b + 1 - a) 1).map fun n => .one ⟨.q, n⟩ .whole⟩ =
      listDoublewords c ⟨true, [.range ⟨.d, 2 * a⟩ ⟨.d, 2 * b + 1⟩]⟩)) ∧
  (∀ (c : Config) (q : Bool) (l : AsmLine) (addr : AddressText) (a b : Nat) (kind : VecKind),
    (a ≤ b → assemble c q (withList l [.range ⟨kind, a⟩ ⟨kind, b⟩] addr) =
      assemble c q (withList l ((listNumbers a (b + 1 - a) 1).map fun n => .one ⟨kind, n⟩ .whole) addr)) ∧
    (b < a → ∀ i, assemble c q (withList l [.range ⟨kind, a⟩ ⟨kind, b⟩] addr) ≠ .ok i) ∧
    (a ≤ b → assemble c q (withList l [.range ⟨.q, a⟩ ⟨.q, b⟩] addr) =
      assemble c q (withList l [.range ⟨.d, 2 * a⟩ ⟨.d, 2 * b + 1⟩] addr))) ∧
  (∀ (c : Config) (l : RegList) (k : Nat) (suffix : ElemSuffix) (ds : List Nat), suffix ≠ .whole →
    .one ⟨.q, k⟩ suffix ∈ l.items → listDoublewords c l ≠ .ok ds ∧ ∀ common, elementList c l ≠ .ok (ds, common))
end

