-- ==== Sys2Proof/Laws/AsmText.lean ====
section
/-! SUPPORT. AsmText.lean: what reading gives of what printing wrote, piece by piece (92 D16), and that letter case does not
matter to the reading of operands (40 R60). -/

namespace Sys2Proof.Machine

/-! ## Letter case -/

/-- A character is its own capital, or it and its capital are letters, and the capital is its own. -/
theorem upcase_cases (c : Char) :
    upcase c = c ∨ (isWordChar c = true ∧ isWordChar (upcase c) = true ∧ upcase (upcase c) = upcase c ∧ c ≠ ' ' ∧
      upcase c ≠ ' ') := by
  have letters : ∀ k : Fin 26,
      isWordChar (Char.ofNat (97 + k.val)) = true ∧ isWordChar (upcase (Char.ofNat (97 + k.val))) = true ∧
      upcase (upcase (Char.ofNat (97 + k.val))) = upcase (Char.ofNat (97 + k.val)) ∧ Char.ofNat (97 + k.val) ≠ ' ' ∧
      upcase (Char.ofNat (97 + k.val)) ≠ ' ' := by decide
  by_cases h : 97 ≤ c.toNat ∧ c.toNat ≤ 122
  · have hk := letters ⟨c.toNat - 97, by omega⟩
    rw [show 97 + (⟨c.toNat - 97, by omega⟩ : Fin 26).val = c.toNat from Nat.add_sub_cancel' h.1, Char.ofNat_toNat] at hk
    exact .inr hk
  · exact .inl (if_neg h)

theorem upcase_upcase (c : Char) : upcase (upcase c) = upcase c := by
  rcases upcase_cases c with h | h
  · rw [h, h]
  · exact h.2.2.1

theorem upcase_eq_blank (c : Char) : upcase c = ' ' ↔ c = ' ' := by
  rcases upcase_cases c with h | h
  · rw [h]
  · simp [h.2.2.2.1, h.2.2.2.2]

theorem readTokens_upcase (cs acc : List Char) : readTokens acc (cs.map upcase) = readTokens acc cs := by
  induction cs generalizing acc with
  | nil => rfl
  | cons c cs ih =>
    rw [List.map_cons]
    rcases upcase_cases c with h | ⟨h1, h2, h3, -⟩
    · rw [h]
      simp only [readTokens, ih]
    · rw [readTokens, readTokens, if_pos h1, if_pos h2, h3, ih]

/-! ## Tokens -/

/-- Letters and digits, in capitals. -/
def PlainWord (w : List Char) : Prop := ∀ c ∈ w, isWordChar c = true ∧ upcase c = c

theorem plainWord_nil : PlainWord [] := fun _ h => nomatch h

theorem plainWord_cons {c : Char} {w : List Char} (hc : isWordChar c = true ∧ upcase c = c) (hw : PlainWord w) :
    PlainWord (c :: w) := by
  intro d hd
  rcases List.mem_cons.mp hd with rfl | h
  · exact hc
  · exact hw d h

theorem readTokens_word {w : List Char} (hw : PlainWord w) (acc rest : List Char) :
    readTokens acc (w ++ rest) = readTokens (acc ++ w) rest := by
  induction w generalizing acc with
  | nil => simp
  | cons c w ih =>
    obtain ⟨h1, h2⟩ := hw c (by simp)
    rw [List.cons_append, readTokens, if_pos h1, h2, ih fun d hd => hw d (by simp [hd])]
    simp

theorem readTokens_last {w : List Char} (hw : PlainWord w) (acc : List Char) :
    readTokens acc w = some (flushWord (acc ++ w) []) := by
  simpa [readTokens] using readTokens_word hw acc []

theorem readTokens_blank (acc rest : List Char) :
    readTokens acc (' ' :: rest) = (readTokens [] rest).map (flushWord acc) := by
  rw [readTokens, if_neg (by decide), if_pos rfl]

theorem readTokens_punctuation {c : Char} {t : Token} (h : readPunctuation c = some t) (acc rest : List Char) :
    readTokens acc (c :: rest) = (readTokens [] rest).map fun ts => flushWord acc (t :: ts) := by
  have hw : isWordChar c = false := by
    unfold readPunctuation at h
    repeat' split at h
    all_goals first | (simp only [reduceCtorEq] at h) | (subst_vars; decide)
  have hb : c ≠ ' ' := by
    rintro rfl
    revert h
    simp [readPunctuation, openBrace, closeBrace]
  rw [readTokens, if_neg (by simp [hw]), if_neg hb, h]

/-! ## Numbers and registers -/

theorem digitChar_spec (n : Nat) :
    isDigitChar (digitChar n) = true ∧ (digitChar n).toNat = 48 + n % 10 ∧ (isWordChar (digitChar n) = true ∧
      upcase (digitChar n) = digitChar n) ∧ (digitChar n = '0' ↔ n % 10 = 0) := by
  have digits : ∀ k : Fin 10,
      isDigitChar (Char.ofNat (48 + k.val)) = true ∧ (Char.ofNat (48 + k.val)).toNat = 48 + k.val ∧
      (isWordChar (Char.ofNat (48 + k.val)) = true ∧ upcase (Char.ofNat (48 + k.val)) = Char.ofNat (48 + k.val)) ∧
      (Char.ofNat (48 + k.val) = '0' ↔ k.val = 0) := by decide
  exact digits ⟨n % 10, by omega⟩

theorem plainWord_printNumber (n : Nat) : PlainWord (printNumber n) := by
  have h k := (digitChar_spec k).2.2.1
  unfold printNumber
  split
  · exact plainWord_cons (h _) plainWord_nil
  · split
    · exact plainWord_cons (h _) (plainWord_cons (h _) plainWord_nil)
    · exact plainWord_cons (h _) (plainWord_cons (h _) (plainWord_cons (h _) plainWord_nil))

theorem plainWord_printVecReg (r : VecReg) : PlainWord (printVecReg r) := by
  unfold printVecReg
  cases r.kind <;> exact plainWord_cons (by decide) (plainWord_printNumber _)

theorem plainWord_printGpr (g : GprText) : PlainWord (printGpr g) := by
  cases g with
  | r n => exact plainWord_cons (by decide) (plainWord_printNumber n)
  | sp | lr | pc => exact plainWord_cons (by decide) (plainWord_cons (by decide) plainWord_nil)

@[simp] theorem flushWord_nil (ts : List Token) : flushWord [] ts = ts := rfl

@[simp] theorem flushWord_printNumber (n : Nat) (ts : List Token) :
    flushWord (printNumber n) ts = .word (printNumber n) :: ts := by
  have h : printNumber n ≠ [] := by unfold printNumber; split <;> (try split) <;> simp
  simp [flushWord, h]

@[simp] theorem flushWord_printVecReg (r : VecReg) (ts : List Token) :
    flushWord (printVecReg r) ts = .word (printVecReg r) :: ts := by
  simp [flushWord, printVecReg]

@[simp] theorem flushWord_printGpr (g : GprText) (ts : List Token) :
    flushWord (printGpr g) ts = .word (printGpr g) :: ts := by
  cases g <;> simp [flushWord, printGpr]

theorem readNumber_printNumber {n : Nat} (hn : n < 1000) : readNumber (printNumber n) = some n := by
  have h1 k := (digitChar_spec k).1
  have h2 k := (digitChar_spec k).2.1
  have h3 k := (digitChar_spec k).2.2.2
  unfold printNumber
  split
  · simp [readNumber, h1, h2]
    omega
  · split <;> simp [readNumber, h1, h2, h3] <;> omega

theorem readVecReg_printVecReg {r : VecReg} (h : r.num < 1000) : readVecReg (printVecReg r) = some r := by
  obtain ⟨k, n⟩ := r
  cases k <;> simp [printVecReg, readVecReg, readNumber_printNumber h]

theorem readGpr_printGpr {g : GprText} (h : g.number < 1000) : readGpr (printGpr g) = some g := by
  cases g with
  | r n =>
    change n < 1000 at h
    simp [printGpr, readGpr, readNumber_printNumber h]
  | sp | lr | pc => rfl

/-! ## Operands -/

/-- The numbers of an address are ones that are printed in full. -/
def AddressText.Printable (a : AddressText) : Prop :=
  a.base.number < 1000 ∧ (∀ p, a.align = some p → p.2 < 1000) ∧ (∀ n, a.post = .imm n → n < 1000) ∧
  ∀ g, a.post = .reg g → g.number < 1000

theorem readPost_of_print {p : PostText} (hi : ∀ n, p = .imm n → n < 1000) (hg : ∀ g, p = .reg g → g.number < 1000) :
    ∃ ts, readTokens [] (printPost p) = some ts ∧ readPost ts = some p := by
  cases p with
  | none => exact ⟨[], rfl, rfl⟩
  | bang => exact ⟨[.bang], by decide, rfl⟩
  | imm n =>
    refine ⟨[.comma, .hash, .word (printNumber n)], ?_, by simp [readPost, readNumber_printNumber (hi n rfl)]⟩
    rw [printPost, readTokens_punctuation (t := .comma) (by decide), readTokens_blank,
      readTokens_punctuation (t := .hash) (by decide), readTokens_last (plainWord_printNumber n)]
    simp
  | reg g =>
    refine ⟨[.comma, .word (printGpr g)], ?_, by simp [readPost, readGpr_printGpr (hg g rfl)]⟩
    rw [printPost, readTokens_punctuation (t := .comma) (by decide), readTokens_blank, readTokens_last (plainWord_printGpr g)]
    simp

theorem readAddress_of_print {a : AddressText} (ha : a.Printable) :
    ∃ ts, readTokens [] (printAddress a) = some ts ∧ readAddress ts = some a := by
  obtain ⟨hb, hn, hi, hg⟩ := ha
  obtain ⟨ts, h1, h2⟩ := readPost_of_print hi hg
  obtain ⟨b, al, post⟩ := a
  rcases al with _ | ⟨sep, n⟩
  · refine ⟨.openBracket :: .word (printGpr b) :: .closeBracket :: ts, ?_, by simp [readAddress, readGpr_printGpr hb, h2]⟩
    simp only [printAddress, printAlign, List.append_nil, List.cons_append]
    rw [readTokens_punctuation (t := .openBracket) (by decide), readTokens_word (plainWord_printGpr b),
      readTokens_punctuation (t := .closeBracket) (by decide), h1]
    simp
  · have hk := readNumber_printNumber (hn _ rfl)
    have step (c : Char) (t : Token) (hc : readPunctuation c = some t) :
        readTokens [] ('[' :: (printGpr b ++ c :: (printNumber n ++ ']' :: printPost post))) =
          some (.openBracket :: .word (printGpr b) :: t :: .word (printNumber n) :: .closeBracket :: ts) := by
      rw [readTokens_punctuation (t := .openBracket) (by decide), readTokens_word (plainWord_printGpr b),
        readTokens_punctuation hc, readTokens_word (plainWord_printNumber n),
        readTokens_punctuation (t := .closeBracket) (by decide), h1]
      simp
    cases sep
    · exact ⟨_, by simpa [printAddress, printAlign] using step ':' .colon (by decide),
        by simp [readAddress, readGpr_printGpr hb, h2, hk]⟩
    · exact ⟨_, by simpa [printAddress, printAlign] using step '@' .atSign (by decide),
        by simp [readAddress, readGpr_printGpr hb, h2, hk]⟩

theorem readVectors_of_print {rs : List VecReg} (h : rs ≠ []) (hb : ∀ r ∈ rs, r.num < 1000) :
    ∃ ts, readTokens [] (joinComma (rs.map printVecReg)) = some ts ∧ readVectors ts = some rs := by
  induction rs with
  | nil => exact absurd rfl h
  | cons a rs ih =>
    have hv := readVecReg_printVecReg (hb a (by simp))
    cases rs with
    | nil =>
      refine ⟨[.word (printVecReg a)], ?_, by simp [readVectors, hv]⟩
      simp [joinComma, readTokens_last (plainWord_printVecReg a)]
    | cons b rs =>
      obtain ⟨ts, h1, h2⟩ := ih (by simp) fun r hr => hb r (by simp [hr])
      refine ⟨.word (printVecReg a) :: .comma :: ts, ?_, by simp [readVectors, hv, h2]⟩
      simp only [List.map_cons, joinComma] at h1 ⊢
      rw [readTokens_word (plainWord_printVecReg a), readTokens_punctuation (t := .comma) (by decide), readTokens_blank, h1]
      simp

/-- Whole registers up to the closing brace, before text that is read as `ts`. -/
theorem readItems_of_print {rs : List VecReg} {rest : List Char} {ts : List Token} (h : rs ≠ [])
    (hb : ∀ r ∈ rs, r.num < 1000) (hr : readTokens [] rest = some ts) :
    ∃ us, readTokens [] (joinComma (rs.map printVecReg) ++ closeBrace :: rest) = some us ∧ rs.length ≤ us.length ∧
      ∀ fuel, rs.length ≤ fuel → readItems fuel us = some (rs.map fun r => .one r .whole, ts) := by
  induction rs with
  | nil => exact absurd rfl h
  | cons a rs ih =>
    have hv := readVecReg_printVecReg (hb a (by simp))
    cases rs with
    | nil =>
      refine ⟨.word (printVecReg a) :: .closeList :: ts, ?_, by simp, fun fuel hf => ?_⟩
      · simp only [List.map_cons, List.map_nil, joinComma]
        rw [readTokens_word (plainWord_printVecReg a), readTokens_punctuation (t := .closeList) (by decide), hr]
        simp
      · obtain ⟨f, rfl⟩ : ∃ f, fuel = f + 1 := ⟨fuel - 1, by simp at hf; omega⟩
        simp [readItems, readItem, hv]
    | cons b rs =>
      obtain ⟨us, h1, hl, h2⟩ := ih (by simp) fun r hr => hb r (by simp [hr])
      refine ⟨.word (printVecReg a) :: .comma :: us, ?_, by simp at hl ⊢; omega, fun fuel hf => ?_⟩
      · simp only [List.map_cons, joinComma, List.append_assoc, List.cons_append] at h1 ⊢
        rw [readTokens_word (plainWord_printVecReg a), readTokens_punctuation (t := .comma) (by decide), readTokens_blank, h1]
        simp
      · obtain ⟨f, rfl⟩ : ∃ f, fuel = f + 1 := ⟨fuel - 1, by simp at hf; omega⟩
        simp [readItems, readItem, hv, h2 f (by simp at hf ⊢; omega)]

/-- The operands of a data-processing line. -/
theorem readOperands_of_print_vectors {rs : List VecReg} (h : rs ≠ []) (hb : ∀ r ∈ rs, r.num < 1000) :
    ∃ ts, readTokens [] (printOperands (.vectors rs)) = some ts ∧ readOperands ts = some (.vectors rs) := by
  obtain ⟨ts, h1, h2⟩ := readVectors_of_print h hb
  exact ⟨ts, h1, by simp [readOperands, h2]⟩

/-- The operands of a load line: a list of whole registers in braces, and an address. -/
theorem readOperands_of_print_load {rs : List VecReg} {a : AddressText} (h : rs ≠ []) (hb : ∀ r ∈ rs, r.num < 1000)
    (ha : a.Printable) :
    ∃ ts, readTokens [] (printOperands (.load ⟨true, rs.map fun r => .one r .whole⟩ a)) = some ts ∧
      readOperands ts = some (.load ⟨true, rs.map fun r => .one r .whole⟩ a) := by
  obtain ⟨ts, h1, h2⟩ := readAddress_of_print ha
  have hr : readTokens [] (',' :: ' ' :: printAddress a) = some (.comma :: ts) := by
    rw [readTokens_punctuation (t := .comma) (by decide), readTokens_blank, h1]
    simp
  obtain ⟨us, h3, h4, h5⟩ := readItems_of_print h hb hr
  refine ⟨.openList :: us, ?_, by simp [readOperands, readVectors, readRegList, h5 _ h4, h2]⟩
  have hp : (printItem ∘ fun r => ListItem.one r .whole) = printVecReg := rfl
  simp only [printOperands, joinComma, printRegList, if_true, List.map_map, List.cons_append, List.append_assoc,
    List.nil_append, hp]
  rw [readTokens_punctuation (t := .openList) (by decide), h3]
  simp

/-! ## Lines -/

/-- A mnemonic part without blanks, one blank, and operands: each part is read by itself. -/
theorem readLine_of_parts {head ops : List Char} {m : Mnemonic} {q : Bool} {cond : Option Cond} {width : Option WidthQual}
    {dts : List DtSpec} {o : OperandText} {ts : List Token} (h0 : head.all (· ≠ ' ') = true)
    (h1 : readName ((splitStops (head.map upcase)).headD []) = some (m, q, cond))
    (h2 : readPieces (splitStops (head.map upcase)).tail = some (width, dts)) (h3 : readTokens [] ops = some ts)
    (h4 : readOperands ts = some o) : readLine (head ++ ' ' :: ops) = .ok ⟨m, q, cond, width, dts, o⟩ := by
  have e1 : (head ++ ' ' :: ops).takeWhile (· ≠ ' ') = head := by
    rw [List.takeWhile_append_of_pos (by simpa using h0)]
    simp
  have e2 : (head ++ ' ' :: ops).dropWhile (· ≠ ' ') = ' ' :: ops := by
    rw [List.dropWhile_append_of_pos (by simpa using h0)]
    simp
  have e0 : (head ++ ' ' :: ops).dropWhile (· = ' ') = head ++ ' ' :: ops := by
    cases head with
    | nil => simp [splitStops, readName, mnemonicTexts] at h1
    | cons c head =>
      simp only [List.all_cons, Bool.and_eq_true, decide_eq_true_eq] at h0
      simp [h0.1]
  unfold readLine
  simp only [e0, e1, e2, h1, h2, readTokens_blank, h3, Option.map_some, flushWord_nil, h4]

end Sys2Proof.Machine
end

