-- ==== Sys2Proof/Laws/State.lean ====
section
/-! SUPPORT. State.lean: one lemma for each field under each update of the state, so that no later proof unfolds a record
update. -/

namespace Sys2Proof.Machine

variable (s : State)

/-! ## writeR -/

@[simp] theorem writeR_config (i : Fin 15) (v : Word) : (s.writeR i v).config = s.config := rfl
@[simp] theorem writeR_regs (i : Fin 15) (v : Word) : (s.writeR i v).regs = s.regs.set i v := rfl
@[simp] theorem writeR_pc (i : Fin 15) (v : Word) : (s.writeR i v).pc = s.pc := rfl
@[simp] theorem writeR_dregs (i : Fin 15) (v : Word) : (s.writeR i v).dregs = s.dregs := rfl
@[simp] theorem writeR_mem (i : Fin 15) (v : Word) : (s.writeR i v).mem = s.mem := rfl
@[simp] theorem writeR_text (i : Fin 15) (v : Word) : (s.writeR i v).text = s.text := rfl
@[simp] theorem writeR_faultRecord (i : Fin 15) (v : Word) : (s.writeR i v).faultRecord = s.faultRecord := rfl
@[simp] theorem writeR_refusalMark (i : Fin 15) (v : Word) : (s.writeR i v).refusalMark = s.refusalMark := rfl
@[simp] theorem readD_writeR (i : Fin 15) (v : Word) (d : DNum) : (s.writeR i v).readD d = s.readD d := rfl

/-! ## writeD -/

@[simp] theorem writeD_config (i : DNum) (v : DWord) : (s.writeD i v).config = s.config := rfl
@[simp] theorem writeD_regs (i : DNum) (v : DWord) : (s.writeD i v).regs = s.regs := rfl
@[simp] theorem writeD_pc (i : DNum) (v : DWord) : (s.writeD i v).pc = s.pc := rfl
@[simp] theorem writeD_dregs (i : DNum) (v : DWord) : (s.writeD i v).dregs = s.dregs.set i v := rfl
@[simp] theorem writeD_mem (i : DNum) (v : DWord) : (s.writeD i v).mem = s.mem := rfl
@[simp] theorem writeD_text (i : DNum) (v : DWord) : (s.writeD i v).text = s.text := rfl
@[simp] theorem writeD_faultRecord (i : DNum) (v : DWord) : (s.writeD i v).faultRecord = s.faultRecord := rfl
@[simp] theorem writeD_refusalMark (i : DNum) (v : DWord) : (s.writeD i v).refusalMark = s.refusalMark := rfl
@[simp] theorem readR_writeD (i : DNum) (v : DWord) (r : Fin 15) : (s.writeD i v).readR r = s.readR r := rfl

/-! ## advance -/

@[simp] theorem advance_config : s.advance.config = s.config := rfl
@[simp] theorem advance_regs : s.advance.regs = s.regs := rfl
@[simp] theorem advance_pc : s.advance.pc = s.pc + 4 := rfl
@[simp] theorem advance_dregs : s.advance.dregs = s.dregs := rfl
@[simp] theorem advance_mem : s.advance.mem = s.mem := rfl
@[simp] theorem advance_text : s.advance.text = s.text := rfl
@[simp] theorem advance_faultRecord : s.advance.faultRecord = s.faultRecord := rfl
@[simp] theorem advance_refusalMark : s.advance.refusalMark = s.refusalMark := rfl
@[simp] theorem readR_advance (r : Fin 15) : s.advance.readR r = s.readR r := rfl
@[simp] theorem readD_advance (d : DNum) : s.advance.readD d = s.readD d := rfl

/-! ## recordFault and recordRefusal -/

@[simp] theorem recordFault_config (f : Fault) : (s.recordFault f).config = s.config := rfl
@[simp] theorem recordFault_regs (f : Fault) : (s.recordFault f).regs = s.regs := rfl
@[simp] theorem recordFault_pc (f : Fault) : (s.recordFault f).pc = s.pc := rfl
@[simp] theorem recordFault_dregs (f : Fault) : (s.recordFault f).dregs = s.dregs := rfl
@[simp] theorem recordFault_mem (f : Fault) : (s.recordFault f).mem = s.mem := rfl
@[simp] theorem recordFault_text (f : Fault) : (s.recordFault f).text = s.text := rfl
@[simp] theorem recordFault_faultRecord (f : Fault) : (s.recordFault f).faultRecord = some f := rfl
@[simp] theorem recordFault_refusalMark (f : Fault) : (s.recordFault f).refusalMark = s.refusalMark := rfl
@[simp] theorem recordRefusal_config (r : Refusal) : (s.recordRefusal r).config = s.config := rfl
@[simp] theorem recordRefusal_regs (r : Refusal) : (s.recordRefusal r).regs = s.regs := rfl
@[simp] theorem recordRefusal_pc (r : Refusal) : (s.recordRefusal r).pc = s.pc := rfl
@[simp] theorem recordRefusal_dregs (r : Refusal) : (s.recordRefusal r).dregs = s.dregs := rfl
@[simp] theorem recordRefusal_mem (r : Refusal) : (s.recordRefusal r).mem = s.mem := rfl
@[simp] theorem recordRefusal_text (r : Refusal) : (s.recordRefusal r).text = s.text := rfl
@[simp] theorem recordRefusal_faultRecord (r : Refusal) : (s.recordRefusal r).faultRecord = s.faultRecord := rfl
@[simp] theorem recordRefusal_refusalMark (r : Refusal) : (s.recordRefusal r).refusalMark = some r := rfl

/-! ## writeDs -/

variable {s}

/-- A property of states that every single register write keeps is kept by a list of them. -/
theorem writeDs_induction {P : State → Prop} (keep : ∀ t i v, P t → P (t.writeD i v)) :
    ∀ (vs : List DWord) (t : State) (d : DNum), P t → P (t.writeDs d vs)
  | [], _, _, h => h
  | v :: vs, t, d, h => writeDs_induction keep vs (t.writeD d v) (dPlus d 1) (keep t d v h)

variable (s)

@[simp] theorem writeDs_config (d : DNum) (vs : List DWord) : (s.writeDs d vs).config = s.config :=
  writeDs_induction (P := fun t => t.config = s.config) (fun _ _ _ h => h) vs s d rfl
@[simp] theorem writeDs_regs (d : DNum) (vs : List DWord) : (s.writeDs d vs).regs = s.regs :=
  writeDs_induction (P := fun t => t.regs = s.regs) (fun _ _ _ h => h) vs s d rfl
@[simp] theorem writeDs_pc (d : DNum) (vs : List DWord) : (s.writeDs d vs).pc = s.pc :=
  writeDs_induction (P := fun t => t.pc = s.pc) (fun _ _ _ h => h) vs s d rfl
@[simp] theorem writeDs_mem (d : DNum) (vs : List DWord) : (s.writeDs d vs).mem = s.mem :=
  writeDs_induction (P := fun t => t.mem = s.mem) (fun _ _ _ h => h) vs s d rfl
@[simp] theorem writeDs_text (d : DNum) (vs : List DWord) : (s.writeDs d vs).text = s.text :=
  writeDs_induction (P := fun t => t.text = s.text) (fun _ _ _ h => h) vs s d rfl
@[simp] theorem writeDs_faultRecord (d : DNum) (vs : List DWord) : (s.writeDs d vs).faultRecord = s.faultRecord :=
  writeDs_induction (P := fun t => t.faultRecord = s.faultRecord) (fun _ _ _ h => h) vs s d rfl
@[simp] theorem writeDs_refusalMark (d : DNum) (vs : List DWord) : (s.writeDs d vs).refusalMark = s.refusalMark :=
  writeDs_induction (P := fun t => t.refusalMark = s.refusalMark) (fun _ _ _ h => h) vs s d rfl
@[simp] theorem readR_writeDs (d : DNum) (vs : List DWord) (r : Fin 15) : (s.writeDs d vs).readR r = s.readR r :=
  writeDs_induction (P := fun t => t.readR r = s.readR r) (fun _ _ _ h => h) vs s d rfl

/-! ## writeQ -/

@[simp] theorem writeQ_config (k : Fin 16) (v : QWord) : (s.writeQ k v).config = s.config := rfl
@[simp] theorem writeQ_regs (k : Fin 16) (v : QWord) : (s.writeQ k v).regs = s.regs := rfl
@[simp] theorem writeQ_pc (k : Fin 16) (v : QWord) : (s.writeQ k v).pc = s.pc := rfl
@[simp] theorem writeQ_mem (k : Fin 16) (v : QWord) : (s.writeQ k v).mem = s.mem := rfl
@[simp] theorem writeQ_text (k : Fin 16) (v : QWord) : (s.writeQ k v).text = s.text := rfl
@[simp] theorem writeQ_faultRecord (k : Fin 16) (v : QWord) : (s.writeQ k v).faultRecord = s.faultRecord := rfl
@[simp] theorem writeQ_refusalMark (k : Fin 16) (v : QWord) : (s.writeQ k v).refusalMark = s.refusalMark := rfl
@[simp] theorem readR_writeQ (k : Fin 16) (v : QWord) (r : Fin 15) : (s.writeQ k v).readR r = s.readR r := rfl

/-! ## writeBack: only the base register, and only in formats 2 and 3 -/

variable (s0 : State) (rn : Fin 15) (ts : Nat) (f : AddrFormat)

/-- The two things a base register update can be. -/
theorem writeBack_cases :
    (f.writesBack = false ∧ writeBack s0 rn ts f s = s) ∨
      (f.writesBack = true ∧ writeBack s0 rn ts f s = s.writeR rn (postBase s0 rn ts f)) := by
  cases h : f.writesBack <;> simp [writeBack, h]

@[simp] theorem writeBack_config : (writeBack s0 rn ts f s).config = s.config := by
  rcases writeBack_cases s s0 rn ts f with ⟨_, h⟩ | ⟨_, h⟩ <;> simp [h]
@[simp] theorem writeBack_pc : (writeBack s0 rn ts f s).pc = s.pc := by
  rcases writeBack_cases s s0 rn ts f with ⟨_, h⟩ | ⟨_, h⟩ <;> simp [h]
@[simp] theorem writeBack_dregs : (writeBack s0 rn ts f s).dregs = s.dregs := by
  rcases writeBack_cases s s0 rn ts f with ⟨_, h⟩ | ⟨_, h⟩ <;> simp [h]
@[simp] theorem writeBack_mem : (writeBack s0 rn ts f s).mem = s.mem := by
  rcases writeBack_cases s s0 rn ts f with ⟨_, h⟩ | ⟨_, h⟩ <;> simp [h]
@[simp] theorem writeBack_text : (writeBack s0 rn ts f s).text = s.text := by
  rcases writeBack_cases s s0 rn ts f with ⟨_, h⟩ | ⟨_, h⟩ <;> simp [h]
@[simp] theorem writeBack_faultRecord : (writeBack s0 rn ts f s).faultRecord = s.faultRecord := by
  rcases writeBack_cases s s0 rn ts f with ⟨_, h⟩ | ⟨_, h⟩ <;> simp [h]
@[simp] theorem writeBack_refusalMark : (writeBack s0 rn ts f s).refusalMark = s.refusalMark := by
  rcases writeBack_cases s s0 rn ts f with ⟨_, h⟩ | ⟨_, h⟩ <;> simp [h]
@[simp] theorem readD_writeBack (d : DNum) : (writeBack s0 rn ts f s).readD d = s.readD d := by
  rcases writeBack_cases s s0 rn ts f with ⟨_, h⟩ | ⟨_, h⟩ <;> simp [h]

end Sys2Proof.Machine
end

