-- ==== Sys2Proof/Laws/Decode.lean ====
section
/-! SUPPORT. Decode.lean: bits of encoded words, fields read back, and rows that cannot both match (spec 30 R45, R54). -/

namespace Sys2Proof

open Machine

/-- A bit of a field is a bit of the word. -/
theorem getLsbD_fieldAt (w : Word) (lo len i : Nat) :
    (fieldAt w lo len).getLsbD i = (decide (i < len) && w.getLsbD (lo + i)) := by
  simp [fieldAt]

/-- A word cannot have the fixed bits of two rows whose fixed bits differ where both fix them. -/
theorem hasBits_disjoint {r r' : Row} {w : Word} (h : r.hasBits w = true)
    (hne : r.bits &&& r'.mask ≠ r'.bits &&& r.mask) : r'.hasBits w = false := by
  by_contra hc
  simp only [Bool.not_eq_false] at hc
  simp only [Row.hasBits, decide_eq_true_eq] at h hc
  apply hne
  rw [← h, ← hc, BitVec.and_assoc, BitVec.and_assoc, BitVec.and_comm r.mask]

/-- A field is the value whose bits it has. -/
theorem fieldAt_eq {w : Word} {lo len : Nat} {b : BitVec len} (h : ∀ i < len, w.getLsbD (lo + i) = b.getLsbD i) :
    fieldAt w lo len = b :=
  BitVec.eq_of_getLsbD_eq fun i hi => by rw [getLsbD_fieldAt, h i hi, decide_eq_true hi, Bool.true_and]

/-- A bit that a row fixes is the row's bit in every word that has its fixed bits. -/
theorem getLsbD_of_hasBits {r : Row} {w : Word} (h : r.hasBits w = true) {i : Nat} (hm : r.mask.getLsbD i = true) :
    w.getLsbD i = r.bits.getLsbD i := by
  simp only [Row.hasBits, decide_eq_true_eq] at h
  rw [← h, BitVec.getLsbD_and, hm, Bool.and_true]

/-- A doubleword number is read back from its two fields (30 R45). -/
@[simp] theorem dNumber_fields (i : DNum) : dNumber (dHighBit i) (dLowBits i) = i := by
  revert i
  decide

/-- The two fields are read back from a doubleword number (30 R45). -/
@[simp] theorem dHighBit_dNumber (x : BitVec 1) (v : BitVec 4) : dHighBit (dNumber x v) = x := by
  revert x v
  decide

@[simp] theorem dLowBits_dNumber (x : BitVec 1) (v : BitVec 4) : dLowBits (dNumber x v) = v := by
  revert x v
  decide

@[simp] theorem sizeOfField_sizeField (k : ElemSize) : sizeOfField (sizeField k) = k := by
  cases k <;> rfl

@[simp] theorem sizeField_sizeOfField (b : BitVec 2) : sizeField (sizeOfField b) = b := by
  revert b
  decide

@[simp] theorem alignOfField_alignField (a : AlignSpec) : alignOfField (alignField a) = a := by
  cases a <;> rfl

@[simp] theorem alignField_alignOfField (b : BitVec 2) : alignField (alignOfField b) = b := by
  revert b
  decide

/-- A well-formed format is read back from its field (41 R71, R72, R73). -/
theorem formatOfField_formatField (f : AddrFormat) (h : f.wellFormed = true) :
    formatOfField (formatField f) = f := by
  cases f with
  | noWriteback => rfl
  | byTransferSize => rfl
  | byRegister rm =>
    revert h
    revert rm
    decide

/-- Every value of the `Rm` field is read as a well-formed format whose field it is (41 R74). -/
theorem formatField_formatOfField (b : BitVec 4) :
    formatField (formatOfField b) = b ∧ (formatOfField b).wellFormed = true := by
  revert b
  decide

/-- The rows of one instruction set are pairwise disjoint: no word matches two (30 R54). -/
theorem rows_disjoint (iset : InstrSet) :
    (rowsOf iset).Pairwise fun r r' => r.bits &&& r'.mask ≠ r'.bits &&& r.mask := by
  cases iset <;> decide

/-- What a row of the set reads from a word is what the decoder answers. -/
theorem decode_of_row {iset : InstrSet} {w : Word} {i : Instr} {r : Row} (hr : r ∈ rowsOf iset) (hb : r.hasBits w = true)
    (hm : r.build w = some i) : decode iset w = .ok i := by
  have hfind : (rowsOf iset).findSome? (·.read w) = some i := by
    have hp := rows_disjoint iset
    generalize rowsOf iset = rows at hr hp
    induction rows with
    | nil => simp at hr
    | cons x xs ih =>
      rw [List.pairwise_cons] at hp
      rcases List.mem_cons.mp hr with rfl | h
      · simp [List.findSome?, Row.read, hb, hm]
      · have hx : x.hasBits w = false := hasBits_disjoint hb fun e => hp.1 r h e.symm
        have hread : x.read w = none := by simp [Row.read, hx]
        simp [List.findSome?, hread, ih h hp.2]
  simp [decode, hfind]

/-- A decoded instruction was read by a row of the set. -/
theorem row_of_decode {iset : InstrSet} {w : Word} {i : Instr} (h : decode iset w = .ok i) :
    ∃ r ∈ rowsOf iset, r.hasBits w = true ∧ r.build w = some i := by
  unfold decode at h
  split at h
  · next j hj =>
    simp only [Except.ok.injEq] at h
    subst h
    obtain ⟨r, hr, hread⟩ := List.exists_of_findSome?_eq_some hj
    unfold Row.read at hread
    split at hread
    · next hb => exact ⟨r, hr, hb, hread⟩
    · simp at hread
  · simp at h

/-- No word matches an A32 row and a T32 row. -/
theorem rows_disjoint_across : ∀ r ∈ rowsA32, ∀ r' ∈ rowsT32, r.bits &&& r'.mask ≠ r'.bits &&& r.mask := by
  decide

end Sys2Proof
end

