-- ==== Sys2Proof/Laws/Elements.lean ====
section
/-! SUPPORT. Elements.lean: what `elem`, `setElem` and `buildElems` do (spec 10 R18). -/

namespace Sys2Proof.Machine

variable {n size : Nat}

/-- Bit `i` of element `x` is bit `x * size + i` of the vector. -/
theorem getLsbD_elem (v : BitVec n) (x i : Nat) :
    (elem v x size).getLsbD i = (decide (i < size) && v.getLsbD (x * size + i)) := by
  simp [elem]

/-- A bit of a vector with one element replaced: of the new element inside its place, of the old vector elsewhere. -/
theorem getLsbD_setElem (v : BitVec n) (x : Nat) (e : BitVec size) (i : Nat) (hi : i < n) :
    (setElem v x e).getLsbD i =
      if x * size ≤ i ∧ i < x * size + size then e.getLsbD (i - x * size) else v.getLsbD i := by
  by_cases h1 : x * size ≤ i
  · by_cases h2 : i < x * size + size
    · have h3 : i - x * size < size := by omega
      simp [setElem, hi, h1, h2, h3, Nat.not_lt.mpr h1]
    · have h3 : ¬ i - x * size < size := by omega
      simp [setElem, hi, h1, h2, h3, Nat.not_lt.mpr h1, BitVec.getLsbD_of_ge e _ (by omega : size ≤ i - x * size)]
  · have h2 : i < x * size := by omega
    simp [setElem, hi, h1, h2]

/-- The element just written reads back. -/
theorem elem_setElem_same (v : BitVec n) (x : Nat) (e : BitVec size) (hx : x * size + size ≤ n) :
    elem (setElem v x e) x size = e := by
  ext i hi
  simp only [← BitVec.getLsbD_eq_getElem]
  rw [getLsbD_elem, getLsbD_setElem _ _ _ _ (by omega)]
  simp [hi]

/-- Every other element of the same size is as it was. -/
theorem elem_setElem_ne (v : BitVec n) (x y : Nat) (e : BitVec size) (hy : y * size + size ≤ n) (hxy : x ≠ y) :
    elem (setElem v x e) y size = elem v y size := by
  ext i hi
  simp only [← BitVec.getLsbD_eq_getElem]
  rw [getLsbD_elem, getLsbD_elem, getLsbD_setElem _ _ _ _ (by omega)]
  have : ¬ (x * size ≤ y * size + i ∧ y * size + i < x * size + size) := by
    rintro ⟨h1, h2⟩
    rcases Nat.lt_or_gt_of_ne hxy with h | h
    · have := Nat.mul_le_mul_right size (Nat.succ_le_of_lt h)
      rw [Nat.succ_mul] at this
      omega
    · have := Nat.mul_le_mul_right size (Nat.succ_le_of_lt h)
      rw [Nat.succ_mul] at this
      omega
  simp [this]

/-- The vector that the element loop builds holds `f e` in element `e`. -/
theorem elem_buildElems (f : Nat → BitVec size) (e : Nat) :
    ∀ count, e < count → count * size ≤ n → elem (buildElems n f count) e size = f e := by
  intro count
  induction count with
  | zero => intro h; omega
  | succ k ih =>
    intro he hn
    rw [Nat.succ_mul] at hn
    rcases Nat.lt_succ_iff_lt_or_eq.mp he with h | h
    · have h2 : e * size + size ≤ n := by
        have := Nat.mul_le_mul_right size (Nat.succ_le_of_lt h)
        rw [Nat.succ_mul] at this
        omega
      rw [buildElems, elem_setElem_ne _ _ _ _ h2 (by omega)]
      exact ih h (by omega)
    · subst h
      rw [buildElems, elem_setElem_same _ _ _ hn]

/-- Two vectors that are whole numbers of elements long are equal when all their elements are. -/
theorem eq_of_elems {v w : BitVec n} (count : Nat) (hn : n = count * size) (hs : 0 < size)
    (h : ∀ e, e < count → elem v e size = elem w e size) : v = w := by
  ext i hi
  simp only [← BitVec.getLsbD_eq_getElem]
  have he : i / size < count := by
    rw [Nat.div_lt_iff_lt_mul hs]
    omega
  have h1 := congrArg (fun b => b.getLsbD (i % size)) (h (i / size) he)
  simp only [getLsbD_elem, Nat.mod_lt i hs, decide_true, Bool.true_and] at h1
  rwa [Nat.mul_comm, Nat.div_add_mod] at h1

/-- The number of elements of a doubleword and the size of one fill it. -/
theorem elements_fill (k : ElemSize) : 64 / k.bits * k.bits = 64 := by
  cases k <;> rfl

theorem bits_eq_bytes (k : ElemSize) : k.bits = 8 * k.bytes := by
  cases k <;> rfl

end Sys2Proof.Machine
end

