-- ==== Sys2Proof/Laws/Memory.lean ====
section
/-! SUPPORT. Memory.lean: every memory operation keeps the canonical form, and what a read answers after a write (spec 20 R30
to R35). -/

namespace Sys2Proof.Machine

/-- Raising the lowest address allowed only forbids more. -/
theorem risingFrom_mono {low low' : Nat} (h : low' ≤ low) :
    ∀ {m : Memory}, Memory.risingFrom low m = true → Memory.risingFrom low' m = true
  | [], _ => rfl
  | c :: cs, hm => by
    simp only [Memory.risingFrom, Bool.and_eq_true, decide_eq_true_eq] at hm ⊢
    exact ⟨⟨by omega, hm.1.2⟩, hm.2⟩

/-- Giving a byte at an address not below the lowest one keeps the form. -/
theorem risingFrom_put {a : Nat} {b : Byte} (ha : a < 2 ^ 32) :
    ∀ {m : Memory} {low : Nat}, low ≤ a → Memory.risingFrom low m = true → Memory.risingFrom low (m.put a b) = true
  | [], low, hl, _ => by
    simp only [Memory.put, Memory.risingFrom, Bool.and_eq_true, decide_eq_true_eq]
    exact ⟨⟨hl, ha⟩, trivial⟩
  | c :: cs, low, hl, hm => by
    simp only [Memory.risingFrom, Bool.and_eq_true, decide_eq_true_eq] at hm
    rw [Memory.put]
    split
    · next h =>
      simp only [Memory.risingFrom, Bool.and_eq_true, decide_eq_true_eq]
      exact ⟨⟨hl, ha⟩, ⟨by omega, hm.1.2⟩, hm.2⟩
    · next h =>
      split
      · next h2 =>
        subst h2
        simp only [Memory.risingFrom, Bool.and_eq_true, decide_eq_true_eq]
        exact ⟨⟨hl, ha⟩, hm.2⟩
      · next h2 =>
        simp only [Memory.risingFrom, Bool.and_eq_true, decide_eq_true_eq]
        exact ⟨hm.1, risingFrom_put ha (by omega) hm.2⟩

/-- A write of one byte keeps the canonical form. -/
theorem wf_put {m : Memory} {a : Nat} {b : Byte} (ha : a < 2 ^ 32) (h : m.wf = true) : (m.put a b).wf = true :=
  risingFrom_put ha (Nat.zero_le a) h

/-- A write of consecutive bytes below the top of the address space keeps the canonical form. -/
theorem wf_putBytes : ∀ (bs : List Byte) {m : Memory} {a : Nat}, a + bs.length ≤ 2 ^ 32 → m.wf = true →
    (m.putBytes a bs).wf = true
  | [], _, _, _, h => h
  | b :: bs, m, a, hl, h => by
    simp only [List.length_cons] at hl
    exact wf_putBytes bs (by omega) (wf_put (by omega) h)

/-- MemWrite keeps the canonical form of the state's memory. -/
theorem wf_memWrite {s t : State} {addr : Word} {n : Nat} {v : BitVec (8 * n)} (h : s.mem.wf = true)
    (ht : s.memWrite addr n v = .ok t) : t.mem.wf = true := by
  have hlen : (orderedBytes s.config.bigEndian n v).length = n := by
    cases hb : s.config.bigEndian <;> simp [orderedBytes]
  unfold State.memWrite State.loadBlock at ht
  split at ht
  · next bs hok =>
    split at hok
    · exact absurd hok (by simp)
    · next hfit =>
      simp only [Except.ok.injEq] at ht
      subst ht
      exact wf_putBytes _ (by omega) h
  · exact absurd ht (by simp)

/-- Reset memory, which lists nothing, has the canonical form. -/
theorem wf_reset : State.reset.mem.wf = true := rfl

/-- The byte at an address after a byte was written. -/
theorem byte?_put (a : Nat) (b : Byte) (x : Nat) :
    ∀ {m : Memory}, (m.put a b).byte? x = if x = a then some b else m.byte? x
  | [] => by
    by_cases h : x = a
    · simp [Memory.put, Memory.byte?, h]
    · simp [Memory.put, Memory.byte?, h, Ne.symm h]
  | c :: cs => by
    rw [Memory.put]
    split
    · by_cases h : x = a
      · simp [Memory.byte?, h]
      · simp [Memory.byte?, h, Ne.symm h]
    · split
      · next h1 h2 =>
        by_cases h : x = a
        · simp [Memory.byte?, h]
        · simp [Memory.byte?, h, Ne.symm h, ← h2]
      · next h1 h2 =>
        simp only [Memory.byte?]
        by_cases h : c.1 = x
        · have : x ≠ a := by omega
          simp [h, this]
        · simp [h, byte?_put a b x (m := cs)]

/-- A block read answers its bytes exactly when every one is present. -/
theorem readBlock_ok_iff (m : Memory) : ∀ (n a : Nat) (bs : List Byte),
    m.readBlock a n = .ok bs ↔ bs.length = n ∧ ∀ i (h : i < bs.length), m.byte? (a + i) = some bs[i]
  | 0, a, bs => by
    simp only [Memory.readBlock, Except.ok.injEq]
    constructor
    · rintro rfl
      simp
    · rintro ⟨h, _⟩
      exact (List.length_eq_zero_iff.mp h).symm
  | n + 1, a, bs => by
    rw [Memory.readBlock]
    cases hb : m.byte? a with
    | none =>
      simp only [reduceCtorEq, false_iff, not_and]
      intro hl hall
      have := hall 0 (by omega)
      simp [hb] at this
    | some b =>
      cases hr : m.readBlock (a + 1) n with
      | error x =>
        simp only [reduceCtorEq, false_iff, not_and]
        intro hl hall
        have hne : m.readBlock (a + 1) n = .ok bs.tail := by
          rw [readBlock_ok_iff m n]
          refine ⟨by simp [hl], fun i hi => ?_⟩
          have hi' : i + 1 < bs.length := by simp at hi; omega
          have := hall (i + 1) hi'
          rw [List.getElem_tail, show a + 1 + i = a + (i + 1) by omega]
          exact this
        simp [hr] at hne
      | ok bs' =>
        rw [readBlock_ok_iff m n] at hr
        obtain ⟨hl', hall'⟩ := hr
        simp only [Except.ok.injEq]
        constructor
        · rintro rfl
          refine ⟨by simp [hl'], fun i hi => ?_⟩
          cases i with
          | zero => simpa using hb
          | succ i =>
            have := hall' i (by simpa using hi)
            rw [show a + (i + 1) = a + 1 + i by omega]
            simpa using this
        · rintro ⟨hl, hall⟩
          refine List.ext_getElem (by simp [hl, hl']) fun i h1 h2 => ?_
          cases i with
          | zero =>
            have := hall 0 h2
            rw [Nat.add_zero, hb] at this
            simpa using this
          | succ i =>
            have h3 := hall (i + 1) h2
            have h4 := hall' i (by simpa using h1)
            rw [show a + (i + 1) = a + 1 + i by omega] at h3
            rw [h4] at h3
            simpa using h3

/-- A block read that answers no bytes names its lowest absent address. -/
theorem readBlock_error_iff (m : Memory) : ∀ (n a x : Nat),
    m.readBlock a n = .error x ↔
      a ≤ x ∧ x < a + n ∧ m.byte? x = none ∧ ∀ y, a ≤ y → y < x → (m.byte? y).isSome = true
  | 0, a, x => by
    simp only [Memory.readBlock, reduceCtorEq, false_iff]
    omega
  | n + 1, a, x => by
    rw [Memory.readBlock]
    cases hb : m.byte? a with
    | none =>
      simp only [Except.error.injEq]
      constructor
      · rintro rfl
        exact ⟨le_refl _, by omega, hb, fun y h1 h2 => by omega⟩
      · rintro ⟨h1, h2, h3, h4⟩
        by_contra hne
        have := h4 a (le_refl _) (by omega)
        simp [hb] at this
    | some b =>
      have ih := readBlock_error_iff m n (a + 1) x
      have hkey : (∃ e, m.readBlock (a + 1) n = .error e ∧ e = x) ↔
          a ≤ x ∧ x < a + (n + 1) ∧ m.byte? x = none ∧ ∀ y, a ≤ y → y < x → (m.byte? y).isSome = true := by
        constructor
        · rintro ⟨e, he, rfl⟩
          obtain ⟨h1, h2, h3, h4⟩ := ih.mp he
          refine ⟨by omega, by omega, h3, fun y hy1 hy2 => ?_⟩
          rcases Nat.eq_or_lt_of_le hy1 with h | h
          · simp [← h, hb]
          · exact h4 y (by omega) hy2
        · rintro ⟨h1, h2, h3, h4⟩
          have hax : a ≠ x := by
            rintro rfl
            simp [hb] at h3
          exact ⟨x, ih.mpr ⟨by omega, by omega, h3, fun y hy1 hy2 => h4 y (by omega) hy2⟩, rfl⟩
      rw [← hkey]
      cases m.readBlock (a + 1) n <;> simp

/-- What a block load answers (20 R31, 60 R124): its bytes, when it fits and every byte is present. -/
theorem loadBlock_ok_iff (s : State) (addr : Word) (n : Nat) (bs : List Byte) :
    s.loadBlock addr n = .ok bs ↔
      addr.toNat + n ≤ 2 ^ 32 ∧ bs.length = n ∧ ∀ i (h : i < bs.length), s.mem.byte? (addr.toNat + i) = some bs[i] := by
  unfold State.loadBlock
  split
  · next h =>
    simp only [reduceCtorEq, false_iff, not_and]
    omega
  · next h =>
    rw [← readBlock_ok_iff]
    have hfit : addr.toNat + n ≤ 2 ^ 32 := by omega
    rw [and_iff_right hfit]
    cases hr : s.mem.readBlock addr.toNat n <;> simp

/-- What a block load answers otherwise: MemFault with the block's first address when it would wrap, and with the lowest
absent address when a byte is absent (20 R31, 60 R124). -/
theorem loadBlock_error_cases {s : State} {addr : Word} {n : Nat} {f : Fault} (h : s.loadBlock addr n = .error f) :
    (2 ^ 32 < addr.toNat + n ∧ f = .memFault addr) ∨
      (addr.toNat + n ≤ 2 ^ 32 ∧ ∃ x, f = .memFault (BitVec.ofNat 32 x) ∧ addr.toNat ≤ x ∧ x < addr.toNat + n ∧
        s.mem.byte? x = none ∧ ∀ y, addr.toNat ≤ y → y < x → (s.mem.byte? y).isSome = true) := by
  unfold State.loadBlock at h
  split at h
  · next hw =>
    simp only [Except.error.injEq] at h
    exact .inl ⟨hw, h.symm⟩
  · next hw =>
    cases hr : s.mem.readBlock addr.toNat n with
    | ok bs => simp [hr] at h
    | error x =>
      simp only [hr, Except.error.injEq] at h
      exact .inr ⟨by omega, x, h.symm, (readBlock_error_iff _ _ _ _).mp hr⟩

/-- The byte at an address after consecutive bytes were written: the one written there, or the one before. -/
theorem byte?_putBytes : ∀ (bs : List Byte) (m : Memory) (a x : Nat),
    (m.putBytes a bs).byte? x = if h : a ≤ x ∧ x - a < bs.length then some (bs[x - a]'h.2) else m.byte? x
  | [], m, a, x => by simp [Memory.putBytes]
  | b :: bs, m, a, x => by
    rw [Memory.putBytes, byte?_putBytes bs]
    by_cases h : a + 1 ≤ x ∧ x - (a + 1) < bs.length
    · have hx : x - a = x - (a + 1) + 1 := by omega
      rw [dif_pos h, dif_pos (by simp only [List.length_cons]; omega)]
      simp only [hx, List.getElem_cons_succ]
    · rw [dif_neg h, byte?_put]
      split
      · next hx =>
        subst hx
        simp
      · rw [dif_neg (by simp only [List.length_cons]; omega)]

/-! ## Bytes and values (20 R32) -/

/-- Bit `i` of byte `k` of a value made of bytes. -/
theorem getLsbD_valueOfBytes (w : Nat) : ∀ (bs : List Byte) (k i : Nat), i < 8 → 8 * k + i < w →
    (valueOfBytes w bs).getLsbD (8 * k + i) = (bs[k]?.getD 0).getLsbD i
  | [], k, i, _, _ => by simp [valueOfBytes]
  | b :: bs, 0, i, hi, hk => by
    simp [valueOfBytes, hi]
    omega
  | b :: bs, k + 1, i, hi, hk => by
    have h1 : ¬ 8 * (k + 1) + i < 8 := by omega
    have h2 : b.getLsbD (8 * (k + 1) + i) = false := BitVec.getLsbD_of_ge _ _ (by omega)
    simp only [valueOfBytes, BitVec.getLsbD_or, BitVec.getLsbD_shiftLeft, BitVec.getLsbD_setWidth]
    rw [show 8 * (k + 1) + i - 8 = 8 * k + i by omega, getLsbD_valueOfBytes w bs k i hi (by omega)]
    simp [hk, h1, h2]

/-- Byte `k` of a value made of bytes. -/
theorem elem_valueOfBytes {w : Nat} {bs : List Byte} {k : Nat} (h : k < bs.length) (hw : 8 * k + 8 ≤ w) :
    elem (valueOfBytes w bs) k 8 = bs[k] :=
  BitVec.eq_of_getLsbD_eq fun i hi => by
    rw [getLsbD_elem, Nat.mul_comm k 8, getLsbD_valueOfBytes _ _ _ _ hi (by omega)]
    simp [hi, h]

/-- Byte `k` of a value read in the byte order: the byte at place `k`, with big-endian data at place `n - 1 - k`. -/
theorem elem_orderedValue {w n : Nat} {bs : List Byte} {k : Nat} (be : Bool) (hn : bs.length = n) (h : k < n)
    (hw : 8 * n ≤ w) : some (elem (orderedValue be w bs) k 8) = bs[if be then n - 1 - k else k]? := by
  unfold orderedValue
  cases be
  · simp only [Bool.false_eq_true, if_false]
    rw [elem_valueOfBytes (by omega) (by omega)]
    simp
  · simp only [if_true]
    rw [elem_valueOfBytes (by simp only [List.length_reverse]; omega) (by omega), List.getElem_reverse,
      ← List.getElem?_eq_getElem, hn]

end Sys2Proof.Machine
end

