-- ==== Sys2Proof/Laws/Registers.lean ====
section
/-! SUPPORT. Registers.lean: reads after writes of the register files (spec 10 R10 to R17). -/

namespace Sys2Proof.Machine

variable (s : State)

theorem readR_writeR (i j : Fin 15) (v : Word) : (s.writeR i v).readR j = if j = i then v else s.readR j := by
  simp only [State.readR, writeR_regs, Fin.getElem_fin, Vector.getElem_set, Fin.ext_iff, eq_comm (a := i.val)]

@[simp] theorem readR_writeR_same (i : Fin 15) (v : Word) : (s.writeR i v).readR i = v := by
  simp [readR_writeR]

theorem readD_writeD (i j : DNum) (v : DWord) : (s.writeD i v).readD j = if j = i then v else s.readD j := by
  simp only [State.readD, writeD_dregs, Fin.getElem_fin, Vector.getElem_set, Fin.ext_iff, eq_comm (a := i.val)]

@[simp] theorem readD_writeD_same (i : DNum) (v : DWord) : (s.writeD i v).readD i = v := by
  simp [readD_writeD]

/-- A doubleword register file is determined by its reads. -/
theorem dregs_ext {s t : State} (h : ∀ i, s.readD i = t.readD i) : s.dregs = t.dregs :=
  Vector.ext fun i hi => h ⟨i, hi⟩

/-- A general-purpose register file is determined by its reads. -/
theorem regs_ext {s t : State} (h : ∀ i, s.readR i = t.readR i) : s.regs = t.regs :=
  Vector.ext fun i hi => h ⟨i, hi⟩

/-- Below the end of the numbers `D<d+k>` is the register `k` after `D<d>`. -/
theorem dPlus_val {d : DNum} {k : Nat} (h : d.val + k < 32) : (dPlus d k).val = d.val + k := by
  simp [dPlus, Nat.mod_eq_of_lt h]

@[simp] theorem dPlus_zero (d : DNum) : dPlus d 0 = d := by
  ext
  simp [dPlus]

/-- What a register reads after consecutive registers were written: the value at its place in the list, or what it read
before. -/
theorem readD_writeDs : ∀ (vs : List DWord) (s : State) (d j : DNum), d.val + vs.length ≤ 32 →
    (s.writeDs d vs).readD j =
      if h : d.val ≤ j.val ∧ j.val - d.val < vs.length then vs[j.val - d.val]'h.2 else s.readD j
  | [], s, d, j, _ => by simp [State.writeDs]
  | v :: vs, s, d, j, hb => by
    rw [State.writeDs]
    simp only [List.length_cons] at hb
    by_cases hv : vs = []
    · subst hv
      by_cases hj : j = d
      · subst hj
        simp [State.writeDs]
      · have : j.val ≠ d.val := fun h => hj (Fin.ext h)
        have h2 : ¬ (d.val ≤ j.val ∧ j.val - d.val < 1) := by omega
        rw [dif_neg (by simpa using h2), State.writeDs, readD_writeD, if_neg hj]
    · have hl : 0 < vs.length := List.length_pos_iff.mpr hv
      have hd : (dPlus d 1).val = d.val + 1 := dPlus_val (by omega)
      rw [readD_writeDs vs (s.writeD d v) (dPlus d 1) j (by omega), readD_writeD]
      by_cases hj : j = d
      · subst hj
        simp [hd]
      · have hne : j.val ≠ d.val := fun h => hj (Fin.ext h)
        by_cases h : d.val + 1 ≤ j.val ∧ j.val - (d.val + 1) < vs.length
        · have h2 : d.val ≤ j.val ∧ j.val - d.val < vs.length + 1 := by omega
          have h3 : j.val - d.val = (j.val - (d.val + 1)) + 1 := by omega
          rw [dif_pos (by rw [hd]; exact h), dif_pos (by simpa using h2)]
          simp only [hd, h3, List.getElem_cons_succ]
        · have h2 : ¬ (d.val ≤ j.val ∧ j.val - d.val < vs.length + 1) := by omega
          rw [dif_neg (by rw [hd]; exact h), dif_neg (by simpa using h2), if_neg hj]

@[simp] theorem length_vaddResults (o : VaddOperands) : (vaddResults s o).length = regsOfQ o.quad := by
  simp [vaddResults]

@[simp] theorem length_loadedRegisters (be : Bool) (k : ElemSize) (regs : Nat) (bs : List Byte) :
    (loadedRegisters be k regs bs).length = regs := by
  simp [loadedRegisters]

theorem qFirst_ne_qSecond (k k' : Fin 16) : qFirst k ≠ qSecond k' := by
  simp only [qFirst, qSecond, ne_eq, Fin.mk.injEq]
  omega

/-- What a doubleword register reads after a quadword register was written: the half it is, or what it read before (10 R15,
R16). -/
theorem readD_writeQ (k : Fin 16) (v : QWord) (j : DNum) :
    (s.writeQ k v).readD j =
      if j = qFirst k then v.extractLsb' 0 64 else if j = qSecond k then v.extractLsb' 64 64 else s.readD j := by
  simp only [State.writeQ, readD_writeD]
  by_cases h : j = qFirst k
  · subst h
    simp [qFirst_ne_qSecond]
  · simp [h]

end Sys2Proof.Machine
end

