-- ==== Sys2Proof/Laws/Meanings.lean ====
section
/-! SUPPORT. Meanings.lean: what each meaning answers when it answers a next state, said once (spec 44 R111 to R115), and the
one shape that every instruction's next state has. -/

namespace Sys2Proof.Machine

/-- Registers exist when their numbers end at the bank's end or before (10 R14). -/
@[simp] theorem inBank_iff (c : Config) (i : DNum) (k : Nat) : inBank c i k = true ↔ i.val + k ≤ c.numDregs := by
  simp [inBank]

/-- A list fits when its last number is one of the bank's (43 R97). -/
@[simp] theorem listFits_iff (c : Config) (d k inc : Nat) : listFits c d k inc = true ↔ d + (k - 1) * inc < c.numDregs := by
  simp [listFits]

/-- A field that is not odd holds an even number (30 R46). -/
@[simp] theorem oddField_false_iff (i : DNum) : oddField i = false ↔ i.val % 2 = 0 := by
  simp [oddField]

/-- Every register number of a run of `k` that fits the bank is below 32. -/
theorem inBank_lt {c : Config} {i : DNum} {k : Nat} (h : inBank c i k = true) : i.val + k ≤ 32 := by
  have hc : c.numDregs ≤ 32 := by
    unfold Config.numDregs
    cases c.bank <;> decide
  simp only [inBank, decide_eq_true_eq] at h
  omega

/-- The bank has 16 or 32 registers. -/
theorem numDregs_cases (c : Config) : c.numDregs = 16 ∨ c.numDregs = 32 := by
  unfold Config.numDregs
  cases c.bank <;> simp [DBank.count]

/-- A register number names R0 to R14 exactly when it is that register's (10 R11). -/
theorem gprOf?_eq_some_iff {n : Fin 16} {r : Fin 15} : gprOf? n = some r ↔ n.val = r.val := by
  unfold gprOf?
  split
  · simp [Fin.ext_iff]
  · simp only [reduceCtorEq, false_iff]
    omega

/-- An address has no Alignment fault exactly when it is a multiple of the alignment required (20 R33). -/
theorem alignFault?_none_iff (c : Config) (size : ElemSize) (a : AlignSpec) (addr : Word) :
    alignFault? c size a addr = none ↔ addr.toNat % requiredAlign c size a = 0 := by
  unfold alignFault?
  split <;> simp_all

/-- VADD has no fault exactly when SIMD is enabled, no quadword field is odd and every register exists (44 R112). -/
theorem vaddFault?_none_iff (c : Config) (o : VaddOperands) :
    vaddFault? c o = none ↔
      c.simdEnabled = true ∧ (o.quad = true → oddField o.d = false ∧ oddField o.n = false ∧ oddField o.m = false) ∧
      inBank c o.d (regsOfQ o.quad) = true ∧ inBank c o.n (regsOfQ o.quad) = true ∧
      inBank c o.m (regsOfQ o.quad) = true := by
  unfold vaddFault?
  cases c.simdEnabled <;> cases o.quad <;> cases oddField o.d <;> cases oddField o.n <;> cases oddField o.m <;>
    simp [and_assoc]

/-- VSUBW has no fault exactly when SIMD is enabled, no quadword field is odd and every register exists (44 R113). -/
theorem vsubwFault?_none_iff (c : Config) (o : VsubwOperands) :
    vsubwFault? c o = none ↔
      c.simdEnabled = true ∧ oddField o.d = false ∧ oddField o.n = false ∧
      inBank c (qFirst (qOf o.d)) 2 = true ∧ inBank c (qFirst (qOf o.n)) 2 = true ∧ inBank c o.m 1 = true := by
  unfold vsubwFault?
  cases c.simdEnabled <;> cases oddField o.d <;> cases oddField o.n <;> simp [and_assoc]

/-- VMOVN has no fault exactly when SIMD is enabled, the size is not 0b11, the quadword field is not odd and the registers
exist (44 R114). -/
theorem vmovnFault?_none_iff (c : Config) (o : VmovnOperands) :
    vmovnFault? c o = none ↔
      c.simdEnabled = true ∧ o.size ≠ .e64 ∧ oddField o.m = false ∧
      inBank c o.d 1 = true ∧ inBank c (qFirst (qOf o.m)) 2 = true := by
  unfold vmovnFault?
  cases c.simdEnabled <;> cases oddField o.m <;> cases o.size <;> simp

/-- VLD1 settles on a base register exactly when SIMD is enabled, the alignment is permitted, the first register exists, the
base is not the pc and the list fits (44 R115). -/
theorem vld1Base_ok_iff (c : Config) (regs : Nat) (o : Vld1Operands) (rn : Fin 15) :
    vld1Base c regs o = .ok rn ↔
      c.simdEnabled = true ∧ alignPermitted regs o.align = true ∧ inBank c o.d 1 = true ∧
      gprOf? o.rn = some rn ∧ listFits c o.d.val regs 1 = true := by
  unfold vld1Base
  cases c.simdEnabled <;> cases alignPermitted regs o.align <;> cases inBank c o.d 1 <;>
    cases gprOf? o.rn <;> cases listFits c o.d.val regs 1 <;> simp

/-- A two-way outcome on an optional fault answers a next state only without the fault. -/
theorem next_of_noFault {x : Option Fault} {o : Host.Outcome State Fault Refusal} {t : State}
    (h : (match x with
      | some f => Host.Outcome.fault f
      | none => o) = .next t) : x = none ∧ o = .next t := by
  cases x with
  | none => exact ⟨rfl, h⟩
  | some f => exact absurd h (by simp)

/-- VADD's next state. -/
theorem vadd_next {o : VaddOperands} {s t : State} (h : vadd o s = .next t) :
    vaddFault? s.config o = none ∧ t = (s.writeDs o.d (vaddResults s o)).advance := by
  obtain ⟨h1, h2⟩ := next_of_noFault h
  exact ⟨h1, (Host.Outcome.next.inj h2).symm⟩

/-- VSUBW's next state. -/
theorem vsubw_next {o : VsubwOperands} {s t : State} (h : vsubw o s = .next t) :
    vsubwFault? s.config o = none ∧
      t = (s.writeQ (qOf o.d) (subWideLanes o.isUnsigned o.size (s.readQ (qOf o.n)) (s.readD o.m))).advance := by
  obtain ⟨h1, h2⟩ := next_of_noFault h
  exact ⟨h1, (Host.Outcome.next.inj h2).symm⟩

/-- VMOVN's next state. -/
theorem vmovn_next {o : VmovnOperands} {s t : State} (h : vmovn o s = .next t) :
    vmovnFault? s.config o = none ∧ t = (s.writeD o.d (narrowLanes o.size (s.readQ (qOf o.m)))).advance := by
  obtain ⟨h1, h2⟩ := next_of_noFault h
  exact ⟨h1, (Host.Outcome.next.inj h2).symm⟩

/-- VLD1's next state. -/
theorem vld1_next {regs : Nat} {o : Vld1Operands} {s t : State} (h : vld1 regs o s = .next t) :
    ∃ rn bs, vld1Base s.config regs o = .ok rn ∧ alignFault? s.config o.size o.align (s.readR rn) = none ∧
      s.loadBlock (s.readR rn) (transferSize regs) = .ok bs ∧
      t = (writeBack s rn (transferSize regs) o.format
        (s.writeDs o.d (loadedRegisters s.config.bigEndian o.size regs bs))).advance := by
  unfold vld1 at h
  cases hb : vld1Base s.config regs o with
  | error f => simp [hb] at h
  | ok rn =>
    simp only [hb] at h
    obtain ⟨ha, h⟩ := next_of_noFault h
    cases hl : s.loadBlock (s.readR rn) (transferSize regs) with
    | error f => simp [hl] at h
    | ok bs =>
      simp only [hl] at h
      exact ⟨rn, bs, rfl, ha, hl, (Host.Outcome.next.inj h).symm⟩

/-- What any instruction does to the state when it completes: consecutive registers of the bank are written, at most one
general-purpose register is, and the pc moves on. -/
def CompletesAs (s t : State) : Prop :=
  ∃ (d : DNum) (vs : List DWord), d.val + vs.length ≤ s.config.numDregs ∧
    (t = (s.writeDs d vs).advance ∨ ∃ rn v, t = ((s.writeDs d vs).writeR rn v).advance)

theorem vadd_completesAs {o : VaddOperands} {s t : State} (h : vadd o s = .next t) : CompletesAs s t := by
  obtain ⟨hf, rfl⟩ := vadd_next h
  obtain ⟨-, -, hd, -, -⟩ := (vaddFault?_none_iff _ _).mp hf
  refine ⟨o.d, vaddResults s o, ?_, .inl rfl⟩
  simpa [inBank] using hd

theorem vsubw_completesAs {o : VsubwOperands} {s t : State} (h : vsubw o s = .next t) : CompletesAs s t := by
  obtain ⟨hf, rfl⟩ := vsubw_next h
  obtain ⟨-, -, -, hd, -, -⟩ := (vsubwFault?_none_iff _ _).mp hf
  generalize subWideLanes o.isUnsigned o.size (s.readQ (qOf o.n)) (s.readD o.m) = v
  refine ⟨qFirst (qOf o.d), [v.extractLsb' 0 64, v.extractLsb' 64 64], ?_, .inl ?_⟩
  · simpa [inBank] using hd
  · have hs : dPlus (qFirst (qOf o.d)) 1 = qSecond (qOf o.d) := by
      ext
      rw [dPlus_val (by simp only [qFirst]; omega)]
      rfl
    simp only [State.writeDs, hs, State.writeQ]

theorem vmovn_completesAs {o : VmovnOperands} {s t : State} (h : vmovn o s = .next t) : CompletesAs s t := by
  obtain ⟨hf, rfl⟩ := vmovn_next h
  obtain ⟨-, -, -, hd, -⟩ := (vmovnFault?_none_iff _ _).mp hf
  exact ⟨o.d, [_], by simpa [inBank] using hd, .inl rfl⟩

theorem vld1_completesAs {regs : Nat} (hr : 0 < regs) {o : Vld1Operands} {s t : State} (h : vld1 regs o s = .next t) :
    CompletesAs s t := by
  obtain ⟨rn, bs, hb, -, -, rfl⟩ := vld1_next h
  obtain ⟨-, -, -, -, hd⟩ := (vld1Base_ok_iff _ _ _ _).mp hb
  refine ⟨o.d, loadedRegisters s.config.bigEndian o.size regs bs, ?_, ?_⟩
  · simp only [listFits, decide_eq_true_eq] at hd
    simp only [length_loadedRegisters]
    omega
  · rcases writeBack_cases (s.writeDs o.d (loadedRegisters s.config.bigEndian o.size regs bs)) s rn
      (transferSize regs) o.format with ⟨-, hw⟩ | ⟨-, hw⟩
    · exact .inl (by rw [hw])
    · exact .inr ⟨rn, _, by rw [hw]⟩

/-- Every instruction that answers a next state completes so. -/
theorem exec_completesAs {i : Instr} {s t : State} (h : exec i s = .next t) : CompletesAs s t := by
  cases i with
  | vaddA32 o => exact vadd_completesAs (o := o) h
  | vaddT32 o => exact vadd_completesAs (o := o) h
  | vsubwA32 o => exact vsubw_completesAs (o := o) h
  | vsubwT32 o => exact vsubw_completesAs (o := o) h
  | vmovnA32 o => exact vmovn_completesAs (o := o) h
  | vmovnT32 o => exact vmovn_completesAs (o := o) h
  | vld1OneA32 o => exact vld1_completesAs (regs := 1) (by omega) (o := o) h
  | vld1OneT32 o => exact vld1_completesAs (regs := 1) (by omega) (o := o) h
  | vld1TwoA32 o => exact vld1_completesAs (regs := 2) (by omega) (o := o) h
  | vld1TwoT32 o => exact vld1_completesAs (regs := 2) (by omega) (o := o) h
  | vld1ThreeA32 o => exact vld1_completesAs (regs := 3) (by omega) (o := o) h
  | vld1ThreeT32 o => exact vld1_completesAs (regs := 3) (by omega) (o := o) h
  | vld1FourA32 o => exact vld1_completesAs (regs := 4) (by omega) (o := o) h
  | vld1FourT32 o => exact vld1_completesAs (regs := 4) (by omega) (o := o) h

/-- What a step that answers a next state did: no stop was recorded, a word was fetched and decoded, and its instruction
completed. -/
theorem step_next {s t : State} (h : step s = .next t) :
    s.faultRecord = none ∧ s.refusalMark = none ∧
      ∃ w i, s.fetch = .ok w ∧ decode s.config.instrSet w = .ok i ∧ exec i s = .next t := by
  unfold step at h
  cases hf : s.faultRecord with
  | some f => simp [hf] at h
  | none =>
    cases hm : s.refusalMark with
    | some r => simp [hf, hm] at h
    | none =>
      cases hw : s.fetch with
      | error r => simp [hf, hm, hw] at h
      | ok w =>
        simp only [hf, hm, hw, runWord] at h
        cases hd : decode s.config.instrSet w with
        | error e => simp [hd] at h
        | ok i =>
          simp only [hd] at h
          exact ⟨rfl, rfl, w, i, rfl, hd, h⟩

/-- What a fetch that answers a word did: the pc stands a multiple of 4 above the base, at a word of the text (70 R132). -/
theorem fetch_ok {s : State} {w : Word} (h : s.fetch = .ok w) :
    ∃ j, (s.pc - s.text.base).toNat = 4 * j ∧ s.text.words[j]? = some w := by
  unfold State.fetch at h
  cases hi : s.text.index? s.pc with
  | none =>
    simp only [hi] at h
    split at h <;> simp at h
  | some j =>
    simp only [hi] at h
    cases hj : s.text.words[j]? with
    | none => simp [hj] at h
    | some v =>
      simp only [hj, Except.ok.injEq] at h
      subst h
      simp only [ProgramText.index?] at hi
      split at hi
      · next hc =>
        simp only [Option.some.injEq] at hi
        exact ⟨j, by omega, hj⟩
      · simp at hi

end Sys2Proof.Machine
end

