-- ==== Sys2Proof/Laws/Launch.lean ====
section
/-! SUPPORT. Launch.lean: what the launch discipline does, said once (spec 10 R24, 60 R120, R126, 92 D9): parts of registers,
the first register without a value, decode faults, a stop that stays, and what every launch state has. -/

namespace Sys2Proof.Machine

/-- The registers of a run that stays below 32 are those of its numbers. -/
theorem mem_dRun {d j : DNum} {k : Nat} (hb : d.val + k ≤ 32) : j ∈ dRun d k ↔ d.val ≤ j.val ∧ j.val < d.val + k := by
  simp only [dRun, List.mem_map, List.mem_range]
  constructor
  · rintro ⟨r, hr, rfl⟩
    rw [dPlus_val (by omega)]
    omega
  · exact fun h => ⟨j.val - d.val, by omega, by ext; rw [dPlus_val (by omega)]; omega⟩

/-! ## Parts (92 D9) -/

/-- No general-purpose register is a part of a doubleword register. -/
@[simp] theorem gpr_not_mem_partsOfD (d : DNum) (r : Fin 15) : RegPart.gpr r ∉ partsOfD d := by
  unfold partsOfD
  split <;> simp

/-- `S<j>` is a part of `D<j div 2>` alone (10 R17). -/
@[simp] theorem single_mem_partsOfD (d : DNum) (j : Fin 32) : RegPart.single j ∈ partsOfD d ↔ d.val = j.val / 2 := by
  unfold partsOfD
  split
  · simp only [List.mem_cons, RegPart.single.injEq, Fin.ext_iff, List.not_mem_nil, or_false]
    omega
  · simp only [List.mem_cons, reduceCtorEq, List.not_mem_nil, or_false, false_iff]
    omega

/-- D16 to D31 are parts of themselves alone. -/
@[simp] theorem upper_mem_partsOfD (d : DNum) (k : Fin 16) : RegPart.upper k ∈ partsOfD d ↔ d.val = k.val + 16 := by
  unfold partsOfD
  split
  · simp only [List.mem_cons, reduceCtorEq, List.not_mem_nil, or_false, false_iff]
    omega
  · simp only [List.mem_cons, RegPart.upper.injEq, Fin.ext_iff, List.not_mem_nil, or_false]
    omega

/-- `R<r>` has a value exactly when its part does. -/
theorem hasR_iff (l : Launched) (r : Fin 15) : l.hasR r = true ↔ RegPart.gpr r ∈ l.valued := by
  simp [Launched.hasR]

/-- `D<d>` has a value exactly when each of its parts does. -/
theorem hasD_iff (l : Launched) (d : DNum) : l.hasD d = true ↔ ∀ p ∈ partsOfD d, p ∈ l.valued := by
  simp [Launched.hasD]

/-- After the writes of a footprint, a part has a value when it had one or is a part of a register written. -/
theorem mem_valued_afterWrites (l : Launched) (f : Footprint) (t : State) (p : RegPart) :
    p ∈ (l.afterWrites f t).valued ↔ p ∈ l.valued ∨ ∃ d ∈ f.writesD, p ∈ partsOfD d := by
  simp only [Launched.afterWrites, List.mem_append, List.mem_flatMap]
  exact or_comm

/-! ## The first register without a value (60 R126) -/

/-- Nothing is unwritten exactly when every register read has a value. -/
theorem unwritten?_eq_none_iff (l : Launched) (f : Footprint) :
    l.unwritten? f = none ↔ (∀ r ∈ f.readsR, l.hasR r = true) ∧ ∀ d ∈ f.readsD, l.hasD d = true := by
  unfold Launched.unwritten?
  split
  · next r hr =>
    obtain ⟨hm, hv⟩ : r ∈ f.readsR ∧ l.hasR r = false := by simpa using List.find?_some hr
    simp only [reduceCtorEq, false_iff]
    intro h
    simp [h.1 r hm] at hv
  · next h =>
    have hR : ∀ r ∈ f.readsR, l.hasR r = true := by simpa using h
    simpa using fun _ => hR

/-- The register named is one that is read and has no value. -/
theorem unwritten?_eq_some {l : Launched} {f : Footprint} {x : RegName} (h : l.unwritten? f = some x) :
    match x with
    | .r r => r ∈ f.readsR ∧ l.hasR r = false
    | .d d => d ∈ f.readsD ∧ l.hasD d = false := by
  unfold Launched.unwritten? at h
  split at h
  · next r hr =>
    obtain rfl := Option.some.inj h
    simpa using List.find?_some hr
  · obtain ⟨d, hd, rfl⟩ := Option.map_eq_some_iff.mp h
    simpa using List.find?_some hd

/-! ## Steps -/

/-- A VLD1 with an Undefined or Unpredictable condition ends in it (44 R115). -/
theorem vld1_of_fault {regs : Nat} {o : Vld1Operands} {s : State} {f : Fault} (h : vld1Fault? s.config regs o = some f) :
    vld1 regs o s = .fault f := by
  unfold vld1Fault? at h
  split at h
  · simp at h
  · next hb => simpa [vld1, hb] using h

/-- The Undefined or Unpredictable fault of an instruction is the fault it ends in (44 R111 step 4). -/
theorem exec_of_decodeFault {i : Instr} {s : State} {f : Fault} (h : decodeFault? s.config i = some f) :
    exec i s = .fault f := by
  cases i
  case vaddA32 o => exact (show vadd o s = _ by simp only [vadd, show vaddFault? s.config o = some f from h])
  case vaddT32 o => exact (show vadd o s = _ by simp only [vadd, show vaddFault? s.config o = some f from h])
  case vsubwA32 o => exact (show vsubw o s = _ by simp only [vsubw, show vsubwFault? s.config o = some f from h])
  case vsubwT32 o => exact (show vsubw o s = _ by simp only [vsubw, show vsubwFault? s.config o = some f from h])
  case vmovnA32 o => exact (show vmovn o s = _ by simp only [vmovn, show vmovnFault? s.config o = some f from h])
  case vmovnT32 o => exact (show vmovn o s = _ by simp only [vmovn, show vmovnFault? s.config o = some f from h])
  case vld1OneA32 o => exact vld1_of_fault (o := o) h
  case vld1OneT32 o => exact vld1_of_fault (o := o) h
  case vld1TwoA32 o => exact vld1_of_fault (o := o) h
  case vld1TwoT32 o => exact vld1_of_fault (o := o) h
  case vld1ThreeA32 o => exact vld1_of_fault (o := o) h
  case vld1ThreeT32 o => exact vld1_of_fault (o := o) h
  case vld1FourA32 o => exact vld1_of_fault (o := o) h
  case vld1FourT32 o => exact vld1_of_fault (o := o) h

/-- A launch step at a word that decodes, with nothing recorded, is the instruction under the launch discipline. -/
theorem launchStep_of_decode {l : Launched} {w : Word} {i : Instr} (hf : l.machine.faultRecord = none)
    (hm : l.machine.refusalMark = none) (hw : l.machine.fetch = .ok w) (hd : decode l.machine.config.instrSet w = .ok i) :
    launchStep l = launchExec i l := by
  simp only [launchStep, hf, hm, hw, hd]

/-- A recorded fault is what every later launch step ends in (60 R120). -/
@[simp] theorem launchStep_recordFault (l : Launched) (f : Fault) : launchStep (l.recordFault f) = .fault f := rfl

/-- Once a fault is recorded the launched run stays where it is. -/
@[simp] theorem runFor_recordFault (l : Launched) (f : Fault) (n : Nat) : (l.recordFault f).runFor n = l.recordFault f := by
  induction n with
  | zero => rfl
  | succ n ih => exact ih

/-! ## The launch state -/

/-- What holds at the start of a fold and is kept by each of its members holds at its end. -/
theorem foldl_keeps {α β : Type} {P : β → Prop} {f : β → α → β} :
    ∀ (xs : List α) (b : β), P b → (∀ b, ∀ x ∈ xs, P b → P (f b x)) → P (xs.foldl f b)
  | [], _, hb, _ => hb
  | x :: xs, b, hb, hf =>
    foldl_keeps xs _ (hf b x (by simp) hb) fun b y hy => hf b y (by simp [hy])

/-- The launch's entry is in the program, whose text is well formed (70 R132). -/
def Launch.EntryInProgram (a : Launch) : Prop :=
  a.text.wf = true ∧ a.entry.toNat % 4 = 0 ∧ a.text.base.toNat ≤ a.entry.toNat ∧
  a.entry.toNat ≤ a.text.base.toNat + 4 * a.text.words.length

/-- Whatever a launch names, memory starts in its canonical form. -/
theorem Launch.start_mem_wf (a : Launch) : a.start.machine.mem.wf = true := by
  refine foldl_keeps (P := fun m : Memory => m.wf = true) a.presentBytes [] rfl fun m p hp hm => wf_put ?_ hm
  simpa [Launch.presentBytes] using (List.mem_filter.mp hp).2

/-- Whatever a launch names, the machine starts with the launch's configuration, entry and program, with nothing recorded, and
with the registers that the bank does not have zero. -/
theorem Launch.start_machine (a : Launch) :
    a.start.machine.config = a.config ∧ a.start.machine.pc = a.entry ∧ a.start.machine.text = a.text ∧
    a.start.machine.faultRecord = none ∧ a.start.machine.refusalMark = none ∧
    ∀ d : DNum, inBank a.config d 1 = false → a.start.machine.readD d = 0 := by
  let P : State → Prop := fun s =>
    s.config = a.config ∧ s.pc = a.entry ∧ s.text = a.text ∧ s.faultRecord = none ∧ s.refusalMark = none ∧
    ∀ d : DNum, inBank a.config d 1 = false → s.readD d = 0
  have writeD_keeps (s : State) (i : DNum) (v : DWord) (hi : inBank a.config i 1 = true) (h : P s) : P (s.writeD i v) := by
    obtain ⟨h1, h2, h3, h4, h5, h6⟩ := h
    refine ⟨h1, h2, h3, h4, h5, fun d hd => ?_⟩
    rw [readD_writeD, if_neg (by rintro rfl; simp [hi] at hd)]
    exact h6 d hd
  have h0 : P { State.reset with config := a.config, pc := a.entry, text := a.text } :=
    ⟨rfl, rfl, rfl, rfl, rfl, fun d _ => by simp [State.readD, State.reset]⟩
  have h1 := foldl_keeps (P := P) (f := fun s p => s.writeR p.1 p.2) a.gprs _ h0 fun s p _ h => h
  have h2 := foldl_keeps (P := P) (f := fun s p => s.writeD p.1 p.2) a.presentDoubles _ h1 fun s p hp h =>
    writeD_keeps s p.1 p.2 (List.mem_filter.mp hp).2 h
  have hS (j : Fin 32) : inBank a.config (sHome j) 1 = true := by
    have hc : ∀ k : DBank, 16 ≤ k.count := by intro k; cases k <;> decide
    have := hc a.config.bank
    simp only [inBank, sHome, Config.numDregs]
    exact decide_eq_true (by omega)
  exact foldl_keeps (P := P) (f := fun s p => s.writeS p.1 p.2) a.singles _ h2 fun s p _ h =>
    writeD_keeps s (sHome p.1) (setElem (s.readD (sHome p.1)) (p.1.val % 2) p.2) (hS p.1) h

/-- A launch whose entry is in its program starts in a state with the invariant, whatever registers and addresses it names. -/
theorem Launch.start_inv {a : Launch} (h : a.EntryInProgram) : a.start.machine.inv = true := by
  obtain ⟨h1, h2, h3, -, -, h6⟩ := a.start_machine
  obtain ⟨hw, ha, hl, hu⟩ := h
  have hz : a.start.machine.absentCellsZero = true := by
    simp only [State.absentCellsZero, h1, List.all_eq_true, Bool.or_eq_true, beq_iff_eq]
    intro d _
    cases hd : inBank a.config d 1
    · exact .inr (h6 d hd)
    · exact .inl rfl
  simp [State.inv, State.pcAligned, State.pcInProgram, h2, h3, hw, ha, hl, hu, hz, a.start_mem_wf]

end Sys2Proof.Machine
end

