-- ==== Sys2Proof/Laws/PerInstr.lean ====
section
/-! SUPPORT. PerInstr.lean: statements made for each constructor of Instr. The family `EncodedRow` says that the word of every
instruction has the fixed bits of the instruction's own row of spec/opcode_table.json. -/

namespace Sys2Proof.Laws.EncodedRow

open Sys2Proof

/-- The encoding has the fixed bits of a row of the instruction's own set that bears its mnemonic. -/
def Statement (i : Instr) : Prop :=
  ∃ r ∈ rowsOf i.instrSet, r.mnemonic = i.mnemonic ∧ r.hasBits (encode i) = true

/-- A word has the fixed bits when each of its 32 bits under the mask is the row's. -/
theorem hasBits_of_bits {r : Row} {w : Word} (h : ∀ i < 32, (w.getLsbD i && r.mask.getLsbD i) = r.bits.getLsbD i) :
    r.hasBits w = true := by
  simp only [Row.hasBits, decide_eq_true_eq]
  exact BitVec.eq_of_getLsbD_eq fun i hi => by rw [BitVec.getLsbD_and, h i hi]

variable (oa : VaddOperands) (ow : VsubwOperands) (on : VmovnOperands) (ol : Vld1Operands)

theorem vadd_bits (top : BitVec 8) (i : Nat) (hi : i < 32) :
    ((top ++ vaddLow oa).getLsbD i && (0xFF800F10#32).getLsbD i) = (top ++ 0x000800#24).getLsbD i := by
  simp only [vaddLow, BitVec.getLsbD_append]
  interval_cases i <;> simp

theorem vmovn_bits (top : BitVec 8) (i : Nat) (hi : i < 32) :
    ((top ++ vmovnLow on).getLsbD i && (0xFFB30FD0#32).getLsbD i) = (top ++ 0xB20200#24).getLsbD i := by
  simp only [vmovnLow, BitVec.getLsbD_append]
  interval_cases i <;> simp

theorem vsubw_bits_a32 (i : Nat) (hi : i < 32) :
    ((encode (.vsubwA32 ow)).getLsbD i && (0xFE800F50#32).getLsbD i) = (0xF2800300#32).getLsbD i := by
  simp only [encode, vsubwLow, BitVec.getLsbD_append]
  interval_cases i <;> simp

theorem vsubw_bits_t32 (i : Nat) (hi : i < 32) :
    ((encode (.vsubwT32 ow)).getLsbD i && (0xEF800F50#32).getLsbD i) = (0xEF800300#32).getLsbD i := by
  simp only [encode, vsubwLow, BitVec.getLsbD_append]
  interval_cases i <;> simp

theorem vld1_bits (top : BitVec 8) (type : BitVec 4) (i : Nat) (hi : i < 32) :
    ((top ++ vld1Low type ol).getLsbD i && (0xFFB00F00#32).getLsbD i) =
      (top ++ 0x20#8 ++ 0x0#4 ++ type ++ 0x00#8).getLsbD i := by
  simp only [vld1Low, BitVec.getLsbD_append]
  interval_cases i <;> simp

theorem vaddA32 : Statement (.vaddA32 oa) :=
  ⟨rowsA32[0], List.getElem_mem (l := rowsA32) (by decide), rfl, hasBits_of_bits (vadd_bits oa 0xF2#8)⟩

theorem vaddT32 : Statement (.vaddT32 oa) :=
  ⟨rowsT32[0], List.getElem_mem (l := rowsT32) (by decide), rfl, hasBits_of_bits (vadd_bits oa 0xEF#8)⟩

theorem vsubwA32 : Statement (.vsubwA32 ow) :=
  ⟨rowsA32[1], List.getElem_mem (l := rowsA32) (by decide), rfl, hasBits_of_bits (vsubw_bits_a32 ow)⟩

theorem vsubwT32 : Statement (.vsubwT32 ow) :=
  ⟨rowsT32[1], List.getElem_mem (l := rowsT32) (by decide), rfl, hasBits_of_bits (vsubw_bits_t32 ow)⟩

theorem vmovnA32 : Statement (.vmovnA32 on) :=
  ⟨rowsA32[2], List.getElem_mem (l := rowsA32) (by decide), rfl, hasBits_of_bits (vmovn_bits on 0xF3#8)⟩

theorem vmovnT32 : Statement (.vmovnT32 on) :=
  ⟨rowsT32[2], List.getElem_mem (l := rowsT32) (by decide), rfl, hasBits_of_bits (vmovn_bits on 0xFF#8)⟩

theorem vld1OneA32 : Statement (.vld1OneA32 ol) :=
  ⟨rowsA32[3], List.getElem_mem (l := rowsA32) (by decide), rfl, hasBits_of_bits (vld1_bits ol 0xF4#8 0b0111#4)⟩

theorem vld1OneT32 : Statement (.vld1OneT32 ol) :=
  ⟨rowsT32[3], List.getElem_mem (l := rowsT32) (by decide), rfl, hasBits_of_bits (vld1_bits ol 0xF9#8 0b0111#4)⟩

theorem vld1TwoA32 : Statement (.vld1TwoA32 ol) :=
  ⟨rowsA32[4], List.getElem_mem (l := rowsA32) (by decide), rfl, hasBits_of_bits (vld1_bits ol 0xF4#8 0b1010#4)⟩

theorem vld1TwoT32 : Statement (.vld1TwoT32 ol) :=
  ⟨rowsT32[4], List.getElem_mem (l := rowsT32) (by decide), rfl, hasBits_of_bits (vld1_bits ol 0xF9#8 0b1010#4)⟩

theorem vld1ThreeA32 : Statement (.vld1ThreeA32 ol) :=
  ⟨rowsA32[5], List.getElem_mem (l := rowsA32) (by decide), rfl, hasBits_of_bits (vld1_bits ol 0xF4#8 0b0110#4)⟩

theorem vld1ThreeT32 : Statement (.vld1ThreeT32 ol) :=
  ⟨rowsT32[5], List.getElem_mem (l := rowsT32) (by decide), rfl, hasBits_of_bits (vld1_bits ol 0xF9#8 0b0110#4)⟩

theorem vld1FourA32 : Statement (.vld1FourA32 ol) :=
  ⟨rowsA32[6], List.getElem_mem (l := rowsA32) (by decide), rfl, hasBits_of_bits (vld1_bits ol 0xF4#8 0b0010#4)⟩

theorem vld1FourT32 : Statement (.vld1FourT32 ol) :=
  ⟨rowsT32[6], List.getElem_mem (l := rowsT32) (by decide), rfl, hasBits_of_bits (vld1_bits ol 0xF9#8 0b0010#4)⟩

end Sys2Proof.Laws.EncodedRow
end

