-- ==== Sys2Proof/Tests/Slice0.lean ====
section
/-! SUPPORT. Slice0.lean: the model's own tests. Expected results are the spec's worked vectors (95, groups T2 to T11, which
are named at each test) and words (44 R112 to R116). Each instruction test is one step. The theorems `witness_…` show, for
each obligation with hypotheses, concrete values that meet them together. -/

open Sys2Proof Sys2Proof.Machine

namespace Sys2Proof.Tests

/-! ## Helpers -/

/-- The next state of an outcome. -/
def nextOf {σ φ ρ : Type} : Host.Outcome σ φ ρ → Option σ
  | .next s => some s
  | .fault _ | .refused _ => none

/-- The fault of an outcome. -/
def faultOf {σ φ ρ : Type} : Host.Outcome σ φ ρ → Option φ
  | .fault f => some f
  | .next _ | .refused _ => none

/-- The refusal of an outcome. -/
def refusalOf {σ φ ρ : Type} : Host.Outcome σ φ ρ → Option ρ
  | .refused r => some r
  | .next _ | .fault _ => none

theorem next_of_isSome {σ φ ρ : Type} {x : Host.Outcome σ φ ρ} (h : (nextOf x).isSome = true) : ∃ t, x = .next t := by
  cases x with
  | next t => exact ⟨t, rfl⟩
  | fault f => simp [nextOf] at h
  | refused r => simp [nextOf] at h

theorem fault_of_eq {σ φ ρ : Type} {x : Host.Outcome σ φ ρ} {f : φ} (h : faultOf x = some f) : x = .fault f := by
  cases x with
  | next t => simp [faultOf] at h
  | fault g => simpa [faultOf] using h
  | refused r => simp [faultOf] at h

/-- 95's default configuration for A32. -/
def cfgA : Config := { instrSet := .a32 }

/-- 95's default configuration for T32. -/
def cfgT : Config := { instrSet := .t32 }

/-- A state about to run one word at 0x8000. -/
def start (c : Config) (w : Word) (rs : List (Fin 15 × Word)) (ds : List (DNum × DWord)) (m : Memory) : State :=
  let s0 : State := { State.reset with config := c, pc := 0x8000, text := ⟨0x8000, [w]⟩, mem := m }
  ds.foldl (fun s p => s.writeD p.1 p.2) (rs.foldl (fun s p => s.writeR p.1 p.2) s0)

/-- `n` bytes `b`, `b + 1`, ... from an address on. -/
def countingBytes (a : Nat) (b n : Nat) : Memory :=
  (List.range n).map fun i => (a + i, BitVec.ofNat 8 (b + i))

/-- Memory M16 of 95 T11. -/
def m16 : Memory := countingBytes 0x1000 0 16

/-- What is read of the state after one step. -/
def after {α : Type} (s : State) (f : State → α) : Option α := (nextOf (step s)).map f

/-! ## Well-formedness: the ill-formed terms each check refuses -/

/-- VSUBW with size 0b11 (44 R113). -/
theorem test_wellFormed_refuses_vsubw_size3 :
    (Instr.vsubwA32 ⟨false, .e64, 0, 0, 0⟩).wellFormed = false ∧ (Instr.vsubwT32 ⟨true, .e64, 6, 10, 0⟩).wellFormed = false := by
  decide

/-- VLD1 with R13 as an index register (41 R73), in each row. -/
theorem test_wellFormed_refuses_index_sp :
    ([Instr.vld1OneA32, .vld1OneT32, .vld1TwoA32, .vld1TwoT32, .vld1ThreeA32, .vld1ThreeT32, .vld1FourA32,
      .vld1FourT32].all fun c => !(c ⟨.e8, 0, 0, .unspecified, .byRegister 13⟩).wellFormed) = true := by
  decide

/-- The neighbours of the ill-formed terms are well formed. -/
theorem test_wellFormed_accepts :
    (Instr.vsubwA32 ⟨false, .e32, 0, 0, 0⟩).wellFormed = true ∧
    (Instr.vld1OneA32 ⟨.e8, 0, 0, .unspecified, .byRegister 14⟩).wellFormed = true ∧
    (Instr.vmovnA32 ⟨.e64, 0, 2⟩).wellFormed = true ∧
    (Instr.vld1OneA32 ⟨.e8, 0, 15, .a128, .byTransferSize⟩).wellFormed = true := by
  decide

/-! ## Decoding: a word of each constructor, from the encodings of 44 R112 to R115 and the fields 95 T8 to T11 spell out -/

/-- 95 A10: D=1, Vd=1111, N=1, Vn=0000, M=0, Vm=1111. -/
theorem test_decode_vaddA32 : decode .a32 0xF240F88F#32 = .ok (.vaddA32 ⟨.e8, false, 31, 16, 15⟩) := by decide

/-- The T32 word of 95 A7: `1110 1111 0 1 01 0010 | 0000 1000 1 1 1 0 0100`. -/
theorem test_decode_vaddT32 : decode .t32 0xEF5208E4#32 = .ok (.vaddT32 ⟨.e16, true, 16, 18, 20⟩) := by decide

/-- 95 W7: U=1, size=01, Vn=0010, Vd=0000, M=1, Vm=1111. -/
theorem test_decode_vsubwA32 : decode .a32 0xF392032F#32 = .ok (.vsubwA32 ⟨true, .e16, 0, 2, 31⟩) := by decide

/-- 95 W7 in T32, U at bit 28: `1111 1111 1 0 01 0010 | 0000 0011 0 0 1 0 1111`. -/
theorem test_decode_vsubwT32 : decode .t32 0xFF92032F#32 = .ok (.vsubwT32 ⟨true, .e16, 0, 2, 31⟩) := by decide

/-- 95 M3: D=1, size=10, Vd=1111, M=1, Vm=1110. -/
theorem test_decode_vmovnA32 : decode .a32 0xF3FAF22E#32 = .ok (.vmovnA32 ⟨.e32, 31, 30⟩) := by decide

/-- 95 T13, the second word of P2 in T32. -/
theorem test_decode_vmovnT32 : decode .t32 0xFFB22206#32 = .ok (.vmovnT32 ⟨.e8, 2, 6⟩) := by decide

/-- 95 L4: Rn=0010, Rm=0010. -/
theorem test_decode_vld1OneA32 :
    decode .a32 0xF4220702#32 = .ok (.vld1OneA32 ⟨.e8, 0, 2, .unspecified, .byRegister 2⟩) := by decide

/-- 95 T12, the second word of P1 in T32. -/
theorem test_decode_vld1OneT32 :
    decode .t32 0xF9201702#32 = .ok (.vld1OneT32 ⟨.e8, 1, 0, .unspecified, .byRegister 2⟩) := by decide

/-- 95 L17: D=1, Rn=0011, Vd=0000, type=1010, size=01, align=01, Rm=0100. -/
theorem test_decode_vld1TwoA32 :
    decode .a32 0xF4630A54#32 = .ok (.vld1TwoA32 ⟨.e16, 16, 3, .a64, .byRegister 4⟩) := by decide

/-- 95 T14, the first word of P3 in T32. -/
theorem test_decode_vld1TwoT32 :
    decode .t32 0xF9212AAD#32 = .ok (.vld1TwoT32 ⟨.e32, 2, 1, .a128, .byTransferSize⟩) := by decide

/-- 95 L6. -/
theorem test_decode_vld1ThreeA32 :
    decode .a32 0xF420060F#32 = .ok (.vld1ThreeA32 ⟨.e8, 0, 0, .unspecified, .noWriteback⟩) := by decide

/-- 95 L6 in T32: top byte 1111 1001. -/
theorem test_decode_vld1ThreeT32 :
    decode .t32 0xF920060F#32 = .ok (.vld1ThreeT32 ⟨.e8, 0, 0, .unspecified, .noWriteback⟩) := by decide

/-- 95 L18: D=1, Rn=1100, Vd=1100, type=0010, size=11, align=11, Rm=1101. -/
theorem test_decode_vld1FourA32 :
    decode .a32 0xF46CC2FD#32 = .ok (.vld1FourA32 ⟨.e64, 28, 12, .a256, .byTransferSize⟩) := by decide

/-- 95 T7 in T32: `VLD1.8 {D2, D3, D4, D5}, [R0]`. -/
theorem test_decode_vld1FourT32 :
    decode .t32 0xF920220F#32 = .ok (.vld1FourT32 ⟨.e8, 2, 0, .unspecified, .noWriteback⟩) := by decide

/-- 95 W6 (size 0b11) and L15 (type 0b1011) match no row, and a word of one set is none of the other's (30 R54). -/
theorem test_decode_refuses :
    decode .a32 0xF2BA6300#32 = .error .noInstructionDescription ∧
    decode .a32 0xF4200B0F#32 = .error .noInstructionDescription ∧
    decode .t32 0xF2220844#32 = .error .noInstructionDescription ∧
    decode .a32 0xEF220844#32 = .error .noInstructionDescription := by
  decide

/-- 20 R32: an A32 word lies low byte first; a T32 instruction lies `hw1` first, each halfword low byte first. -/
theorem test_decodeBytes_layout :
    decodeBytes .a32 [0x44, 0x08, 0x22, 0xF2, 0xAA] = .ok (.vaddA32 ⟨.e32, true, 0, 2, 4⟩, [0xAA]) ∧
    decodeBytes .t32 [0x22, 0xEF, 0x44, 0x08] = .ok (.vaddT32 ⟨.e32, true, 0, 2, 4⟩, []) ∧
    decodeBytes .a32 [0x44, 0x08, 0x22] = .error .truncated := by
  decide

/-- The table's numbering is the words' own (44 R116). -/
theorem test_decodeTableWord :
    decodeTableWord 32 0xF28A6300 = some (.vsubwA32 ⟨false, .e8, 6, 10, 0⟩) ∧
    decodeTableWord 32 0xEF8A6300 = some (.vsubwT32 ⟨false, .e8, 6, 10, 0⟩) ∧
    decodeTableWord 32 0xF2BA6300 = none := by
  decide

/-! ## Register numbers, views and scalars (95 T2 to T4) -/

/-- 95 T2: fields as doubleword, quadword and single-precision numbers. -/
theorem test_register_fields :
    dNumber 1 0b0110 = 22 ∧ qNumber? 1 0b0110 = some 11 ∧ sNumber 0b0110 1 = 13 ∧
    dNumber 1 0b0011 = 19 ∧ qNumber? 1 0b0011 = none ∧ sNumber 0b0011 1 = 7 ∧
    dNumber 1 0b1110 = 30 ∧ qNumber? 1 0b1110 = some 15 ∧ sNumber 0b1110 1 = 29 ∧
    dNumber 0 0b1111 = 15 ∧ qNumber? 0 0b1111 = none ∧ sNumber 0b1111 0 = 30 := by
  decide

/-- 95 T2, the inverse direction. -/
theorem test_register_fields_encoded :
    (dHighBit 19, dLowBits 19) = (1, 0b0011) ∧ (qHighBit 11, qLowBits 11) = (1, 0b0110) ∧
    (sHighBits 7, sLowBit 7) = (0b0011, 1) ∧ (sHighBits 12, sLowBit 12) = (0b0110, 0) := by
  decide

/-- The register file of 95 T3. -/
def views : State := (State.reset.writeD 2 0x0807060504030201).writeD 3 0x100F0E0D0C0B0A09

/-- 95 T3: the views. -/
theorem test_register_views :
    views.readQ 1 = 0x100F0E0D0C0B0A090807060504030201 ∧ views.readS 4 = 0x04030201 ∧ views.readS 5 = 0x08070605 ∧
    views.readS 6 = 0x0C0B0A09 ∧ views.readS 7 = 0x100F0E0D ∧ elem (views.readD 2) 7 8 = 0x08 ∧
    elem (views.readD 3) 2 16 = 0x0E0D ∧ elem (views.readQ 1) 5 16 = 0x0C0B ∧ elem (views.readQ 1) 3 32 = 0x100F0E0D := by
  decide

/-- 95 T3: writing S5. -/
theorem test_write_single :
    (views.writeS 5 0xAABBCCDD).readD 2 = 0xAABBCCDD04030201 ∧ (views.writeS 5 0xAABBCCDD).readD 3 = views.readD 3 ∧
    (views.writeS 5 0xAABBCCDD).readS 4 = 0x04030201 := by
  decide

/-- 95 T4: scalars of multiply instructions, decoded. -/
theorem test_scalars_decoded :
    decodeScalar .s16 0 0b1000 = ⟨0, 1⟩ ∧ decodeScalar .s16 1 0b0000 = ⟨0, 2⟩ ∧ decodeScalar .s16 1 0b1011 = ⟨3, 3⟩ ∧
    decodeScalar .s16 1 0b1111 = ⟨7, 3⟩ ∧ decodeScalar .s32 1 0b1011 = ⟨11, 1⟩ ∧ sOfScalar? ⟨11, 1⟩ = some 23 ∧
    sOfScalar? (decodeScalar .s32 0 0b1011) = some 22 ∧ sOfScalar? (decodeScalar .s32 1 0b1111) = some 31 := by
  decide

/-- 95 T4: scalars of multiply instructions, encoded. -/
theorem test_scalars_encoded :
    encodeScalar? .s16 ⟨5, 2⟩ = some (1, 0b0101) ∧ encodeScalar? .s16 ⟨5, 1⟩ = some (0, 0b1101) ∧
    encodeScalar? .s32 ⟨12, 1⟩ = some (1, 0b1100) ∧ encodeScalar? .s16 ⟨8, 0⟩ = none ∧
    encodeScalar? .s32 ⟨16, 0⟩ = none := by
  decide

/-! ## One step of each instruction -/

/-- 95 A1: no carry between bytes. -/
theorem test_step_vaddA32_bytes :
    after (start cfgA 0xF2010802#32 [] [(1, 0xAA10FE00807F01FF), (2, 0x55F003008001FF01)] [])
      (fun t => (t.readD 0, t.pc)) = some (0xFF00010000800000, 0x8004) := by
  decide

/-- 95 A6: a destination that is both sources, quadword form. -/
theorem test_step_vaddA32_overlap :
    after (start cfgA 0xF2200840#32 [] [(0, 0x8000000000000001), (1, 0xFFFFFFFF40000000)] [])
      (fun t => (t.readD 0, t.readD 1)) = some (0x0000000000000002, 0xFFFFFFFE80000000) := by
  decide

/-- 95 A3 in T32 (top byte EF): a carry stays in its halfword. -/
theorem test_step_vaddT32_halfwords :
    after (start cfgT 0xEF110802#32 [] [(1, 0xFFFFFFFFFFFFFFFF), (2, 1)] []) (fun t => t.readD 0) =
      some 0xFFFFFFFFFFFF0000 := by
  decide

/-- 95 A7 in T32: registers above D15. -/
theorem test_step_vaddT32_upper :
    after (start cfgT 0xEF5208E4#32 [] [(18, 0x0004000300020001), (19, 0x00007FFF8000FFFF), (20, 0xFFFCFFFDFFFEFFFF),
      (21, 0x0000000180000001), (16, 7)] []) (fun t => (t.readD 16, t.readD 17)) = some (0, 0x0000800000000000) := by
  decide

/-- The source registers of 95 W1 and W2. -/
def wideSources : List (DNum × DWord) :=
  [(10, 0x80007FFF00010000), (11, 0x123400800100FFFF), (0, 0x34807F8001FFFF01)]

/-- 95 W1: signed bytes. -/
theorem test_step_vsubwA32_signed :
    after (start cfgA 0xF28A6300#32 [] wideSources []) (fun t => (t.readD 6, t.readD 7)) =
      some (0x7FFF80000002FFFF, 0x120001000081007F) := by
  decide

/-- 95 W4: unsigned words, the second operand being half of the destination. -/
theorem test_step_vsubwA32_overlap :
    after (start cfgA 0xF3A00300#32 [] [(0, 0xFFFFFFFF00000005), (1, 0)] []) (fun t => (t.readD 0, t.readD 1)) =
      some (0xFFFFFFFF00000000, 0xFFFFFFFF00000001) := by
  decide

/-- 95 W2 in T32, U at bit 28: unsigned bytes. -/
theorem test_step_vsubwT32_unsigned :
    after (start cfgT 0xFF8A6300#32 [] wideSources []) (fun t => (t.readD 6, t.readD 7)) =
      some (0x7FFF7F00FF02FFFF, 0x120000000081FF7F) := by
  decide

/-- 95 W3 in T32: signed words. -/
theorem test_step_vsubwT32_overlap :
    after (start cfgT 0xEFA00300#32 [] [(0, 0xFFFFFFFF00000005), (1, 0)] []) (fun t => (t.readD 0, t.readD 1)) =
      some (0xFFFFFFFF00000000, 0x0000000000000001) := by
  decide

/-- 95 M2: the destination is the upper half of the operand. -/
theorem test_step_vmovnA32_overlap :
    after (start cfgA 0xF3B63202#32 [] [(2, 0xAAAABBBBCCCCDDDD), (3, 0x1111222233334444)] [])
      (fun t => (t.readD 3, t.readD 2)) = some (0x22224444BBBBDDDD, 0xAAAABBBBCCCCDDDD) := by
  decide

/-- 95 M3: the last registers. -/
theorem test_step_vmovnA32_last :
    after (start cfgA 0xF3FAF22E#32 [] [(30, 0x1111111122222222), (31, 0x3333333344444444)] [])
      (fun t => (t.readD 31, t.readD 30)) = some (0x4444444422222222, 0x1111111122222222) := by
  decide

/-- 95 M1 in T32. -/
theorem test_step_vmovnT32_bytes :
    after (start cfgT 0xFFB22206#32 [] [(6, 0x7FFF80000002FFFF), (7, 0x120001000081007F)] []) (fun t => t.readD 2) =
      some 0x0000817FFF0002FF := by
  decide

/-- 95 L3: with big-endian data the element size matters. -/
theorem test_step_vld1OneA32_bigEndian :
    ([0xF420070F#32, 0xF420074F#32, 0xF420078F#32, 0xF42007CF#32].map fun w =>
      after (start { cfgA with bigEndian := true } w [(0, 0x1000)] [] m16) (fun t => t.readD 0)) =
    [some 0x0706050403020100, some 0x0607040502030001, some 0x0405060700010203, some 0x0001020304050607] := by
  decide

/-- 95 L7: the block ends at the top of the address space and the base wraps. -/
theorem test_step_vld1OneA32_top :
    after (start cfgA 0xF420070D#32 [(0, 0xFFFFFFF8)] [] (countingBytes 0xFFFFFFF8 0x80 8))
      (fun t => (t.readD 0, t.readR 0)) = some (0x8786858483828180, 0) := by
  decide

/-- 95 T12 in T32, the second instruction of P1: the index register, not the transfer size, moves the base. -/
theorem test_step_vld1OneT32_index :
    after (start cfgT 0xF9201702#32 [(0, 0x1008), (2, 0x10)] [] m16) (fun t => (t.readD 1, t.readR 0, t.readR 2)) =
      some (0x0F0E0D0C0B0A0908, 0x1018, 0x10) := by
  decide

/-- 95 L5 in T32: SP as base. -/
theorem test_step_vld1OneT32_sp :
    after (start cfgT 0xF92D070D#32 [(13, 0x1008)] [] m16) (fun t => (t.readD 0, t.readR 13)) =
      some (0x0F0E0D0C0B0A0908, 0x1010) := by
  decide

/-- 95 L17: two registers from D16, index R4. -/
theorem test_step_vld1TwoA32_index :
    after (start cfgA 0xF4630A54#32 [(3, 0x1000), (4, 0xFFFFFFF8)] [] m16)
      (fun t => (t.readD 16, t.readD 17, t.readR 3)) = some (0x0706050403020100, 0x0F0E0D0C0B0A0908, 0x0FF8) := by
  decide

/-- 95 T14 in T32, the first instruction of P3. -/
theorem test_step_vld1TwoT32_aligned :
    after (start cfgT 0xF9212AAD#32 [(1, 0x2000)] []
      [(0x2000, 1), (0x2001, 0), (0x2002, 0), (0x2003, 0), (0x2004, 0xFF), (0x2005, 0xFF), (0x2006, 0xFF), (0x2007, 0xFF),
       (0x2008, 0), (0x2009, 0), (0x200A, 0), (0x200B, 0x80), (0x200C, 0x78), (0x200D, 0x56), (0x200E, 0x34),
       (0x200F, 0x12)]) (fun t => (t.readD 2, t.readD 3, t.readR 1)) =
      some (0xFFFFFFFF00000001, 0x1234567880000000, 0x2010) := by
  decide

/-- 95 L6: three registers. -/
theorem test_step_vld1ThreeA32 :
    after (start cfgA 0xF420060F#32 [(0, 0x1000)] [] (countingBytes 0x1000 0x10 24))
      (fun t => (t.readD 0, t.readD 1, t.readD 2, t.readR 0)) =
      some (0x1716151413121110, 0x1F1E1D1C1B1A1918, 0x2726252423222120, 0x1000) := by
  decide

/-- 95 L6 in T32, with writeback (Rm = 1101): the transfer size is 24. -/
theorem test_step_vld1ThreeT32_writeback :
    after (start cfgT 0xF920060D#32 [(0, 0x1000)] [] (countingBytes 0x1000 0x10 24)) (fun t => (t.readD 2, t.readR 0)) =
      some (0x2726252423222120, 0x1018) := by
  decide

/-- 95 L18: the list ends exactly at D31. -/
theorem test_step_vld1FourA32_last :
    after (start cfgA 0xF46CC2FD#32 [(12, 0x1000)] [] (countingBytes 0x1000 0x10 32))
      (fun t => (t.readD 28, t.readD 31, t.readR 12)) = some (0x1716151413121110, 0x2F2E2D2C2B2A2928, 0x1020) := by
  decide

/-- 95 T7's word `VLD1.8 {D2, D3, D4, D5}, [R0]` in T32. -/
theorem test_step_vld1FourT32 :
    after (start cfgT 0xF920220F#32 [(0, 0x1000)] [] (countingBytes 0x1000 0x10 32))
      (fun t => (t.readD 2, t.readD 5, t.readD 1, t.readR 0)) = some (0x1716151413121110, 0x2F2E2D2C2B2A2928, 0, 0x1000) := by
  decide

/-! ## Steps that stop -/

/-- 95 A8, A9, A12, W5, W7, M4, M5: Undefined. -/
theorem test_undefined_vectors :
    ([start { cfgA with bank := .sixteen } 0xF25208E4#32 [] [] [], start cfgA 0xF2221844#32 [] [] [],
      start { cfgA with simdEnabled := false } 0xF2010802#32 [] [] [], start cfgA 0xF28A7300#32 [] [] [],
      start { cfgA with bank := .sixteen } 0xF392032F#32 [] [] [], start cfgA 0xF3BE0202#32 [] [] [],
      start cfgA 0xF3B60203#32 [] [] []].all fun s => faultOf (step s) = some .undefined) = true := by
  decide

/-- 95 L12, L13, L14, L23: Undefined, before Unpredictable. -/
theorem test_undefined_vectors_load :
    ([start { cfgA with bank := .sixteen } 0xF460D20F#32 [] [] [], start cfgA 0xF420072F#32 [] [] [],
      start cfgA 0xF4200A3F#32 [] [] [], start cfgA 0xF42F072F#32 [] [] []].all
        fun s => faultOf (step s) = some .undefined) = true := by
  decide

/-- 95 L8, L9, L10, L11, L16, L19, L22: the other faults. -/
theorem test_fault_vectors_load :
    faultOf (step (start cfgA 0xF4212AAF#32 [(1, 0x2008)] [] (countingBytes 0x2000 0 32))) = some (.alignment 0x2008) ∧
    faultOf (step (start cfgA 0xF420070F#32 [(0, 0x100C)] [] m16)) = some (.memFault 0x1010) ∧
    faultOf (step (start cfgA 0xF42F070F#32 [] [] [])) = some (.unpredictable .baseIsPc) ∧
    faultOf (step (start cfgA 0xF460D20F#32 [] [] [])) = some (.unpredictable .listWraps) ∧
    faultOf (step (start cfgA 0xF420070D#32 [(0, 0xFFFFFFFC)] [] [])) = some (.memFault 0xFFFFFFFC) ∧
    faultOf (step (start { cfgA with strictAlign := true } 0xF420074F#32 [(0, 0x1001)] [] m16)) = some (.alignment 0x1001) ∧
    faultOf (step (start cfgA 0xF4212AAF#32 [(1, 0x2008)] [] [])) = some (.alignment 0x2008) := by
  decide

/-- 95 W6, L15, A13: refused, also when SIMD is disabled. -/
theorem test_refused_vectors :
    refusalOf (step (start cfgA 0xF2BA6300#32 [] [] [])) = some .noInstructionDescription ∧
    refusalOf (step (start cfgA 0xF4200B0F#32 [] [] [])) = some .noInstructionDescription ∧
    refusalOf (step (start { cfgA with simdEnabled := false } 0xF2BA6300#32 [] [] [])) = some .noInstructionDescription := by
  decide

/-- A launched state in which the given registers have values (70 R130). -/
def launched (w : Word) (rs : List (Fin 15 × Word)) (ds : List (DNum × DWord)) : Launched :=
  Launch.start ⟨cfgA, rs, ds, [], m16, ⟨0x8000, [w]⟩, 0x8000⟩

/-- A launch on a bank of sixteen that names D16, and an address at the top of what a word can name: neither takes effect, and
of a register and an address named twice the last value stands (log 17). -/
theorem test_launch_outside_its_domain :
    let l := Launch.start ⟨{ cfgA with bank := .sixteen }, [(1, 5), (1, 6)], [(16, 9), (2, 7)], [], [(0x10, 1), (2 ^ 32, 3), (0x10, 2)],
      ⟨0x8000, []⟩, 0x8000⟩
    l.machine.inv = true ∧ l.machine.readR 1 = 6 ∧ l.machine.readD 2 = 7 ∧ l.machine.readD 16 = 0 ∧ RegPart.upper 0 ∉ l.valued ∧
      l.machine.mem = [(0x10, 2)] := by
  decide

/-- 95 A11, L20, L21, L24: UnwrittenRead. -/
theorem test_unwritten_vectors :
    faultOf (launchStep (launched 0xF2220844#32 [] [(2, 1), (3, 1), (5, 1)])) = some (.unwrittenRead (.d 4)) ∧
    faultOf (launchStep (launched 0xF4200702#32 [(0, 0x1000)] [])) = some (.unwrittenRead (.r 2)) ∧
    faultOf (launchStep (launched 0xF4200712#32 [(0, 0x1001)] [])) = some (.unwrittenRead (.r 2)) ∧
    faultOf (launchStep (launched 0xF420070F#32 [] [])) = some (.unwrittenRead (.r 0)) := by
  decide

/-! ## Assembler text (95 T5 to T7) -/

/-- The word of a line of text. -/
def wordOf (c : Config) (text : List Char) : Option Word := (assembleText c (cs := text)).toOption

/-- A register list in braces. -/
def braced (inside : String) : List Char := openBrace :: inside.toList ++ [closeBrace]

/-- 95 T7, the data-processing rows, in both sets. -/
theorem test_assemble_data_processing :
    (["VADDQ.S32 q0, q1, q2", "VADD.I32 Q0, Q1, Q2", "VADD.U32 Q0, Q1, Q2"].all
      fun l => wordOf cfgA l.toList = some 0xF2220844#32 && wordOf cfgT l.toList = some 0xEF220844#32) = true ∧
    wordOf cfgA "VADD.I32 Q0, Q0".toList = some 0xF2200840#32 ∧
    wordOf cfgA "VSUBW.S8 Q5, D0".toList = some 0xF28AA300#32 ∧
    wordOf cfgA "VSUBWAL.W.S8 Q5, D0".toList = some 0xF28AA300#32 := by
  decide

/-- 95 T7: lists of data types. -/
theorem test_assemble_data_types :
    (["VSUBW.I16.I16.S8 Q3, Q5, D0", "VSUBW.I16.S8 Q3, Q5, D0", "VSUBW.S16.S16.S8 Q3, Q5, D0"].all
      fun l => wordOf cfgT l.toList = some 0xEF8A6300#32) = true ∧
    (["VMOVN.I16.I32 D0, Q1", "VMOVN.S16.I32 D0, Q1", "VMOVN.I32 D0, Q1"].all
      fun l => wordOf cfgA l.toList = some 0xF3B60202#32) = true := by
  decide

/-- 95 T6, T7: lines that are rejected. -/
theorem test_assemble_rejects :
    (["VSUBW.I32.I16.S8 Q3, Q5, D0", "VSUBW.U16.S8 Q3, Q5, D0", "VSUBW.16.16.S8 Q3, Q5, D0", "VMOVN.I32.I16 D0, Q1",
      "VADD.F Q0, Q1, Q2", "VADDQ.I32 D0, D1, D2", "VADD.I32 Q0, D1, Q2", "VADDEQ.I32 Q0, Q1, Q2", "VADD.I32 D0, D1, D32"].all
      fun l => wordOf cfgA l.toList = none) = true := by
  decide

/-- 95 T7: the loads. -/
theorem test_assemble_loads :
    wordOf cfgA "VLD1.8 D0, [R0]".toList = some 0xF420070F#32 ∧
    wordOf cfgA ("VLD1.8 ".toList ++ braced "D0" ++ ", [R0], #8".toList) = some 0xF420070D#32 ∧
    wordOf cfgA ("VLD1.32 ".toList ++ braced "Q1" ++ ", [R1@128]!".toList) = some 0xF4212AAD#32 ∧
    wordOf cfgT ("VLD1.32 ".toList ++ braced "D2-D3" ++ ", [R1:128], #16".toList) = some 0xF9212AAD#32 ∧
    wordOf cfgA ("VLD1.8 ".toList ++ braced "Q1, Q2" ++ ", [R0]".toList) = some 0xF420220F#32 := by
  decide

/-- 95 T6, T7: loads that are rejected. -/
theorem test_assemble_loads_rejects :
    ([", [R0], #16", ", [R0], SP", ", [R0], PC", ", [PC]", ", [R0:128]"].all
      fun a => wordOf cfgA ("VLD1.8 ".toList ++ braced "D0" ++ a.toList) = none) = true ∧
    (["D5-D3", "D30-D33", "D0, D2", "D7[]", "S0"].all
      fun l => wordOf cfgA ("VLD1.8 ".toList ++ braced l ++ ", [R0]".toList) = none) = true ∧
    wordOf { cfgA with bank := .sixteen } ("VLD1.8 ".toList ++ braced "D14-D17" ++ ", [R0]".toList) = none := by
  decide

/-- 95 T7: what the disassembler prints. -/
theorem test_disassemble :
    disassembleText cfgA 0xF2220844#32 = some "VADD.I32 Q0, Q1, Q2".toList ∧
    disassembleText cfgT 0xEF8AA300#32 = some "VSUBW.S8 Q5, Q5, D0".toList ∧
    disassembleText cfgA 0xF3B60202#32 = some "VMOVN.I32 D0, Q1".toList ∧
    disassembleText cfgA 0xF4212AAD#32 = some ("VLD1.32 ".toList ++ braced "D2, D3" ++ ", [R1:128]!".toList) ∧
    disassembleText cfgA 0xF42F070F#32 = none := by
  decide

/-! ## Witnesses: values that meet all hypotheses of each obligation that has some -/

/-- A state that runs 95 T7's first word. -/
def runsVadd : State := start cfgA 0xF2220844#32 [] [] []

theorem witness_StepKeepsInvariant : ∃ t, runsVadd.inv = true ∧ step runsVadd = .next t := by
  obtain ⟨t, ht⟩ := next_of_isSome (x := step runsVadd) (by decide)
  exact ⟨t, by decide, ht⟩

theorem witness_StepRunsDecodedInstruction :
    runsVadd.faultRecord = none ∧ runsVadd.refusalMark = none ∧ 4 * 0 < 2 ^ 32 ∧
    runsVadd.pc = runsVadd.text.base + BitVec.ofNat 32 (4 * 0) ∧ runsVadd.text.words[0]? = some 0xF2220844#32 ∧
    decode runsVadd.config.instrSet 0xF2220844#32 = .ok (.vaddA32 ⟨.e32, true, 0, 2, 4⟩) := by
  decide

/-- A state that is about to fetch 95 W6's word, which no row matches. -/
def runsUnmatched : State := start cfgA 0xF2BA6300#32 [] [] []

theorem witness_UnmatchedWordIsRefused :
    runsUnmatched.faultRecord = none ∧ runsUnmatched.refusalMark = none ∧ runsUnmatched.fetch = .ok 0xF2BA6300#32 ∧
    ∀ r ∈ rowsOf runsUnmatched.config.instrSet, r.read 0xF2BA6300#32 = none := by
  decide

theorem witness_RunEndsRightAfterTheProgram :
    (State.advance runsVadd).faultRecord = none ∧ (State.advance runsVadd).refusalMark = none ∧
    4 * (State.advance runsVadd).text.words.length < 2 ^ 32 ∧
    (State.advance runsVadd).pc =
      (State.advance runsVadd).text.base + BitVec.ofNat 32 (4 * (State.advance runsVadd).text.words.length) := by
  decide

theorem witness_FaultIsRecordedAndEndsTheRun :
    step (start cfgA 0xF420070F#32 [] [] []) = .fault (.memFault 0) :=
  fault_of_eq (by decide)

theorem witness_EveryRunEndsWithinItsLength :
    runsVadd.inv = true ∧ runsVadd.running = true ∧ runsVadd.pc = runsVadd.text.base := by
  decide

theorem witness_StoredTableWordRuns :
    decode .a32 (tableWord 32 0xF28A6300) = .ok (.vsubwA32 ⟨false, .e8, 6, 10, 0⟩) ∧
    decode .t32 (tableWord 32 0xFFB60202) = .ok (.vmovnT32 ⟨.e16, 0, 2⟩) := by
  decide

theorem witness_DecodeInvertsEncode :
    (Instr.vsubwT32 ⟨true, .e32, 31, 1, 16⟩).wellFormed = true ∧
    (Instr.vld1FourA32 ⟨.e64, 31, 15, .a256, .byRegister 14⟩).wellFormed = true := by
  decide

theorem witness_EncodeInvertsDecode :
    decode .t32 0xF9201702#32 = .ok (.vld1OneT32 ⟨.e8, 1, 0, .unspecified, .byRegister 2⟩) := by
  decide

theorem witness_DecodeBytesInvertsEncodeBytes : (Instr.vmovnT32 ⟨.e64, 31, 30⟩).wellFormed = true := by decide

theorem witness_NoWordBelongsToBothSets :
    decode .a32 0xF2220844#32 = .ok (.vaddA32 ⟨.e32, true, 0, 2, 4⟩) ∧
    decode .t32 0xEF220844#32 = .ok (.vaddT32 ⟨.e32, true, 0, 2, 4⟩) := by
  decide

/-- The clause on 16 registers, at its boundary: Q7 exists, Q8 does not. -/
theorem witness_QuadwordIsPairOfDoublewords :
    ({ cfgA with bank := .sixteen } : Config).bank = .sixteen ∧
    inBank { cfgA with bank := .sixteen } (qFirst 7) 2 = true ∧
    inBank { cfgA with bank := .sixteen } (qFirst 8) 2 = false ∧
    (5 : DNum) ≠ qFirst 3 ∧ (5 : DNum) ≠ qSecond 3 := by
  decide

theorem witness_SinglesOverlayTheLowDoublewords : (30 : Fin 32) ≠ 31 ∧ (16 : DNum).val ≠ (31 : Fin 32).val / 2 := by decide

theorem witness_MultiplyScalarFields :
    7 < (Scalar.mk 8 0).reg.val ∧ 15 < (Scalar.mk 16 0).reg.val ∧
    (3 < (Scalar.mk 7 4).index ∧ encodeScalar? .s16 ⟨7, 3⟩ = some (1#1, 0b1111#4)) ∧
    (1 < (Scalar.mk 15 2).index ∧ encodeScalar? .s32 ⟨15, 1⟩ = some (1#1, 0b1111#4)) := by
  decide

theorem witness_WordScalarIsSingleRegister : (15 : DNum).val ≤ 15 ∧ 1 ≤ 1 ∧ 16 ≤ (16 : DNum).val := by decide

/-- Doubleword form at D31, quadword form at Q15. -/
theorem witness_VaddAddsElements :
    (vaddParts? (.vaddA32 ⟨.e8, false, 31, 16, 15⟩) = some ⟨.e8, false, 31, 16, 15⟩ ∧
      VaddDefined cfgA ⟨.e8, false, 31, 16, 15⟩) ∧
    (vaddParts? (.vaddT32 ⟨.e64, true, 30, 30, 0⟩) = some ⟨.e64, true, 30, 30, 0⟩ ∧
      VaddDefined cfgT ⟨.e64, true, 30, 30, 0⟩) := by
  unfold VaddDefined
  decide

/-- Disabled; an odd field; a register outside the bank. -/
theorem witness_VaddOtherwiseUndefined :
    vaddParts? (.vaddA32 ⟨.e8, true, 1, 0, 0⟩) = some ⟨.e8, true, 1, 0, 0⟩ ∧ ¬ VaddDefined cfgA ⟨.e8, true, 1, 0, 0⟩ ∧
    ¬ VaddDefined { cfgA with simdEnabled := false } ⟨.e8, false, 0, 0, 0⟩ ∧
    ¬ VaddDefined { cfgA with bank := .sixteen } ⟨.e8, false, 0, 0, 16⟩ := by
  unfold VaddDefined
  decide

theorem witness_VsubwSubtractsWidenedElements :
    (vsubwParts? (.vsubwA32 ⟨false, .e8, 30, 0, 31⟩) = some ⟨false, .e8, 30, 0, 31⟩ ∧
      VsubwDefined cfgA ⟨false, .e8, 30, 0, 31⟩) ∧
    (vsubwParts? (.vsubwT32 ⟨true, .e32, 14, 14, 15⟩) = some ⟨true, .e32, 14, 14, 15⟩ ∧
      VsubwDefined { cfgT with bank := .sixteen } ⟨true, .e32, 14, 14, 15⟩) := by
  unfold VsubwDefined
  decide

theorem witness_VsubwOtherwiseUndefined :
    vsubwParts? (.vsubwA32 ⟨false, .e8, 7, 10, 0⟩) = some ⟨false, .e8, 7, 10, 0⟩ ∧
    ¬ VsubwDefined cfgA ⟨false, .e8, 7, 10, 0⟩ ∧ ¬ VsubwDefined { cfgA with bank := .sixteen } ⟨true, .e16, 0, 2, 16⟩ ∧
    ¬ VsubwDefined { cfgA with simdEnabled := false } ⟨true, .e16, 0, 2, 0⟩ := by
  unfold VsubwDefined
  decide

theorem witness_VmovnKeepsLowHalves :
    (vmovnParts? (.vmovnA32 ⟨.e32, 31, 30⟩) = some ⟨.e32, 31, 30⟩ ∧ VmovnDefined cfgA ⟨.e32, 31, 30⟩) ∧
    (vmovnParts? (.vmovnT32 ⟨.e8, 15, 14⟩) = some ⟨.e8, 15, 14⟩ ∧
      VmovnDefined { cfgT with bank := .sixteen } ⟨.e8, 15, 14⟩) := by
  unfold VmovnDefined
  decide

theorem witness_VmovnOtherwiseUndefined :
    vmovnParts? (.vmovnA32 ⟨.e64, 0, 2⟩) = some ⟨.e64, 0, 2⟩ ∧ ¬ VmovnDefined cfgA ⟨.e64, 0, 2⟩ ∧
    ¬ VmovnDefined cfgA ⟨.e16, 0, 3⟩ ∧ ¬ VmovnDefined { cfgA with bank := .sixteen } ⟨.e16, 16, 2⟩ ∧
    ¬ VmovnDefined { cfgA with simdEnabled := false } ⟨.e16, 0, 2⟩ := by
  unfold VmovnDefined
  decide

/-- Four registers up to D31 with the 256-bit alignment, and one register whose block ends at the top of memory. -/
theorem witness_Vld1LoadsRegisters :
    (vld1Parts? (.vld1FourA32 ⟨.e64, 28, 12, .a256, .byTransferSize⟩) =
        some (4, ⟨.e64, 28, 12, .a256, .byTransferSize⟩) ∧
      Vld1Defined cfgA 4 ⟨.e64, 28, 12, .a256, .byTransferSize⟩ ∧ 28 + 4 ≤ cfgA.numDregs ∧
      (start cfgA 0 [(12, 0x1000)] [] (countingBytes 0x1000 0 32)).readR 12 = 0x1000 ∧
      0x1000 % alignNeeded cfgA ⟨.e64, 28, 12, .a256, .byTransferSize⟩ = 0 ∧ 0x1000 + 8 * 4 ≤ 2 ^ 32 ∧
      ∀ k, k < 8 * 4 → ((start cfgA 0 [(12, 0x1000)] [] (countingBytes 0x1000 0 32)).mem.byte? (0x1000 + k)).isSome = true) ∧
    (vld1Parts? (.vld1OneT32 ⟨.e8, 0, 0, .unspecified, .byRegister 0⟩) =
        some (1, ⟨.e8, 0, 0, .unspecified, .byRegister 0⟩) ∧
      Vld1Defined cfgT 1 ⟨.e8, 0, 0, .unspecified, .byRegister 0⟩ ∧ 0 + 1 ≤ cfgT.numDregs ∧
      (start cfgT 0 [(0, 0xFFFFFFF8)] [] (countingBytes 0xFFFFFFF8 0 8)).readR 0 = 0xFFFFFFF8 ∧
      0xFFFFFFF8 % alignNeeded cfgT ⟨.e8, 0, 0, .unspecified, .byRegister 0⟩ = 0 ∧ 0xFFFFFFF8 + 8 * 1 ≤ 2 ^ 32 ∧
      ∀ k, k < 8 * 1 →
        ((start cfgT 0 [(0, 0xFFFFFFF8)] [] (countingBytes 0xFFFFFFF8 0 8)).mem.byte? (0xFFFFFFF8 + k)).isSome = true) := by
  unfold Vld1Defined
  decide

/-- Two and three registers. -/
theorem witness_Vld1LoadsRegisters_two_three :
    (vld1Parts? (.vld1TwoT32 ⟨.e32, 2, 1, .a128, .byTransferSize⟩) = some (2, ⟨.e32, 2, 1, .a128, .byTransferSize⟩) ∧
      Vld1Defined cfgT 2 ⟨.e32, 2, 1, .a128, .byTransferSize⟩ ∧ 2 + 2 ≤ cfgT.numDregs ∧
      (start cfgT 0 [(1, 0x2000)] [] (countingBytes 0x2000 0 16)).readR 1 = 0x2000 ∧
      0x2000 % alignNeeded cfgT ⟨.e32, 2, 1, .a128, .byTransferSize⟩ = 0 ∧
      ∀ k, k < 8 * 2 → ((start cfgT 0 [(1, 0x2000)] [] (countingBytes 0x2000 0 16)).mem.byte? (0x2000 + k)).isSome = true) ∧
    (vld1Parts? (.vld1ThreeA32 ⟨.e16, 29, 0, .a64, .noWriteback⟩) = some (3, ⟨.e16, 29, 0, .a64, .noWriteback⟩) ∧
      Vld1Defined cfgA 3 ⟨.e16, 29, 0, .a64, .noWriteback⟩ ∧ 29 + 3 ≤ cfgA.numDregs ∧
      (start cfgA 0 [(0, 0x1008)] [] (countingBytes 0x1008 0 24)).readR 0 = 0x1008 ∧
      0x1008 % alignNeeded cfgA ⟨.e16, 29, 0, .a64, .noWriteback⟩ = 0 ∧
      ∀ k, k < 8 * 3 → ((start cfgA 0 [(0, 0x1008)] [] (countingBytes 0x1008 0 24)).mem.byte? (0x1008 + k)).isSome = true) := by
  unfold Vld1Defined
  decide

/-- Disabled; an alignment the type does not permit; a first register outside the bank. -/
theorem witness_Vld1UndefinedComesFirst :
    vld1Parts? (.vld1OneA32 ⟨.e8, 0, 15, .a128, .noWriteback⟩) = some (1, ⟨.e8, 0, 15, .a128, .noWriteback⟩) ∧
    ¬ Vld1Defined cfgA 1 ⟨.e8, 0, 15, .a128, .noWriteback⟩ ∧ ¬ Vld1Defined cfgA 2 ⟨.e8, 0, 0, .a256, .noWriteback⟩ ∧
    ¬ Vld1Defined cfgA 3 ⟨.e8, 0, 0, .a128, .noWriteback⟩ ∧
    ¬ Vld1Defined { cfgA with bank := .sixteen } 4 ⟨.e8, 29, 0, .unspecified, .noWriteback⟩ ∧
    ¬ Vld1Defined { cfgA with simdEnabled := false } 1 ⟨.e8, 0, 0, .unspecified, .noWriteback⟩ := by
  unfold Vld1Defined
  decide

/-- The pc as base; a list that runs one register past the end. -/
theorem witness_Vld1UnpredictableEncodings :
    (vld1Parts? (.vld1OneA32 ⟨.e8, 0, 15, .unspecified, .noWriteback⟩) =
        some (1, ⟨.e8, 0, 15, .unspecified, .noWriteback⟩) ∧
      Vld1Defined cfgA 1 ⟨.e8, 0, 15, .unspecified, .noWriteback⟩) ∧
    (vld1Parts? (.vld1FourT32 ⟨.e8, 29, 0, .unspecified, .noWriteback⟩) =
        some (4, ⟨.e8, 29, 0, .unspecified, .noWriteback⟩) ∧
      Vld1Defined cfgT 4 ⟨.e8, 29, 0, .unspecified, .noWriteback⟩ ∧ (0 : Fin 16) ≠ 15 ∧ cfgT.numDregs < 29 + 4) := by
  unfold Vld1Defined
  decide

/-- 95 L8; 95 L19. -/
theorem witness_Vld1MisalignedAddressFaults :
    (vld1Parts? (.vld1TwoA32 ⟨.e32, 2, 1, .a128, .noWriteback⟩) = some (2, ⟨.e32, 2, 1, .a128, .noWriteback⟩) ∧
      Vld1Defined cfgA 2 ⟨.e32, 2, 1, .a128, .noWriteback⟩ ∧ 2 + 2 ≤ cfgA.numDregs ∧
      (start cfgA 0 [(1, 0x2008)] [] []).readR 1 = 0x2008 ∧
      0x2008 % alignNeeded cfgA ⟨.e32, 2, 1, .a128, .noWriteback⟩ ≠ 0) ∧
    (Vld1Defined { cfgA with strictAlign := true } 1 ⟨.e16, 0, 0, .unspecified, .noWriteback⟩ ∧
      0x1001 % alignNeeded { cfgA with strictAlign := true } ⟨.e16, 0, 0, .unspecified, .noWriteback⟩ ≠ 0) := by
  unfold Vld1Defined
  decide

/-- 95 L16; 95 L9. -/
theorem witness_Vld1AbsentBlockFaults :
    (vld1Parts? (.vld1OneA32 ⟨.e8, 0, 0, .unspecified, .byTransferSize⟩) =
        some (1, ⟨.e8, 0, 0, .unspecified, .byTransferSize⟩) ∧
      Vld1Defined cfgA 1 ⟨.e8, 0, 0, .unspecified, .byTransferSize⟩ ∧ 0 + 1 ≤ cfgA.numDregs ∧
      0xFFFFFFFC % alignNeeded cfgA ⟨.e8, 0, 0, .unspecified, .byTransferSize⟩ = 0 ∧
      (start cfgA 0 [(0, 0xFFFFFFFC)] [] []).readR 0 = 0xFFFFFFFC ∧ 2 ^ 32 < 0xFFFFFFFC + 8 * 1) ∧
    ((start cfgA 0 [(0, 0x100C)] [] m16).readR 0 = 0x100C ∧ 0x100C + 8 * 1 ≤ 2 ^ 32 ∧ 4 < 8 * 1 ∧
      (start cfgA 0 [(0, 0x100C)] [] m16).mem.byte? (0x100C + 4) = none ∧
      ∀ j, j < 4 → ((start cfgA 0 [(0, 0x100C)] [] m16).mem.byte? (0x100C + j)).isSome = true) := by
  unfold Vld1Defined
  decide

theorem witness_Vld1SizeMattersOnlyBigEndian :
    vld1Parts? (.vld1OneA32 ⟨.e8, 0, 0, .unspecified, .noWriteback⟩) = some (1, ⟨.e8, 0, 0, .unspecified, .noWriteback⟩) ∧
    vld1Parts? (.vld1OneA32 ⟨.e64, 0, 0, .unspecified, .noWriteback⟩) =
      some (1, { (⟨.e8, 0, 0, .unspecified, .noWriteback⟩ : Vld1Operands) with size := .e64 }) ∧
    cfgA.bigEndian = false ∧ cfgA.strictAlign = false := by
  decide

theorem witness_DisabledSimdIsUndefined :
    (start { cfgA with simdEnabled := false } 0xF2010802#32 [] [] []).config.simdEnabled = false := by
  decide

theorem witness_InstructionsOnlyWriteRegisters : ∃ t, exec (.vmovnA32 ⟨.e16, 0, 2⟩) runsVadd = .next t :=
  next_of_isSome (by decide)

theorem witness_OnlyLoadsChangeTheirBase :
    ∃ t, exec (.vld1OneA32 ⟨.e8, 0, 0, .unspecified, .byTransferSize⟩) (start cfgA 0 [(0, 0x1000)] [] m16) = .next t ∧
      t.readR 0 ≠ (start cfgA 0 [(0, 0x1000)] [] m16).readR 0 := by
  obtain ⟨t, ht⟩ := next_of_isSome
    (x := exec (.vld1OneA32 ⟨.e8, 0, 0, .unspecified, .byTransferSize⟩) (start cfgA 0 [(0, 0x1000)] [] m16)) (by decide)
  refine ⟨t, ht, ?_⟩
  have hr : (nextOf (exec (.vld1OneA32 ⟨.e8, 0, 0, .unspecified, .byTransferSize⟩)
      (start cfgA 0 [(0, 0x1000)] [] m16))).map (fun u => u.readR 0) = some 0x1008 := by decide
  rw [ht] at hr
  simp only [nextOf, Option.map_some, Option.some.injEq] at hr
  rw [hr]
  decide

/-- A state with 16 registers, and one that differs from it in the cell of D16 alone. -/
def smallBank : State := start { cfgA with bank := .sixteen } 0xF2220844#32 [] [] []

theorem witness_SmallBankNeverReachesUpperCells :
    smallBank.config.bank = .sixteen ∧ smallBank = { (smallBank.writeD 16 9) with dregs := smallBank.dregs } ∧
    (∀ d : DNum, d.val < 16 → smallBank.readD d = (smallBank.writeD 16 9).readD d) ∧
    (nextOf (exec (.vaddA32 ⟨.e32, true, 0, 2, 4⟩) smallBank)).isSome = true ∧
    faultOf (exec (.vaddA32 ⟨.e32, true, 16, 2, 4⟩) smallBank) = some .undefined := by
  decide

theorem witness_MemReadFollowsTheByteOrder :
    ((start cfgA 0 [] [] m16).memRead 0x1008 8).toOption = some 0x0F0E0D0C0B0A0908 ∧
    ((start { cfgA with bigEndian := true } 0 [] [] m16).memRead 0x1008 8).toOption = some 0x08090A0B0C0D0E0F := by
  decide

theorem witness_MemWriteIsReadBack :
    ((start cfgA 0 [] [] m16).memWrite 0x100C 4 0xAABBCCDD).toOption.map (fun t => t.mem.byte? 0x100C) = some (some 0xDD) ∧
    ((start { cfgA with bigEndian := true } 0 [] [] m16).memWrite 0x100C 4 0xAABBCCDD).toOption.map
      (fun t => t.mem.byte? 0x100C) = some (some 0xAA) ∧
    (0x100C#32).toNat + 4 ≤ 2 ^ 32 ∧ (∀ k, k < 4 → (m16.byte? (0x100C + k)).isSome = true) ∧
    (2 ^ 32 < (0xFFFFFFFC#32).toNat + 5 ∧ ¬ 2 ^ 32 < (0xFFFFFFFC#32).toNat + 4) ∧
    ((0x100E#32).toNat + 4 ≤ 2 ^ 32 ∧ m16.byte? (0x100E + 2) = none ∧
      ∀ j, j < 2 → (m16.byte? (0x100E + j)).isSome = true) := by
  decide

/-- 95 L24 with an index that has no value either; 95 A11. -/
theorem witness_UnwrittenReadNamesTheFirstRegister :
    (decodeFault? (launched 0 [] []).machine.config (.vld1OneA32 ⟨.e8, 0, 3, .unspecified, .byRegister 2⟩) = none ∧
      (2 : Fin 15) ∈ (footprint (.vld1OneA32 ⟨.e8, 0, 3, .unspecified, .byRegister 2⟩)).readsR ∧
      (launched 0 [] []).hasR 2 = false ∧
      ∀ q : Fin 15, q < 2 → q ∈ (footprint (.vld1OneA32 ⟨.e8, 0, 3, .unspecified, .byRegister 2⟩)).readsR →
        (launched 0 [] []).hasR q = true) ∧
    (decodeFault? (launched 0 [] [(2, 1), (3, 1), (5, 1)]).machine.config (.vaddA32 ⟨.e32, true, 0, 2, 4⟩) = none ∧
      (∀ r, r ∈ (footprint (.vaddA32 ⟨.e32, true, 0, 2, 4⟩)).readsR →
        (launched 0 [] [(2, 1), (3, 1), (5, 1)]).hasR r = true) ∧
      (4 : DNum) ∈ (footprint (.vaddA32 ⟨.e32, true, 0, 2, 4⟩)).readsD ∧
      (launched 0 [] [(2, 1), (3, 1), (5, 1)]).hasD 4 = false ∧
      ∀ e : DNum, e < 4 → e ∈ (footprint (.vaddA32 ⟨.e32, true, 0, 2, 4⟩)).readsD →
        (launched 0 [] [(2, 1), (3, 1), (5, 1)]).hasD e = true) := by
  decide

/-- A launched state, and one that differs in D0, which has no value; the next step of both runs to a next state. -/
def launchedVadd : Launched := launched 0xF2220844#32 [] [(2, 1), (3, 1), (4, 1), (5, 1)]

theorem witness_LaunchedRunsIgnoreUnvaluedParts :
    sameButUnvalued launchedVadd { launchedVadd with machine := launchedVadd.machine.writeD 0 9 } ∧
    launchedVadd.machine ≠ launchedVadd.machine.writeD 0 9 ∧ (nextOf (launchStep launchedVadd)).isSome = true := by
  unfold sameButUnvalued
  decide

/-- Quadword operands, an index register, and the last registers of the bank. -/
theorem witness_FootprintsAreTheOperands :
    decodeFault? cfgA (.vaddA32 ⟨.e32, true, 30, 0, 30⟩) = none ∧ decodeFault? cfgA (.vsubwA32 ⟨true, .e8, 0, 30, 31⟩) = none ∧
    decodeFault? cfgT (.vmovnT32 ⟨.e8, 31, 30⟩) = none ∧
    decodeFault? cfgT (.vld1FourT32 ⟨.e8, 28, 14, .unspecified, .byRegister 14⟩) = none := by
  decide

/-- 95 L20: nothing comes before the reads, and R2 has no value; and a VADD whose registers all have one. -/
theorem witness_LaunchStepFollowsTheStep :
    (ReachesReads (launched 0xF4200702#32 [(0, 0x1000)] []) (.vld1OneA32 ⟨.e8, 0, 0, .unspecified, .byRegister 2⟩) ∧
      ReadsUnvalued (launched 0xF4200702#32 [(0, 0x1000)] []) (.vld1OneA32 ⟨.e8, 0, 0, .unspecified, .byRegister 2⟩) (.r 2)) ∧
    (launchedVadd.unwritten? (footprint (.vaddA32 ⟨.e32, true, 0, 2, 4⟩)) = none ∧
      (nextOf (step launchedVadd.machine)).isSome = true) := by
  refine ⟨⟨⟨by decide, by decide, by decide, 0xF4200702#32, by decide, by decide⟩, ?_⟩, by decide⟩
  exact ⟨⟨1, ⟨.e8, 0, 0, .unspecified, .byRegister 2⟩, rfl, .inr rfl⟩, by decide⟩

/-- UnwrittenRead, a refusal and the end of the program; the first two are in the record after three steps. -/
theorem witness_LaunchStopIsRecordedAndEndsTheRun :
    (faultOf (launchStep (launched 0xF420070F#32 [] [])) = some (.unwrittenRead (.r 0)) ∧
      ((launched 0xF420070F#32 [] []).runFor 3).machine.faultRecord = some (.unwrittenRead (.r 0))) ∧
    (refusalOf (launchStep (launched 0#32 [] [])) = some .noInstructionDescription ∧
      ((launched 0#32 [] []).runFor 3).machine.refusalMark = some .noInstructionDescription) ∧
    refusalOf (launchStep (launchedVadd.runFor 1)) = some .programEnded := by
  decide

/-- Bytes: -128 and 127 stay signed, -129 and 128 are clamped; unsigned, 255 stays and -1 and 256 are clamped. -/
theorem witness_SaturationClampsToTheRange :
    0 < 8 ∧ (-(2 ^ (8 - 1)) : Int) = -128 ∧ (2 ^ (8 - 1) - 1 : Int) = 127 ∧ (2 ^ 8 - 1 : Int) = 255 ∧
    (saturate true 8 (-128) = -128 ∧ saturate true 8 127 = 127 ∧ saturate true 8 (-129) = -128 ∧ saturate true 8 128 = 127) ∧
    (saturate false 8 255 = 255 ∧ saturate false 8 (-1) = 0 ∧ saturate false 8 256 = 255) := by
  decide

/-- Lines, and the text of the word of 95 L17. -/
theorem witness_AssembleInvertsDisassemble :
    (disassemble cfgA (.vsubwA32 ⟨true, .e16, 0, 2, 31⟩)).isSome = true ∧
    (disassemble cfgT (.vld1FourT32 ⟨.e64, 28, 13, .a256, .byRegister 14⟩)).isSome = true ∧
    disassembleText cfgA 0xF4630A54#32 = some ("VLD1.16 ".toList ++ openBrace :: "D16, D17".toList ++
      closeBrace :: ", [R3:64], R4".toList) := by
  decide

/-- The word of 95 M3. -/
theorem witness_EveryAdmittedInstructionHasALine :
    decode cfgA.instrSet 0xF3FAF22E#32 = .ok (.vmovnA32 ⟨.e32, 31, 30⟩) ∧ admitted cfgA (.vmovnA32 ⟨.e32, 31, 30⟩) = true := by
  decide

/-- `VADD.I32 D0, D1, D2`, but for the parts a statement replaces. -/
def vaddText : AsmLine := ⟨.vadd, false, none, none, [.typed ⟨some .i, .e32⟩], .vectors [⟨.d, 0⟩, ⟨.d, 1⟩, ⟨.d, 2⟩]⟩

theorem witness_AssemblerEmitsAdmittedInstructions :
    assemble cfgA true vaddText = .ok (.vaddA32 ⟨.e32, false, 0, 1, 2⟩) := by
  decide

theorem witness_OmittedDestinationIsFirstSource :
    vaddText.mnemonic = .vadd ∧
    assemble cfgA true { vaddText with operands := .vectors [⟨.d, 1⟩, ⟨.d, 2⟩] } =
      .ok (.vaddA32 ⟨.e32, false, 1, 1, 2⟩) := by
  decide

/-- Quadword operands, where the suffix is read; a doubleword operand, where it is not. -/
theorem witness_QSuffixAddsNothing :
    (vaddText.mnemonic = .vadd ∧ (∀ r ∈ [VecReg.mk .q 0, VecReg.mk .q 1, VecReg.mk .q 2], r.kind = .q) ∧
      assemble cfgA true { vaddText with qSuffix := true, operands := .vectors [⟨.q, 0⟩, ⟨.q, 1⟩, ⟨.q, 2⟩] } =
        .ok (.vaddA32 ⟨.e32, true, 0, 2, 4⟩)) ∧
    (vaddText.operands = .vectors [⟨.d, 0⟩, ⟨.d, 1⟩, ⟨.d, 2⟩] ∧
      ∃ r ∈ [VecReg.mk .d 0, VecReg.mk .d 1, VecReg.mk .d 2], r.kind ≠ .q) ∧ Mnemonic.vsubw ≠ .vadd ∧
    (disassemble cfgA (.vaddA32 ⟨.e32, true, 0, 2, 4⟩)).isSome = true ∧
    (assembleText cfgA (cs := "VADDQ.I32 Q0, Q1, Q2".toList)).toOption = some 0xF2220844#32 := by
  decide

/-- `VLD1.8 D0, [R0]`, but for the parts a statement replaces. -/
def vld1Text : AsmLine :=
  ⟨.vld1, false, none, none, [.typed ⟨none, .e8⟩], .load ⟨false, [.one ⟨.d, 0⟩ .whole]⟩ ⟨.r 0, none, .none⟩⟩

theorem witness_AddressSpellingsAgree :
    vld1Text.mnemonic = .vld1 ∧ listDoublewords cfgA ⟨false, [.one ⟨.d, 0⟩ .whole]⟩ = .ok [0] ∧ 16 ≠ 8 * [0].length ∧
    assemble cfgA true { vld1Text with operands := .load ⟨false, [.one ⟨.d, 0⟩ .whole]⟩ ⟨.r 0, some (.at, 64), .imm 8⟩ } =
      .ok (.vld1OneA32 ⟨.e8, 0, 0, .a64, .byTransferSize⟩) ∧
    disassemble cfgA (.vld1OneA32 ⟨.e8, 0, 0, .a64, .byTransferSize⟩) = some { vld1Text with
      operands := .load ⟨true, [.one ⟨.d, 0⟩ .whole]⟩ ⟨.r 0, some (.colon, 64), .bang⟩ } := by
  decide

/-- `VSUBW.I16.I16.S8 Q3, Q5, D0`. -/
theorem witness_LastDataTypeGoverns :
    assemble cfgA true ⟨.vsubw, false, none, none, [.typed ⟨some .i, .e16⟩, .typed ⟨some .i, .e16⟩, .typed ⟨some .s, .e8⟩],
      .vectors [⟨.q, 3⟩, ⟨.q, 5⟩, ⟨.d, 0⟩]⟩ = .ok (.vsubwA32 ⟨false, .e8, 6, 10, 0⟩) := by
  decide

/-- A list of three types, of which each position matches the shape; and lists that are rejected: of an earlier type of
`<dt>`'s own size, of a type that is not taken, and of an `S` beside a `U` (42 R88). -/
theorem witness_DataTypeListsFollowTheShape :
    governingType .vsubw [.typed ⟨some .i, .e16⟩, .typed ⟨some .s, .e16⟩, .typed ⟨some .s, .e8⟩] = .ok ⟨some .s, .e8⟩ ∧
    governingType .vld1 [.abbrevD] = .ok ⟨some .f, .e64⟩ ∧
    (∀ dt, governingType .vsubw [.typed ⟨some .i, .e32⟩, .typed ⟨some .s, .e32⟩] ≠ .ok dt) ∧
    (∀ dt, governingType .vmovn [.typed ⟨some .i, .e8⟩] ≠ .ok dt) ∧
    (∀ dt, governingType .vadd [.typed ⟨some .u, .e8⟩, .typed ⟨some .s, .e8⟩] ≠ .ok dt) := by
  refine ⟨by decide, by decide, ?_, ?_, ?_⟩ <;> exact fun dt h => nomatch h

/-- A range of one, a range upwards and a range downwards. -/
theorem witness_ListSpellingsAgree :
    4 ≤ 4 ∧ listDoublewords cfgA ⟨true, [.range ⟨.d, 4⟩ ⟨.d, 4⟩]⟩ = .ok [4] ∧ 1 ≤ 2 ∧
    listDoublewords cfgA ⟨true, [.one ⟨.q, 1⟩ .whole, .one ⟨.q, 2⟩ .whole]⟩ = .ok [2, 3, 4, 5] ∧ 3 < 5 ∧
    assemble cfgA true (withList vld1Text [.range ⟨.q, 1⟩ ⟨.q, 2⟩] ⟨.r 0, none, .none⟩) =
      .ok (.vld1FourA32 ⟨.e8, 2, 0, .unspecified, .noWriteback⟩) ∧
    (ElemSuffix.lane 0 ≠ .whole ∧ ListItem.one ⟨.q, 1⟩ (.lane 0) ∈ [ListItem.one ⟨.d, 0⟩ (.lane 0), .one ⟨.q, 1⟩ (.lane 0)]) := by
  decide

/-- VADD in either form, VSUBW and VMOVN. -/
theorem witness_QBitSelectsTheWidth :
    decode .a32 0xF2220844#32 = .ok (.vaddA32 ⟨.e32, true, 0, 2, 4⟩) ∧
    decode .a32 0xF2220804#32 = .ok (.vaddA32 ⟨.e32, false, 0, 2, 4⟩) ∧
    decode .t32 0xEF8A6300#32 = .ok (.vsubwT32 ⟨false, .e8, 6, 10, 0⟩) ∧
    decode .t32 0xFFB60202#32 = .ok (.vmovnT32 ⟨.e16, 0, 2⟩) := by
  decide

/-- Every register field at its largest value, written out from the encodings of 44 R112 to R115. -/
theorem witness_DoublewordNumberFields :
    decode .a32 0xF24FF8AF#32 = .ok (.vaddA32 ⟨.e8, false, 31, 31, 31⟩) ∧
    decode .a32 0xF2CFF3AF#32 = .ok (.vsubwA32 ⟨false, .e8, 31, 31, 31⟩) ∧
    decode .t32 0xFFF2F22F#32 = .ok (.vmovnT32 ⟨.e8, 31, 31⟩) ∧
    decode .t32 0xF960F70F#32 = .ok (.vld1OneT32 ⟨.e8, 31, 0, .unspecified, .noWriteback⟩) := by
  decide

/-- A word whose sz bit is 0 and one whose sz bit is 1, with every register field at its largest value. -/
theorem witness_SingleNumberFields :
    ((0x004FF0AF#32).extractLsb' 8 1 = 0#1 ∧ fpDest 0x004FF0AF#32 = .single 31 ∧ fpSecond 0x004FF0AF#32 = .single 31) ∧
    ((0x004FF1AF#32).extractLsb' 8 1 = 1#1 ∧ fpDest 0x004FF1AF#32 = .double 31 ∧ fpSecond 0x004FF1AF#32 = .double 31) := by
  decide

/-- VADD; VSUBW with U set in either set; VMOVN; VLD1 in each format, with Rn, size and align not zero (95 A10, W7, M3, L17, L18,
L6). -/
theorem witness_OtherFieldsStandWhereTheEncodingPutsThem :
    decode .a32 0xF240F88F#32 = .ok (.vaddA32 ⟨.e8, false, 31, 16, 15⟩) ∧
    decode .a32 0xF392032F#32 = .ok (.vsubwA32 ⟨true, .e16, 0, 2, 31⟩) ∧
    decode .t32 0xFF92032F#32 = .ok (.vsubwT32 ⟨true, .e16, 0, 2, 31⟩) ∧
    decode .a32 0xF3FAF22E#32 = .ok (.vmovnA32 ⟨.e32, 31, 30⟩) ∧
    decode .a32 0xF4630A54#32 = .ok (.vld1TwoA32 ⟨.e16, 16, 3, .a64, .byRegister 4⟩) ∧
    decode .a32 0xF46CC2FD#32 = .ok (.vld1FourA32 ⟨.e64, 28, 12, .a256, .byTransferSize⟩) ∧
    decode .a32 0xF420060F#32 = .ok (.vld1ThreeA32 ⟨.e8, 0, 0, .unspecified, .noWriteback⟩) := by
  decide

/-- Small letters and capitals (40 R60). -/
theorem witness_LetterCaseIsImmaterial :
    "vadd.i32 q0, q1, Q2".toList.map upcase = "VADD.I32 Q0, Q1, Q2".toList ∧
    (assembleText cfgA (cs := "vadd.i32 q0, q1, Q2".toList)).toOption = some 0xF2220844#32 := by
  decide

end Sys2Proof.Tests
end

section
/-! PROOFS. Register numbers and scalars in the fields of a word (spec 30 R43 to R47, R50; 10 R17). -/

namespace Sys2Proof.Machine

/-! ## Numbers of field pairs -/

/-- The number of two fields side by side. -/
theorem toNat_append_eq_add {m n : Nat} (x : BitVec m) (v : BitVec n) :
    (x ++ v).toNat = 2 ^ n * x.toNat + v.toNat := by
  rw [BitVec.toNat_append, Nat.shiftLeft_eq, Nat.mul_comm, Nat.two_pow_add_eq_or_of_lt v.isLt]

theorem dNumber_val (x : BitVec 1) (v : BitVec 4) : (dNumber x v).val = 16 * x.toNat + v.toNat :=
  toNat_append_eq_add x v

theorem sNumber_val (v : BitVec 4) (x : BitVec 1) : (sNumber v x).val = 2 * v.toNat + x.toNat :=
  toNat_append_eq_add v x

theorem dHighBit_toNat (i : DNum) : (dHighBit i).toNat = i.val / 16 := by
  simp only [dHighBit, BitVec.extractLsb'_toNat, BitVec.toNat_ofNat, Nat.shiftRight_eq_div_pow]
  omega

theorem dLowBits_toNat (i : DNum) : (dLowBits i).toNat = i.val % 16 := by
  simp only [dLowBits, BitVec.extractLsb'_toNat, BitVec.toNat_ofNat, Nat.shiftRight_eq_div_pow]
  omega

theorem sHighBits_toNat (j : Fin 32) : (sHighBits j).toNat = j.val / 2 := by
  simp only [sHighBits, BitVec.extractLsb'_toNat, BitVec.toNat_ofNat, Nat.shiftRight_eq_div_pow]
  omega

theorem sLowBit_toNat (j : Fin 32) : (sLowBit j).toNat = j.val % 2 := by
  simp only [sLowBit, BitVec.extractLsb'_toNat, BitVec.toNat_ofNat, Nat.shiftRight_eq_div_pow]
  omega

/-- A single-precision number is read back from its two fields (30 R47). -/
@[simp] theorem sNumber_fields (j : Fin 32) : sNumber (sHighBits j) (sLowBit j) = j := by
  ext
  rw [sNumber_val, sHighBits_toNat, sLowBit_toNat]
  omega

/-- The four-bit field alone is the doubleword register that contains `S<v:x>` (30 R47, 10 R17). -/
theorem sHome_sNumber_val (v : BitVec 4) (x : BitVec 1) : (sHome (sNumber v x)).val = v.toNat := by
  simp only [sHome, sNumber_val]
  omega

/-! ## Widths that a field selects -/

/-- A one-bit field is 1 when its bit of the word is set. -/
theorem fieldAt_eq_one_iff (w : Word) (lo : Nat) : fieldAt w lo 1 = 1#1 ↔ w.getLsbD lo = true := by
  have hbit : (fieldAt w lo 1).getLsbD 0 = w.getLsbD lo := getLsbD_fieldAt w lo 1 0
  obtain h | h := BitVec.eq_zero_or_eq_one (fieldAt w lo 1) <;> simp [← hbit, h]

theorem widthOfQ_eq (w : Word) : widthOfQ w = if w.getLsbD 6 then .quad else .double := by
  simp only [widthOfQ, fieldAt_eq_one_iff]

theorem fpReg_of_sz_zero {w : Word} (h : w.extractLsb' 8 1 = 0#1) (x : BitVec 1) (v : BitVec 4) :
    fpReg w x v = .single (sNumber v x) := by
  simp [fpReg, widthOfSz, fieldAt, h]

theorem fpReg_of_sz_one {w : Word} (h : w.extractLsb' 8 1 = 1#1) (x : BitVec 1) (v : BitVec 4) :
    fpReg w x v = .double (dNumber x v) := by
  simp [fpReg, widthOfSz, fieldAt, h]

/-! ## Scalars of multiply instructions -/

theorem decodeScalar_s16_reg (m : BitVec 1) (vm : BitVec 4) : (decodeScalar .s16 m vm).reg.val = vm.toNat % 8 := by
  simp only [decodeScalar, dNumber_val, toNat_append_eq_add, BitVec.extractLsb'_toNat]
  simp

theorem decodeScalar_s16_index (m : BitVec 1) (vm : BitVec 4) :
    (decodeScalar .s16 m vm).index = 2 * m.toNat + vm.toNat / 8 := by
  simp only [decodeScalar, toNat_append_eq_add, BitVec.extractLsb'_toNat, Nat.shiftRight_eq_div_pow]
  omega

theorem decodeScalar_s32_reg (m : BitVec 1) (vm : BitVec 4) : (decodeScalar .s32 m vm).reg.val = vm.toNat := by
  simp [decodeScalar, dNumber_val]

theorem decodeScalar_s32_index (m : BitVec 1) (vm : BitVec 4) : (decodeScalar .s32 m vm).index = m.toNat := rfl

/-- The fields are read back from the scalar they name (30 R50). -/
@[simp] theorem encodeScalar?_decodeScalar (size : ScalarSize) (m : BitVec 1) (vm : BitVec 4) :
    encodeScalar? size (decodeScalar size m vm) = some (m, vm) := by
  cases size <;> (revert m vm; decide)

theorem encodeScalar?_s16_eq_none {x : Scalar} (h : 7 < x.reg.val ∨ 3 < x.index) : encodeScalar? .s16 x = none :=
  if_neg (by omega)

theorem encodeScalar?_s32_eq_none {x : Scalar} (h : 15 < x.reg.val ∨ 1 < x.index) : encodeScalar? .s32 x = none :=
  if_neg (by omega)

/-- The 32-bit scalar of M and Vm is the single-precision register of the same five bits. -/
theorem sOfScalar?_decodeScalar (m : BitVec 1) (vm : BitVec 4) :
    sOfScalar? (decodeScalar .s32 m vm) = some (sNumber vm m) := by
  have hfits : vm.toNat ≤ 15 ∧ m.toNat ≤ 1 := by omega
  simp only [sOfScalar?, decodeScalar_s32_reg, decodeScalar_s32_index, dif_pos hfits, Option.some.injEq, Fin.ext_iff,
    sNumber_val]

/-- A 32-bit scalar has the value of the single-precision register it is equivalent to (43 R104, 10 R17). -/
theorem readScalar_eq_readS {x : Scalar} {j : Fin 32} (h : sOfScalar? x = some j) (s : State) :
    s.readScalar x 32 = s.readS j := by
  unfold sOfScalar? at h
  split at h
  · next hfits =>
    obtain rfl := Option.some.inj h
    have hhome : sHome ⟨2 * x.reg.val + x.index, by omega⟩ = x.reg := by
      ext
      simp only [sHome]
      omega
    have hpart : (2 * x.reg.val + x.index) % 2 = x.index := by omega
    simp only [State.readScalar, State.readS, hhome, hpart]
  · cases h

theorem readScalar_decodeScalar_s16 (s : State) (m : BitVec 1) (vm : BitVec 4) :
    s.readScalar (decodeScalar .s16 m vm) 16 =
      elem (s.readD ⟨vm.toNat % 8, by omega⟩) (2 * m.toNat + vm.toNat / 8) 16 := by
  have hreg : (decodeScalar .s16 m vm).reg = ⟨vm.toNat % 8, by omega⟩ := Fin.ext (decodeScalar_s16_reg m vm)
  rw [State.readScalar, hreg, decodeScalar_s16_index]

end Sys2Proof.Machine
end

section
/-! PROOFS. The operands of a decoded instruction are the fields of its word (spec 30 R45, 44 R112 to R115). -/

namespace Sys2Proof.Machine

/-- The bit of a VSUBW word that holds U (44 R113). -/
def unsignedBitOf : InstrSet → Nat
  | .a32 => 24
  | .t32 => 28

/-- The operands of `i` are what its row reads from the word `w`, of whichever mnemonic `i` is. Bit 6 is a fixed 0 of the
rows of VSUBW and VMOVN (44 R113, R114). -/
structure OperandsAreFields (iset : InstrSet) (w : Word) (i : Instr) : Prop where
  vadd : ∀ o, vaddParts? i = some o → o = vaddFields w
  vsubw : ∀ o, vsubwParts? i = some o → vsubwFields (unsignedBitOf iset) w = some o ∧ w.getLsbD 6 = false
  vmovn : ∀ o, vmovnParts? i = some o → o = vmovnFields w ∧ w.getLsbD 6 = false
  vld1 : ∀ regs o, vld1Parts? i = some (regs, o) → o = vld1Fields w

/-- Whatever decodes has the fields of its word as its operands. -/
theorem operandsAreFields_of_decode {iset : InstrSet} {w : Word} {i : Instr} (h : decode iset w = .ok i) :
    OperandsAreFields iset w i := by
  obtain ⟨r, hr, hbits, hbuild⟩ := row_of_decode h
  have hbit6 : r.mask.getLsbD 6 = true → w.getLsbD 6 = r.bits.getLsbD 6 := getLsbD_of_hasBits hbits
  cases iset
  all_goals
    simp only [rowsOf, rowsA32, rowsT32, List.mem_cons, List.not_mem_nil, or_false] at hr
    obtain rfl | rfl | rfl | hvld1 := hr
    · cases hbuild
      exact ⟨by rintro _ ⟨⟩; rfl, nofun, nofun, nofun⟩
    · obtain ⟨o, ho, rfl⟩ := Option.map_eq_some_iff.mp hbuild
      exact ⟨nofun, by rintro _ ⟨⟩; exact ⟨ho, hbit6 rfl⟩, nofun, nofun⟩
    · cases hbuild
      exact ⟨nofun, nofun, by rintro _ ⟨⟩; exact ⟨rfl, hbit6 rfl⟩, nofun⟩
    · obtain rfl | rfl | rfl | rfl := hvld1
      all_goals
        cases hbuild
        exact ⟨nofun, nofun, nofun, by rintro _ _ ⟨⟩; rfl⟩

/-- The register fields of VSUBW are read alike in both sets; only U has another place. -/
theorem vsubwFields_registers {uBit : Nat} {w : Word} {o : VsubwOperands} (h : vsubwFields uBit w = some o) :
    o.d = dNumber (fieldAt w 22 1) (fieldAt w 12 4) ∧ o.n = dNumber (fieldAt w 7 1) (fieldAt w 16 4) ∧
      o.m = dNumber (fieldAt w 5 1) (fieldAt w 0 4) := by
  unfold vsubwFields at h
  split at h
  · cases h
  · cases h
    exact ⟨rfl, rfl, rfl⟩

/-- VADD's Q is bit 6 of the word (30 R43). -/
theorem vaddFields_quad (w : Word) : (vaddFields w).quad = w.getLsbD 6 := by
  simp [vaddFields, fieldAt_eq_one_iff]

end Sys2Proof.Machine
end

section
/-! PROOFS. The obligations on the register-number, width and scalar fields (spec 30 R43 to R47, R50). -/

namespace Sys2Proof.Machine

/-- Settles O16: the two fields are the high bit and the low four bits of one number, and every row reads them at the same
places. -/
theorem doublewordNumberFields : Obligations.DoublewordNumberFields := by
  refine ⟨dNumber_val, fun i => ⟨dHighBit_toNat i, dLowBits_toNat i, dNumber_fields i⟩, fun iset w i h => ?_⟩
  obtain ⟨hvadd, hvsubw, hvmovn, hvld1⟩ := operandsAreFields_of_decode h
  refine ⟨fun o ho => ?_, fun o ho => ?_, fun o ho => ?_, fun regs o ho => ?_⟩
  · obtain rfl := hvadd o ho
    exact ⟨rfl, rfl, rfl⟩
  · exact vsubwFields_registers (hvsubw o ho).1
  · obtain ⟨rfl, -⟩ := hvmovn o ho
    exact ⟨rfl, rfl⟩
  · obtain rfl := hvld1 regs o ho
    rfl

/-- Settles O54: VADD reads Q at bit 6, which is a fixed 0 of the rows of VSUBW and VMOVN. -/
theorem qBitSelectsTheWidth : Obligations.QBitSelectsTheWidth := by
  refine ⟨fun w => ?_, fun iset w i h => ?_⟩
  · rw [widthOfQ_eq]
    cases w.getLsbD 6 <;> decide
  · obtain ⟨hvadd, hvsubw, hvmovn, -⟩ := operandsAreFields_of_decode h
    refine ⟨fun o ho => ?_, fun o ho => (hvsubw o ho).2, fun o ho => (hvmovn o ho).2⟩
    rw [hvadd o ho, vaddFields_quad]

/-- Settles O18: the two fields are the high four bits and the low bit of one number, and sz selects how a field pair is
read. -/
theorem singleNumberFields : Obligations.SingleNumberFields := by
  refine ⟨fun x v => ⟨sNumber_val v x, sHome_sNumber_val v x⟩,
    fun j => ⟨sHighBits_toNat j, sLowBit_toNat j, sNumber_fields j⟩, fun w hsz => ?_, fun w hsz => ?_⟩
  · exact ⟨fpReg_of_sz_zero hsz _ _, fpReg_of_sz_zero hsz _ _, fpReg_of_sz_zero hsz _ _⟩
  · exact ⟨fpReg_of_sz_one hsz _ _, fpReg_of_sz_one hsz _ _, fpReg_of_sz_one hsz _ _⟩

/-- Settles O19: register and index are arithmetic in M and Vm, and the 32-bit operand is the single-precision register that
the scalar is equivalent to. -/
theorem multiplyScalarFields : Obligations.MultiplyScalarFields := by
  refine ⟨fun m vm => ⟨?_, ?_⟩, fun x => encodeScalar?_s16_eq_none, fun x => encodeScalar?_s32_eq_none,
    fun s m vm => ⟨?_, ?_⟩⟩
  · exact ⟨decodeScalar_s16_reg m vm, decodeScalar_s16_index m vm, encodeScalar?_decodeScalar .s16 m vm⟩
  · exact ⟨decodeScalar_s32_reg m vm, decodeScalar_s32_index m vm, encodeScalar?_decodeScalar .s32 m vm,
      sOfScalar?_decodeScalar m vm⟩
  · exact readScalar_decodeScalar_s16 s m vm
  · exact readScalar_eq_readS (sOfScalar?_decodeScalar m vm) s

end Sys2Proof.Machine
end

section
/-! PROOFS. The fields of a word that hold no register pair (spec 30 R51, 41 R71 to R74, 44 R112 to R115). -/

namespace Sys2Proof.Machine

/-! ## The values of the fields -/

theorem sizeOfField_bits (b : BitVec 2) : (sizeOfField b).bits = 8 * 2 ^ b.toNat := by
  revert b
  decide

/-- Each alignment has one field value (44 R115). -/
theorem alignOfField_eq_iff (b : BitVec 2) (a : AlignSpec) : alignOfField b = a ↔ b = alignField a := by
  constructor
  · rintro rfl
    exact (alignField_alignOfField b).symm
  · rintro rfl
    exact alignOfField_alignField a

/-- Each well-formed format has one field value (41 R71 to R74). -/
theorem formatOfField_eq_iff (b : BitVec 4) {f : AddrFormat} (hf : f.wellFormed = true) :
    formatOfField b = f ↔ b = formatField f := by
  constructor
  · rintro rfl
    exact (formatField_formatOfField b).1.symm
  · rintro rfl
    exact formatOfField_formatField f hf

/-- The values that make the `Rm` field an index register are the numbers of R0 to R14 but for 13 (41 R73). -/
theorem formatOfField_eq_byRegister_iff (b : BitVec 4) (rm : Fin 15) :
    formatOfField b = .byRegister rm ↔ rm ≠ 13 ∧ rm.val = b.toNat := by
  revert b rm
  decide

/-! ## The places of the fields -/

/-- VSUBW's size and U (44 R113). -/
theorem vsubwFields_type {uBit : Nat} {w : Word} {o : VsubwOperands} (h : vsubwFields uBit w = some o) :
    o.size = sizeOfField (fieldAt w 20 2) ∧ o.isUnsigned = w.getLsbD uBit := by
  unfold vsubwFields at h
  split at h
  · cases h
  · cases h
    exact ⟨rfl, by simp [fieldAt_eq_one_iff]⟩

/-- A field that a row fixes whole is the row's in every word that has its fixed bits. -/
theorem fieldAt_of_hasBits {r : Row} {w : Word} {lo len : Nat} (h : r.hasBits w = true)
    (hm : fieldAt r.mask lo len = BitVec.allOnes len) : fieldAt w lo len = fieldAt r.bits lo len := by
  simp only [Row.hasBits, decide_eq_true_eq] at h
  rw [← h, fieldAt, fieldAt, BitVec.extractLsb'_and, ← fieldAt, ← fieldAt, hm, BitVec.and_allOnes]

/-- The `type` field of a VLD1 with a list of one to four registers (44 R115). -/
def vld1TypeField : Nat → BitVec 4
  | 1 => 0b0111#4
  | 2 => 0b1010#4
  | 3 => 0b0110#4
  | _ => 0b0010#4

/-- The `type` field of a word that decodes to a VLD1 is that of its number of registers. -/
theorem vld1Type_of_decode {iset : InstrSet} {w : Word} {i : Instr} {regs : Nat} {o : Vld1Operands}
    (h : decode iset w = .ok i) (hi : vld1Parts? i = some (regs, o)) :
    (1 ≤ regs ∧ regs ≤ 4) ∧ fieldAt w 8 4 = vld1TypeField regs := by
  obtain ⟨r, hr, hbits, hbuild⟩ := row_of_decode h
  have htype := fieldAt_of_hasBits (lo := 8) (len := 4) hbits
  cases iset
  all_goals
    simp only [rowsOf, rowsA32, rowsT32, List.mem_cons, List.not_mem_nil, or_false] at hr
    obtain rfl | rfl | rfl | hvld1 := hr
    · cases hbuild
      cases hi
    · obtain ⟨o, -, rfl⟩ := Option.map_eq_some_iff.mp hbuild
      cases hi
    · cases hbuild
      cases hi
    · obtain rfl | rfl | rfl | rfl := hvld1
      all_goals
        cases hbuild
        cases hi
        exact ⟨by decide, htype (by decide)⟩

end Sys2Proof.Machine
end

section
/-! PROOFS. VLD1: which encodings complete, what is loaded, what becomes of the base (spec 41 R71 to R75, 44 R115). -/

namespace Sys2Proof.Machine

/-! ## The rows -/

/-- Every VLD1 row means `vld1` of its number of registers (44 R111, R115). -/
theorem exec_of_vld1Parts {i : Instr} {regs : Nat} {o : Vld1Operands} (h : vld1Parts? i = some (regs, o)) (s : State) :
    exec i s = vld1 regs o s := by
  cases i with
  | vaddA32 | vaddT32 | vsubwA32 | vsubwT32 | vmovnA32 | vmovnT32 => cases h
  | vld1OneA32 | vld1OneT32 | vld1TwoA32 | vld1TwoT32 | vld1ThreeA32 | vld1ThreeT32 | vld1FourA32 | vld1FourT32 =>
    cases h
    rfl

/-! ## Undefined and Unpredictable encodings (44 R115, 41 R75, 43 R97) -/

/-- No Undefined condition holds when the first three tests of `vld1Base` pass. -/
theorem vld1Defined_iff (c : Config) (regs : Nat) (o : Vld1Operands) :
    Vld1Defined c regs o ↔ c.simdEnabled = true ∧ alignPermitted regs o.align = true ∧ inBank c o.d 1 = true := by
  have halign : alignPermitted regs o.align = true ↔ (o.align = .unspecified ∨ o.align = .a64 ∨
      (o.align = .a128 ∧ (regs = 2 ∨ regs = 4)) ∨ (o.align = .a256 ∧ regs = 4)) := by
    cases o.align <;> simp [alignPermitted]
  rw [Vld1Defined, halign, inBank_iff, Nat.succ_le_iff]

/-- A list whose first register exists fits when it ends at the bank's end or before. -/
theorem listFits_of_defined {c : Config} {regs : Nat} {o : Vld1Operands} (h : Vld1Defined c regs o) :
    listFits c o.d.val regs 1 = true ↔ o.d.val + regs ≤ c.numDregs := by
  obtain ⟨-, -, hfirst⟩ := h
  rw [listFits_iff]
  omega

theorem vld1Base_of_defined {c : Config} {regs : Nat} {o : Vld1Operands} {rn : Fin 15} (h : Vld1Defined c regs o)
    (hrn : o.rn.val = rn.val) (hfit : o.d.val + regs ≤ c.numDregs) : vld1Base c regs o = .ok rn := by
  obtain ⟨henabled, halign, hfirst⟩ := (vld1Defined_iff c regs o).mp h
  exact (vld1Base_ok_iff c regs o rn).mpr
    ⟨henabled, halign, hfirst, gprOf?_eq_some_iff.mpr hrn, (listFits_of_defined h).mpr hfit⟩

theorem vld1Base_of_pc {c : Config} {regs : Nat} {o : Vld1Operands} (h : Vld1Defined c regs o) (hrn : o.rn = 15) :
    vld1Base c regs o = .error (.unpredictable .baseIsPc) := by
  obtain ⟨henabled, halign, hfirst⟩ := (vld1Defined_iff c regs o).mp h
  have hpc : gprOf? o.rn = none := by rw [hrn]; rfl
  simp [vld1Base, henabled, halign, hfirst, hpc]

theorem vld1Base_of_wrap {c : Config} {regs : Nat} {o : Vld1Operands} (h : Vld1Defined c regs o) (hrn : o.rn ≠ 15)
    (hwrap : c.numDregs < o.d.val + regs) : vld1Base c regs o = .error (.unpredictable .listWraps) := by
  obtain ⟨henabled, halign, hfirst⟩ := (vld1Defined_iff c regs o).mp h
  have hbase : gprOf? o.rn = some ⟨o.rn.val, by omega⟩ := gprOf?_eq_some_iff.mpr rfl
  have hlist : listFits c o.d.val regs 1 = false := by
    rw [← Bool.not_eq_true, listFits_of_defined h]
    omega
  simp [vld1Base, henabled, halign, hfirst, hbase, hlist]

/-- A VLD1 with no base register ends in the fault that `vld1Base` answers. -/
theorem exec_of_vld1Base_error {i : Instr} {regs : Nat} {o : Vld1Operands} {s : State} {f : Fault}
    (hi : vld1Parts? i = some (regs, o)) (h : vld1Base s.config regs o = .error f) : exec i s = .fault f := by
  rw [exec_of_vld1Parts hi, vld1, h]

/-- The alignment that 20 R33 asks for is the one that the address is tested against. -/
theorem requiredAlign_eq_alignNeeded (c : Config) (o : Vld1Operands) :
    requiredAlign c o.size o.align = alignNeeded c o := by
  unfold alignNeeded requiredAlign
  cases o.align with
  | unspecified => cases o.size <;> rfl
  | a64 | a128 | a256 => rfl

/-! ## The base register (41 R71 to R74) -/

/-- An instruction's base update leaves every other general-purpose register. -/
theorem readR_writeBack_ne (s s0 : State) {rn q : Fin 15} (ts : Nat) (f : AddrFormat) (hq : q ≠ rn) :
    (writeBack s0 rn ts f s).readR q = s.readR q := by
  rcases writeBack_cases s s0 rn ts f with ⟨-, h⟩ | ⟨-, h⟩ <;> simp [h, readR_writeR, hq]

/-- What the base update leaves in a base register that nothing else has written. -/
theorem readR_writeBack_base {s s0 : State} {rn : Fin 15} (regs : Nat) (f : AddrFormat) (h : s.readR rn = s0.readR rn) :
    (writeBack s0 rn (transferSize regs) f s).readR rn = newBase s0 regs rn f := by
  cases f with
  | noWriteback => exact h
  | byTransferSize | byRegister => exact readR_writeR_same _ _ _

/-! ## The block (20 R31, R32) -/

/-- A block that fits and whose bytes are all present is loaded. -/
theorem exists_loadBlock {s : State} {addr : Word} {n : Nat} (hfit : addr.toNat + n ≤ 2 ^ 32)
    (hall : ∀ k, k < n → (s.mem.byte? (addr.toNat + k)).isSome = true) : ∃ bs, s.loadBlock addr n = .ok bs := by
  cases h : s.loadBlock addr n with
  | ok bs => exact ⟨bs, rfl⟩
  | error f =>
    obtain ⟨hwrap, -⟩ | ⟨-, x, -, hlow, hhigh, habsent, -⟩ := loadBlock_error_cases h
    · omega
    · have hpresent := hall (x - addr.toNat) (by omega)
      rw [Nat.add_sub_cancel' hlow, habsent] at hpresent
      cases hpresent

/-- Byte `k` of a block is the byte of memory `k` after its first address. -/
theorem getElem?_of_loadBlock {s : State} {addr : Word} {n k : Nat} {bs : List Byte} (h : s.loadBlock addr n = .ok bs)
    (hk : k < n) : bs[k]? = s.mem.byte? (addr.toNat + k) := by
  obtain ⟨-, hlen, hbytes⟩ := (loadBlock_ok_iff s addr n bs).mp h
  rw [List.getElem?_eq_getElem (by omega), hbytes k (by omega)]

/-! ## The registers (44 R115, 10 R18) -/

/-- A part of an element is a part of the vector. -/
theorem elem_elem {n w m size : Nat} (v : BitVec n) (e j : Nat) (hw : w = m * size) (hj : j < m) :
    elem (elem v e w) j size = elem v (e * m + j) size := by
  have hend : j * size + size ≤ w := by
    rw [hw, ← Nat.succ_mul]
    exact Nat.mul_le_mul_right size hj
  refine BitVec.eq_of_getLsbD_eq fun i hi => ?_
  have hplace : e * w + (j * size + i) = (e * m + j) * size + i := by
    rw [hw]
    ring
  rw [getLsbD_elem, getLsbD_elem, getLsbD_elem, hplace, decide_eq_true (show j * size + i < w by omega), Bool.true_and]

/-- An element of a doubleword ends within its eight bytes. -/
theorem element_ends_within {size : ElemSize} {e : Nat} (he : e < 8 / size.bytes) :
    e * size.bytes + size.bytes ≤ 8 :=
  calc e * size.bytes + size.bytes = (e + 1) * size.bytes := (Nat.succ_mul _ _).symm
    _ ≤ 8 / size.bytes * size.bytes := Nat.mul_le_mul_right _ he
    _ ≤ 8 := Nat.div_mul_le_self _ _

/-- The place in an element of the byte that becomes its byte `j` (20 R32). -/
theorem bytePlace_lt (be : Bool) {n j : Nat} (hj : j < n) : (if be then n - 1 - j else j) < n := by
  split <;> omega

/-- Byte `j` of element `e` of a loaded register is the byte that the byte order puts there. -/
theorem byte_loadRegister (be : Bool) {size : ElemSize} {bs : List Byte} {e j : Nat} (hlen : bs.length = 8)
    (he : e < 8 / size.bytes) (hj : j < size.bytes) :
    some (elem (loadRegister be size bs) (e * size.bytes + j) 8) =
      bs[e * size.bytes + (if be then size.bytes - 1 - j else j)]? := by
  have hend := element_ends_within he
  have hfill : 8 / size.bytes * size.bits ≤ 64 := by cases size <;> decide
  have hbits : size.bits = size.bytes * 8 := by rw [bits_eq_bytes, Nat.mul_comm]
  have helement : ((bs.drop (e * size.bytes)).take size.bytes).length = size.bytes := by
    rw [List.length_take, List.length_drop]
    omega
  rw [← elem_elem _ e j hbits hj, loadRegister, elem_buildElems _ _ _ he hfill,
    elem_orderedValue be helement hj (by omega), List.getElem?_take_of_lt (bytePlace_lt be hj), List.getElem?_drop]

/-- The register `r` after the first of a written list reads the list's value `r`. -/
theorem readD_writeDs_dPlus (s : State) {d : DNum} {vs : List DWord} {r : Nat} (hd : d.val + vs.length ≤ 32)
    (hr : r < vs.length) : (s.writeDs d vs).readD (dPlus d r) = vs[r] := by
  have hplace : (dPlus d r).val = d.val + r := dPlus_val (by omega)
  rw [readD_writeDs _ _ _ _ hd, dif_pos (by omega)]
  simp only [hplace, Nat.add_sub_cancel_left]

/-- A register outside a written list is as before. -/
theorem readD_writeDs_outside (s : State) {d j : DNum} {vs : List DWord} (hd : d.val + vs.length ≤ 32)
    (hj : j.val < d.val ∨ d.val + vs.length ≤ j.val) : (s.writeDs d vs).readD j = s.readD j := by
  rw [readD_writeDs _ _ _ _ hd, dif_neg (by omega)]

/-- Byte `j` of element `e` of the register `r` after the first is the block's byte that the byte order puts there. -/
theorem byte_of_loadedRegister (s : State) (be : Bool) {size : ElemSize} {d : DNum} {regs r e j : Nat} {bs : List Byte}
    (hd : d.val + regs ≤ 32) (hlen : bs.length = 8 * regs) (hr : r < regs) (he : e < 8 / size.bytes)
    (hj : j < size.bytes) :
    some (elem ((s.writeDs d (loadedRegisters be size regs bs)).readD (dPlus d r)) (e * size.bytes + j) 8) =
      bs[8 * r + e * size.bytes + (if be then size.bytes - 1 - j else j)]? := by
  have hend := element_ends_within he
  have hplace := bytePlace_lt be hj
  have hregister : ((bs.drop (8 * r)).take 8).length = 8 := by
    rw [List.length_take, List.length_drop]
    omega
  have hvalue : (s.writeDs d (loadedRegisters be size regs bs)).readD (dPlus d r) =
      loadRegister be size ((bs.drop (8 * r)).take 8) := by
    rw [readD_writeDs_dPlus s (by simpa using hd) (by simpa using hr)]
    simp [loadedRegisters]
  rw [hvalue, byte_loadRegister be hregister he hj, List.getElem?_take_of_lt (by omega), List.getElem?_drop,
    Nat.add_assoc]

/-! ## Completion -/

/-- What a VLD1 leaves when its encoding is predictable, its address aligned and its block present (44 R115). -/
def vld1Result (s : State) (regs : Nat) (o : Vld1Operands) (rn : Fin 15) (bs : List Byte) : State :=
  (writeBack s rn (transferSize regs) o.format
    (s.writeDs o.d (loadedRegisters s.config.bigEndian o.size regs bs))).advance

/-- Outside the register files a completed VLD1 moves the pc only. -/
theorem vld1Result_frame (s : State) (regs : Nat) (o : Vld1Operands) (rn : Fin 15) (bs : List Byte) :
    (vld1Result s regs o rn bs).pc = s.pc + 4 ∧ (vld1Result s regs o rn bs).mem = s.mem ∧
    (vld1Result s regs o rn bs).config = s.config ∧ (vld1Result s regs o rn bs).text = s.text ∧
    (vld1Result s regs o rn bs).faultRecord = s.faultRecord ∧
    (vld1Result s regs o rn bs).refusalMark = s.refusalMark := by
  simp [vld1Result]

/-- A VLD1 that passes its checks answers its result. -/
theorem exec_eq_vld1Result {i : Instr} {regs : Nat} {o : Vld1Operands} {rn : Fin 15} {s : State} {bs : List Byte}
    (hi : vld1Parts? i = some (regs, o)) (hdef : Vld1Defined s.config regs o) (hrn : o.rn.val = rn.val)
    (hfit : o.d.val + regs ≤ s.config.numDregs) (halign : (s.readR rn).toNat % alignNeeded s.config o = 0)
    (hblock : s.loadBlock (s.readR rn) (transferSize regs) = .ok bs) :
    exec i s = .next (vld1Result s regs o rn bs) := by
  have haligned : alignFault? s.config o.size o.align (s.readR rn) = none := by
    rwa [alignFault?_none_iff, requiredAlign_eq_alignNeeded]
  simp only [exec_of_vld1Parts hi, vld1, vld1Base_of_defined hdef hrn hfit, haligned, hblock, complete, vld1Result]

/-! ## The general-purpose registers after an instruction -/

/-- No instruction but a load changes a general-purpose register. -/
theorem readR_of_not_load {i : Instr} {s t : State} (hi : vld1Parts? i = none) (h : exec i s = .next t) (r : Fin 15) :
    t.readR r = s.readR r := by
  cases i with
  | vaddA32 o | vaddT32 o =>
    obtain ⟨-, rfl⟩ := vadd_next (o := o) h
    simp
  | vsubwA32 o | vsubwT32 o =>
    obtain ⟨-, rfl⟩ := vsubw_next (o := o) h
    simp
  | vmovnA32 o | vmovnT32 o =>
    obtain ⟨-, rfl⟩ := vmovn_next (o := o) h
    simp
  | vld1OneA32 | vld1OneT32 | vld1TwoA32 | vld1TwoT32 | vld1ThreeA32 | vld1ThreeT32 | vld1FourA32 | vld1FourT32 =>
    cases hi

/-- A register that a load changes is its base, and its format writes back. -/
theorem vld1_changes_base {regs : Nat} {o : Vld1Operands} {s t : State} {r : Fin 15} (h : vld1 regs o s = .next t)
    (hr : t.readR r ≠ s.readR r) : o.rn.val = r.val ∧ o.format ≠ .noWriteback := by
  obtain ⟨rn, bs, hbase, -, -, rfl⟩ := vld1_next h
  obtain ⟨-, -, -, hrn, -⟩ := (vld1Base_ok_iff _ _ _ _).mp hbase
  constructor
  · by_contra hne
    have hother : r ≠ rn := by
      rintro rfl
      exact hne (gprOf?_eq_some_iff.mp hrn)
    exact hr (by rw [readR_advance, readR_writeBack_ne _ _ _ _ hother, readR_writeDs])
  · intro hformat
    exact hr (by simp [hformat, writeBack, AddrFormat.writesBack])

end Sys2Proof.Machine
end

section
/-! PROOFS. What the assembler has checked when it answers an instruction (spec 41 R73, R75, 43 R97, 92 D8). -/

namespace Sys2Proof.Machine

/-! ## Lines -/

/-- A line that assembles passed its three checks, and its mnemonic and operands fit together. -/
theorem assemble_ok {c : Config} {q : Bool} {l : AsmLine} {i : Instr} (h : assemble c q l = .ok i) :
    checkCondition l = .ok () ∧ checkQSuffix q l = .ok () ∧ ∃ dt, governingType l.mnemonic l.dts = .ok dt ∧
      ((l.mnemonic = .vadd ∧ ∃ rs, l.operands = .vectors rs ∧ asmVadd c dt rs = .ok i) ∨
        (l.mnemonic = .vsubw ∧ ∃ rs, l.operands = .vectors rs ∧ asmVsubw c dt rs = .ok i) ∨
        (l.mnemonic = .vmovn ∧ ∃ rs, l.operands = .vectors rs ∧ asmVmovn c dt rs = .ok i) ∨
        (l.mnemonic = .vld1 ∧ ∃ list a, l.operands = .load list a ∧ asmVld1 c dt list a = .ok i)) := by
  unfold assemble at h
  split at h
  · cases h
  · cases h
  · cases h
  · next dt hcond hsuffix htype =>
    refine ⟨hcond, hsuffix, dt, htype, ?_⟩
    split at h
    · next rs hm hops => exact .inl ⟨hm, rs, hops, h⟩
    · next rs hm hops => exact .inr (.inl ⟨hm, rs, hops, h⟩)
    · next rs hm hops => exact .inr (.inr (.inl ⟨hm, rs, hops, h⟩))
    · next list a hm hops => exact .inr (.inr (.inr ⟨hm, list, a, hops, h⟩))
    all_goals cases h

/-- A governing type is one that the mnemonic takes (42 R88 step 4). -/
theorem takes_of_governingType {m : Mnemonic} {specs : List DtSpec} {dt : DataType}
    (h : governingType m specs = .ok dt) : m.takes dt = true := by
  unfold governingType at h
  dsimp only at h
  split at h
  · cases h
  · next t ht =>
    split at h
    · cases h
    · next htakes =>
      have hlast : t = dt := by
        repeat' split at h
        all_goals cases h <;> rfl
      simpa [← hlast] using htakes

/-! ## Registers (43 R91) -/

/-- A doubleword register that is read names a register of the bank. -/
theorem inBank_of_fieldNumber? {c : Config} {r : VecReg} {i : DNum} (h : fieldNumber? c r = some i) (hr : r.kind = .d) :
    inBank c i 1 = true := by
  unfold fieldNumber? at h
  rw [hr] at h
  dsimp only at h
  split at h
  · split at h
    · next hnum =>
      cases h
      exact (inBank_iff c _ 1).mpr hnum
    · cases h
  · cases h

/-- A quadword register that is read has an even field and both its halves in the bank. -/
theorem quadField_of_fieldNumber? {c : Config} {r : VecReg} {i : DNum} (h : fieldNumber? c r = some i)
    (hr : r.kind = .q) : oddField i = false ∧ inBank c i 2 = true := by
  have hbank := numDregs_cases c
  unfold fieldNumber? at h
  rw [hr] at h
  dsimp only at h
  split at h
  · split at h
    · next hnum =>
      cases h
      exact ⟨(oddField_false_iff _).mpr (Nat.mul_mod_right 2 r.num), (inBank_iff c _ 2).mpr (by dsimp only; omega)⟩
    · cases h
  · cases h

/-- An even field is that of the first half of its quadword register (30 R46). -/
theorem qFirst_qOf {i : DNum} (h : oddField i = false) : qFirst (qOf i) = i := by
  rw [oddField_false_iff] at h
  ext
  simp only [qFirst, qOf]
  omega

/-! ## What the instructions of a set need to be admitted (92 D8) -/

/-- The configuration of an enabled machine, for which words are assembled (10 R22). -/
def enabledConfig (c : Config) : Config := { c with simdEnabled := true }

@[simp] theorem simdEnabled_enabledConfig (c : Config) : (enabledConfig c).simdEnabled = true := rfl

@[simp] theorem inBank_enabledConfig (c : Config) (i : DNum) (k : Nat) :
    inBank (enabledConfig c) i k = inBank c i k := rfl

@[simp] theorem listFits_enabledConfig (c : Config) (d k inc : Nat) :
    listFits (enabledConfig c) d k inc = listFits c d k inc := rfl

theorem admitted_iff (c : Config) (i : Instr) :
    admitted c i = true ↔ i.wellFormed = true ∧ i.instrSet = c.instrSet ∧ decodeFault? (enabledConfig c) i = none := by
  simp [admitted, enabledConfig, and_assoc]

theorem admitted_vaddIn (c : Config) (o : VaddOperands) :
    admitted c (vaddIn c.instrSet o) = true ↔ vaddFault? (enabledConfig c) o = none := by
  rw [admitted_iff]
  cases c.instrSet <;> simp [vaddIn, Instr.wellFormed, Instr.instrSet, decodeFault?]

theorem admitted_vsubwIn (c : Config) (o : VsubwOperands) :
    admitted c (vsubwIn c.instrSet o) = true ↔ o.wellFormed = true ∧ vsubwFault? (enabledConfig c) o = none := by
  rw [admitted_iff]
  cases c.instrSet <;> simp [vsubwIn, Instr.wellFormed, Instr.instrSet, decodeFault?]

theorem admitted_vmovnIn (c : Config) (o : VmovnOperands) :
    admitted c (vmovnIn c.instrSet o) = true ↔ vmovnFault? (enabledConfig c) o = none := by
  rw [admitted_iff]
  cases c.instrSet <;> simp [vmovnIn, Instr.wellFormed, Instr.instrSet, decodeFault?]

theorem admitted_of_vld1In? {c : Config} {regs : Nat} {o : Vld1Operands} {i : Instr}
    (h : vld1In? c.instrSet regs o = some i) :
    admitted c i = true ↔ o.format.wellFormed = true ∧ vld1Fault? (enabledConfig c) regs o = none := by
  rw [admitted_iff]
  unfold vld1In? at h
  split at h
  case h_9 => cases h
  all_goals
    next hset =>
      cases h
      simp [Instr.wellFormed, Instr.instrSet, decodeFault?, hset]

/-! ## Data-processing lines -/

theorem asmVadd_admitted {c : Config} {dt : DataType} {rs : List VecReg} {i : Instr} (h : asmVadd c dt rs = .ok i) :
    admitted c i = true := by
  unfold asmVadd at h
  split at h
  · cases h
  · next rd rn rm _ =>
    split at h
    · cases h
    · next hkinds =>
      obtain ⟨hdn, hnm, hs⟩ : rd.kind = rn.kind ∧ rn.kind = rm.kind ∧ rd.kind ≠ .s := by simpa using hkinds
      split at h
      · next d n m hd hn hm =>
        cases h
        rw [admitted_vaddIn, vaddFault?_none_iff]
        cases hk : rd.kind with
        | s => exact absurd hk hs
        | d =>
          have hd := inBank_of_fieldNumber? hd hk
          have hn := inBank_of_fieldNumber? hn (hdn ▸ hk)
          have hm := inBank_of_fieldNumber? hm (hnm ▸ hdn ▸ hk)
          exact ⟨rfl, nofun, hd, hn, hm⟩
        | q =>
          obtain ⟨hd, hd2⟩ := quadField_of_fieldNumber? hd hk
          obtain ⟨hn, hn2⟩ := quadField_of_fieldNumber? hn (hdn ▸ hk)
          obtain ⟨hm, hm2⟩ := quadField_of_fieldNumber? hm (hnm ▸ hdn ▸ hk)
          exact ⟨rfl, fun _ => ⟨hd, hn, hm⟩, hd2, hn2, hm2⟩
      · cases h

theorem asmVsubw_admitted {c : Config} {dt : DataType} {rs : List VecReg} {i : Instr}
    (ht : Mnemonic.vsubw.takes dt = true) (h : asmVsubw c dt rs = .ok i) : admitted c i = true := by
  have hsize : dt.size ≠ .e64 := by
    simp only [Mnemonic.takes, Bool.and_eq_true, decide_eq_true_eq] at ht
    exact ht.2
  unfold asmVsubw at h
  split at h
  · cases h
  · next rd rn rm _ =>
    split at h
    · cases h
    · next hkinds =>
      obtain ⟨hkd, hkn, hkm⟩ : rd.kind = .q ∧ rn.kind = .q ∧ rm.kind = .d := by simpa using hkinds
      split at h
      · next d n m hd hn hm =>
        cases h
        obtain ⟨hd, hd2⟩ := quadField_of_fieldNumber? hd hkd
        obtain ⟨hn, hn2⟩ := quadField_of_fieldNumber? hn hkn
        have hm := inBank_of_fieldNumber? hm hkm
        rw [admitted_vsubwIn, vsubwFault?_none_iff, qFirst_qOf hd, qFirst_qOf hn]
        exact ⟨decide_eq_true hsize, rfl, hd, hn, hd2, hn2, hm⟩
      · cases h

/-- No size is half of a larger one than 64 bits (42 R82). -/
theorem halfSize?_ne_e64 {k size : ElemSize} (h : halfSize? k = some size) : size ≠ .e64 := by
  cases k <;> cases h <;> decide

theorem asmVmovn_admitted {c : Config} {dt : DataType} {rs : List VecReg} {i : Instr}
    (h : asmVmovn c dt rs = .ok i) : admitted c i = true := by
  unfold asmVmovn at h
  split at h
  · next rd rm =>
    split at h
    · cases h
    · next hkinds =>
      obtain ⟨hkd, hkm⟩ : rd.kind = .d ∧ rm.kind = .q := by simpa using hkinds
      split at h
      · next size d m hsize hd hm =>
        cases h
        have hd := inBank_of_fieldNumber? hd hkd
        obtain ⟨hm, hm2⟩ := quadField_of_fieldNumber? hm hkm
        rw [admitted_vmovnIn, vmovnFault?_none_iff, qFirst_qOf hm]
        exact ⟨rfl, halfSize?_ne_e64 hsize, hm, hd, hm2⟩
      · cases h
      · cases h
  · cases h

/-! ## Load lines -/

/-- A list of whole registers is read as doubleword numbers that are consecutive and within the bank (43 R97). -/
theorem listDoublewords_ok {c : Config} {l : RegList} {ds : List Nat} (h : listDoublewords c l = .ok ds) :
    ds = listNumbers (ds.headD 0) ds.length 1 ∧ 0 < ds.length ∧ listFits c (ds.headD 0) ds.length 1 = true := by
  unfold listDoublewords at h
  split at h
  · cases h
  · split at h
    · cases h
    · split at h
      · cases h
      · cases h
      · split at h
        · cases h
        · split at h
          · cases h
          · next hnumbers hfits =>
            cases h
            exact ⟨not_not.mp hnumbers, Nat.succ_pos _, by simpa using hfits⟩

/-- A VLD1's list is one that names no elements. -/
theorem listDoublewords_of_listForVld1 {c : Config} {l : RegList} {ds : List Nat} (h : listForVld1 c l = .ok ds) :
    listDoublewords c l = .ok ds := by
  unfold listForVld1 at h
  split at h
  · cases h
  · exact h

/-- An alignment that is read is permitted with its list (44 R115). -/
theorem alignPermitted_of_text {regs : Nat} {t : Option (AlignSep × Nat)} {a : AlignSpec}
    (h : alignOfText regs t = .ok a) : alignPermitted regs a = true := by
  unfold alignOfText at h
  split at h
  · cases h
    rfl
  · split at h
    · cases h
    · split at h
      · next hp =>
        cases h
        exact hp
      · cases h

/-- A base that is read is not the pc (41 R75). -/
theorem baseOfText_ne_pc {g : GprText} {rn : Fin 16} (h : baseOfText g = .ok rn) : rn.val < 15 := by
  unfold baseOfText at h
  split at h
  · split at h
    · cases h
    · cases h
      dsimp only
      omega
  · cases h

/-- An index register that is read is neither SP nor PC (41 R73). -/
theorem wellFormed_of_formatOfText {regs : Nat} {p : PostText} {f : AddrFormat} (h : formatOfText regs p = .ok f) :
    f.wellFormed = true := by
  unfold formatOfText at h
  split at h
  · cases h
    rfl
  · cases h
    rfl
  · split at h
    · cases h
      rfl
    · cases h
  · split at h
    · cases h
    · next hindex =>
      split at h
      · cases h
        simp only [AddrFormat.wellFormed, decide_eq_true_eq, ne_eq, Fin.ext_iff]
        exact fun h13 => hindex (.inl h13)
      · cases h

/-- A load line that assembles has a list, an alignment, a base and a format that are each read, and its number of
registers has a row. -/
theorem asmVld1_ok {c : Config} {dt : DataType} {l : RegList} {a : AddressText} {i : Instr}
    (h : asmVld1 c dt l a = .ok i) : ∃ ds align rn format, listForVld1 c l = .ok ds ∧
      alignOfText ds.length a.align = .ok align ∧ baseOfText a.base = .ok rn ∧
      formatOfText ds.length a.post = .ok format ∧
      vld1In? c.instrSet ds.length ⟨dt.size, Fin.ofNat 32 (ds.headD 0), rn, align, format⟩ = some i := by
  unfold asmVld1 at h
  split at h
  · cases h
  · next ds hlist =>
    split at h
    · cases h
    · cases h
    · cases h
    · next align rn format halign hbase hformat =>
      split at h
      · next hrow =>
        cases h
        exact ⟨ds, align, rn, format, hlist, halign, hbase, hformat, hrow⟩
      · cases h

theorem asmVld1_admitted {c : Config} {dt : DataType} {l : RegList} {a : AddressText} {i : Instr}
    (h : asmVld1 c dt l a = .ok i) : admitted c i = true := by
  obtain ⟨ds, align, rn, format, hlist, halign, hbase, hformat, hrow⟩ := asmVld1_ok h
  obtain ⟨-, -, hfits⟩ := listDoublewords_ok (listDoublewords_of_listForVld1 hlist)
  have hfirst : ds.headD 0 < c.numDregs := by
    rw [listFits_iff] at hfits
    omega
  have hd : (Fin.ofNat 32 (ds.headD 0)).val = ds.headD 0 := by
    have hbank := numDregs_cases c
    exact Nat.mod_eq_of_lt (by omega)
  have hbaseOk : vld1Base (enabledConfig c) ds.length ⟨dt.size, Fin.ofNat 32 (ds.headD 0), rn, align, format⟩ =
      .ok ⟨rn.val, baseOfText_ne_pc hbase⟩ := by
    rw [vld1Base_ok_iff, gprOf?_eq_some_iff, inBank_enabledConfig, inBank_iff, listFits_enabledConfig, hd]
    exact ⟨rfl, alignPermitted_of_text halign, hfirst, rfl, hfits⟩
  rw [admitted_of_vld1In? hrow, vld1Fault?, hbaseOk]
  exact ⟨wellFormed_of_formatOfText hformat, rfl⟩

end Sys2Proof.Machine
end

section
/-! PROOFS. The spellings of an address, read and printed (spec 41 R77, R78, 92 D16). -/

namespace Sys2Proof.Machine

/-! ## Read -/

/-- Two addresses that give the same instruction after a list give it in every load line. -/
theorem assemble_load_congr {c : Config} (q : Bool) {l : AsmLine} {list : RegList} {a b : AddressText}
    (hm : l.mnemonic = .vld1) (h : ∀ dt, asmVld1 c dt list a = asmVld1 c dt list b) :
    assemble c q { l with operands := .load list a } = assemble c q { l with operands := .load list b } := by
  unfold assemble
  simp only [hm, h]
  rfl

/-- No load line assembles when no governing type gives its list and address an instruction. -/
theorem assemble_load_ne_ok {c : Config} {q : Bool} {l : AsmLine} {list : RegList} {a : AddressText} {i : Instr}
    (h : ∀ dt, asmVld1 c dt list a ≠ .ok i) : assemble c q { l with operands := .load list a } ≠ .ok i := by
  intro hok
  obtain ⟨-, -, dt, -, hline⟩ := assemble_ok hok
  obtain ⟨-, rs, hops, -⟩ | ⟨-, rs, hops, -⟩ | ⟨-, rs, hops, -⟩ | ⟨-, list', a', hops, hasm⟩ := hline
  · cases hops
  · cases hops
  · cases hops
  · cases hops
    exact h dt hasm

/-- `@` is read as `:` (41 R77). -/
theorem asmVld1_at (c : Config) (dt : DataType) (list : RegList) (a : AddressText) (n : Nat) :
    asmVld1 c dt list { a with align := some (.at, n) } = asmVld1 c dt list { a with align := some (.colon, n) } := rfl

/-- The list of a load line that is read is the one of its whole registers. -/
theorem eq_of_listForVld1 {c : Config} {list : RegList} {ds ds' : List Nat} (h : listDoublewords c list = .ok ds)
    (h' : listForVld1 c list = .ok ds') : ds' = ds := by
  rw [listDoublewords_of_listForVld1 h'] at h
  exact Except.ok.inj h

/-- The transfer size as an immediate is `!` (41 R78). -/
theorem asmVld1_transferSize {c : Config} {list : RegList} {ds : List Nat} (h : listDoublewords c list = .ok ds)
    (dt : DataType) (a : AddressText) :
    asmVld1 c dt list { a with post := .imm (8 * ds.length) } = asmVld1 c dt list { a with post := .bang } := by
  have hformat : formatOfText ds.length (.imm (8 * ds.length)) = formatOfText ds.length .bang := if_pos rfl
  unfold asmVld1
  cases hlist : listForVld1 c list with
  | error e => rfl
  | ok ds' =>
    obtain rfl := eq_of_listForVld1 h hlist
    simp only [hformat]

/-- Any other immediate is rejected (41 R78). -/
theorem asmVld1_otherImmediate {c : Config} {list : RegList} {ds : List Nat} {n : Nat}
    (h : listDoublewords c list = .ok ds) (hn : n ≠ 8 * ds.length) (dt : DataType) (a : AddressText) (i : Instr) :
    asmVld1 c dt list { a with post := .imm n } ≠ .ok i := by
  intro hok
  obtain ⟨ds', -, -, format, hlist, -, -, hformat, -⟩ := asmVld1_ok hok
  obtain rfl := eq_of_listForVld1 h hlist
  rw [formatOfText, transferSize, if_neg hn] at hformat
  cases hformat

/-! ## Printed -/

/-- The line of a VLD1 row. -/
theorem lineOf_vld1 {i : Instr} {regs : Nat} {o : Vld1Operands} (h : vld1Parts? i = some (regs, o)) :
    lineOf i = some (vld1Line regs o) := by
  cases i with
  | vaddA32 | vaddT32 | vsubwA32 | vsubwT32 | vmovnA32 | vmovnT32 => cases h
  | vld1OneA32 | vld1OneT32 | vld1TwoA32 | vld1TwoT32 | vld1ThreeA32 | vld1ThreeT32 | vld1FourA32 | vld1FourT32 =>
    cases h
    rfl

/-- A line with a list and an address is that of a VLD1 row. -/
theorem exists_vld1Parts_of_lineOf {i : Instr} {l : AsmLine} {list : RegList} {a : AddressText} (h : lineOf i = some l)
    (hl : l.operands = .load list a) : ∃ regs o, vld1Parts? i = some (regs, o) := by
  cases i with
  | vaddA32 | vaddT32 | vsubwA32 | vsubwT32 =>
    cases h
    cases hl
  | vmovnA32 o | vmovnT32 o =>
    obtain ⟨k, -, rfl⟩ := Option.map_eq_some_iff.mp h
    cases hl
  | vld1OneA32 | vld1OneT32 | vld1TwoA32 | vld1TwoT32 | vld1ThreeA32 | vld1ThreeT32 | vld1FourA32 | vld1FourT32 =>
    exact ⟨_, _, rfl⟩

/-- What is disassembled is the instruction's line. -/
theorem lineOf_of_disassemble {c : Config} {i : Instr} {l : AsmLine} (h : disassemble c i = some l) :
    lineOf i = some l := by
  unfold disassemble at h
  split at h
  · exact h
  · cases h

/-- Alignments are printed with `:` (41 R77, 92 D16). -/
theorem alignText_sep {al : AlignSpec} {p : AlignSep × Nat} (h : alignText al = some p) : p.1 = .colon := by
  cases al <;> cases h <;> rfl

/-- No immediate is printed (41 R78, 92 D16). -/
theorem postText_ne_imm (f : AddrFormat) (n : Nat) : postText f ≠ .imm n := by
  cases f <;> nofun

end Sys2Proof.Machine
end

section
/-! PROOFS. The obligations on the addressing mode and its text (spec 41). -/

namespace Sys2Proof.Machine

/-- Settles O57: every row reads its operands at the same places, each field value has one meaning, and a VLD1 row fixes
the `type` field of its number of registers. -/
theorem otherFieldsStandWhereTheEncodingPutsThem : Obligations.OtherFieldsStandWhereTheEncodingPutsThem := by
  intro iset w i h
  obtain ⟨hvadd, hvsubw, hvmovn, hvld1⟩ := operandsAreFields_of_decode h
  refine ⟨fun o ho => ?_, fun o ho => ?_, fun o ho => ?_, fun regs o ho => ?_⟩
  · rw [hvadd o ho]
    exact ⟨sizeOfField_bits _, vaddFields_quad w⟩
  · obtain ⟨hsize, hunsigned⟩ := vsubwFields_type (hvsubw o ho).1
    rw [hsize, hunsigned]
    exact ⟨sizeOfField_bits _, by rintro rfl; rfl, by rintro rfl; rfl⟩
  · rw [(hvmovn o ho).1]
    exact sizeOfField_bits _
  · obtain ⟨⟨hone, hfour⟩, htype⟩ := vld1Type_of_decode h ho
    rw [hvld1 regs o ho]
    refine ⟨?_, rfl, sizeOfField_bits _, ⟨alignOfField_eq_iff _ _, alignOfField_eq_iff _ _, alignOfField_eq_iff _ _,
      alignOfField_eq_iff _ _⟩, formatOfField_eq_iff _ rfl, formatOfField_eq_iff _ rfl,
      formatOfField_eq_byRegister_iff _⟩
    rw [← fieldAt, htype]
    interval_cases regs <;> decide

/-- Settles O29: the block is loaded whole, each register is built from its eight bytes of it, and the base update
and the advance of the pc touch nothing else. -/
theorem vld1LoadsRegisters : Obligations.Vld1LoadsRegisters := by
  intro i regs o rn s hi hdef hrn hfit halign hend hpresent
  have hbank : o.d.val + regs ≤ 32 := by
    have := numDregs_cases s.config
    omega
  obtain ⟨bs, hblock⟩ := exists_loadBlock (addr := s.readR rn) hend hpresent
  obtain ⟨-, hlen, -⟩ := (loadBlock_ok_iff _ _ _ _).mp hblock
  obtain ⟨hpc, hmem, hrest⟩ := vld1Result_frame s regs o rn bs
  refine ⟨vld1Result s regs o rn bs, exec_eq_vld1Result hi hdef hrn hfit halign hblock, hpc, fun r e j hr he hj => ?_,
    ?_, fun q hq => ?_, fun d hd => ?_, fun a => by rw [hmem], hmem, hrest⟩
  · have hsmall := element_ends_within he
    have hplace := bytePlace_lt s.config.bigEndian hj
    rw [vld1Result, readD_advance, readD_writeBack, byte_of_loadedRegister s _ hbank hlen hr he hj,
      getElem?_of_loadBlock hblock (by omega), Nat.add_assoc, Nat.add_assoc, Nat.add_assoc]
  · rw [vld1Result, readR_advance, readR_writeBack_base regs o.format (by simp)]
  · rw [vld1Result, readR_advance, readR_writeBack_ne _ _ _ _ hq, readR_writeDs]
  · rw [vld1Result, readD_advance, readD_writeBack, readD_writeDs_outside s (by simpa using hbank) (by simpa using hd)]

/-- Settles O31: the tests of `vld1Base` come in this order, before any address is formed. -/
theorem vld1UnpredictableEncodings : Obligations.Vld1UnpredictableEncodings :=
  fun _ _ _ _ hi hdef => ⟨fun hrn => exec_of_vld1Base_error hi (vld1Base_of_pc hdef hrn),
    fun hrn hwrap => exec_of_vld1Base_error hi (vld1Base_of_wrap hdef hrn hwrap)⟩

/-- Settles O38: VADD, VSUBW and VMOVN write doubleword registers only, and a load's one other write
is its base update. -/
theorem onlyLoadsChangeTheirBase : Obligations.OnlyLoadsChangeTheirBase := by
  intro i s t r h hr
  cases hi : vld1Parts? i with
  | none => exact absurd (readR_of_not_load hi h r) hr
  | some p => exact ⟨p.1, p.2, rfl, vld1_changes_base (exec_of_vld1Parts hi s ▸ h) hr⟩

/-- Settles O48: each condition that makes a word Undefined or Unpredictable is one that the assembler has ruled out. -/
theorem assemblerEmitsAdmittedInstructions : Obligations.AssemblerEmitsAdmittedInstructions := by
  intro c q l i h
  obtain ⟨-, -, dt, htype, hline⟩ := assemble_ok h
  obtain ⟨-, rs, -, hasm⟩ | ⟨hm, rs, -, hasm⟩ | ⟨-, rs, -, hasm⟩ | ⟨-, list, a, -, hasm⟩ := hline
  · exact asmVadd_admitted hasm
  · exact asmVsubw_admitted (hm ▸ takes_of_governingType htype) hasm
  · exact asmVmovn_admitted hasm
  · exact asmVld1_admitted hasm

/-- Settles O51: the two separators are read alike, the immediate is compared with the transfer size, and the printed
forms are those of the canonical line. -/
theorem addressSpellingsAgree : Obligations.AddressSpellingsAgree := by
  refine ⟨fun c q l list a ds hm => ⟨fun n => ?_, fun hlist => ⟨?_, fun n i hn => ?_⟩⟩,
    fun c i l list a hdis hops => ?_⟩
  · exact assemble_load_congr q hm fun dt => asmVld1_at c dt list a n
  · exact assemble_load_congr q hm fun dt => asmVld1_transferSize hlist dt a
  · exact assemble_load_ne_ok fun dt => asmVld1_otherImmediate hlist hn dt a i
  · have hline := lineOf_of_disassemble hdis
    obtain ⟨regs, o, hi⟩ := exists_vld1Parts_of_lineOf hline hops
    obtain rfl := Option.some.inj ((lineOf_vld1 hi).symm.trans hline)
    cases hops
    refine ⟨fun p hp => alignText_sep hp, postText_ne_imm o.format, fun regs' o' hi' hformat => ?_⟩
    obtain ⟨rfl, rfl⟩ := Prod.mk.inj (Option.some.inj (hi.symm.trans hi'))
    simp [hformat, postText]

end Sys2Proof.Machine
end

section
/-! PROOFS. Lists of data types (spec 42 R82 to R88, 92 D18): the tests of `governingType` in the words of the statements. -/

namespace Sys2Proof.Machine

/-! ## Sizes (42 R82) -/

theorem bits_eq_bits_iff (k w : ElemSize) : w.bits = k.bits ↔ w = k := by
  cases k <;> cases w <;> decide

theorem doubleSize?_eq_some_iff (k w : ElemSize) : doubleSize? k = some w ↔ w.bits = 2 * k.bits := by
  cases k <;> cases w <;> decide

theorem halfSize?_eq_some_iff (k w : ElemSize) : halfSize? k = some w ↔ 2 * w.bits = k.bits := by
  cases k <;> cases w <;> decide

/-- Each size up to 32 bits has a double. -/
theorem exists_doubleSize {k : ElemSize} (h : k.bits ≤ 32) : ∃ w, doubleSize? k = some w := by
  cases k with
  | e64 => exact absurd h (by decide)
  | _ => exact ⟨_, rfl⟩

/-- Each size from 16 bits on has a half. -/
theorem exists_halfSize {k : ElemSize} (h : 16 ≤ k.bits) : ∃ w, halfSize? k = some w := by
  cases k with
  | e8 => exact absurd h (by decide)
  | _ => exact ⟨_, rfl⟩

/-! ## Types (42 R81, R85) -/

/-- `I`, `S` and `U` have all four sizes (42 R81). -/
theorem dataTypeExists_of_integerType {t : DataType} (h : IntegerType t) : t.exists = true := by
  obtain h | h | h := h <;> simp [DataType.exists, h]

/-- Of the letters, `P` and `F` alone lack sizes (42 R81). -/
theorem dataTypeExists_iff (t : DataType) : t.exists = true ↔
    (t.letter = some .p → t.size.bits ≤ 16) ∧ (t.letter = some .f → 16 ≤ t.size.bits) := by
  obtain ⟨_ | letter, size⟩ := t
  · simp [DataType.exists]
  · cases letter with
    | p | f => cases size <;> decide
    | i | s | u => simp [DataType.exists]

/-- Table F1-12's row of `.I<size>` (42 R85). -/
theorem matchesImplied_iff (k : ElemSize) (t : DataType) : matchesImplied k t = true ↔ IntegerType t ∧ t.size = k := by
  have hletter : (some .i = t.letter ∨ t.letter = some .s ∨ t.letter = some .u) ↔ IntegerType t :=
    or_congr_left eq_comm
  simp only [matchesImplied, acceptsType, Bool.and_eq_true, Bool.or_eq_true, decide_eq_true_eq, reduceCtorEq, or_false,
    true_and, hletter]
  exact ⟨fun ⟨_, hsize, h⟩ => ⟨h, hsize.symm⟩, fun ⟨h, hsize⟩ => ⟨dataTypeExists_of_integerType h, hsize.symm, h⟩⟩

/-- Where `S` or `U` is required no other letter will do (42 R85). -/
theorem acceptsType_signed_iff (t : DataType) {letter : TypeLetter} (h : letter = .s ∨ letter = .u) :
    acceptsType (some ⟨some letter, t.size⟩) t = true ↔ t.letter = some letter := by
  have hexists (hl : t.letter = some letter) : t.exists = true := by
    obtain rfl | rfl := h
    · exact dataTypeExists_of_integerType (.inr (.inl hl))
    · exact dataTypeExists_of_integerType (.inr (.inr hl))
  have hletter : acceptsType (some ⟨some letter, t.size⟩) t = true ↔ t.exists = true ∧ t.letter = some letter := by
    obtain rfl | rfl := h <;> simp [acceptsType, eq_comm (b := t.letter)]
  rw [hletter, and_iff_right_of_imp hexists]

/-- Each required class of 44 R112 to R115, read through Table F1-12 (42 R88 step 4). -/
theorem takes_iff_takenType (m : Mnemonic) (t : DataType) : m.takes t = true ↔ TakenType m t := by
  cases m with
  | vadd => exact (matchesImplied_iff t.size t).trans (and_iff_left rfl)
  | vsubw =>
    have hsize : t.size ≠ .e64 ↔ t.size.bits ≤ 32 := by cases t.size <;> decide
    simp [Mnemonic.takes, TakenType, acceptsType_signed_iff, hsize]
  | vmovn =>
    have hsize : t.size ≠ .e8 ↔ 16 ≤ t.size.bits := by cases t.size <;> decide
    have hint : acceptsType (some ⟨some .i, t.size⟩) t = true ↔ IntegerType t :=
      (matchesImplied_iff t.size t).trans (and_iff_left rfl)
    simp [Mnemonic.takes, TakenType, hint, hsize]
  | vld1 => simp [Mnemonic.takes, TakenType, acceptsType, dataTypeExists_iff]

/-- 92 D18. -/
theorem signednessAgrees_iff (ts : List DataType) : signednessAgrees ts = true ↔
    ¬ ((∃ t ∈ ts, t.letter = some .s) ∧ ∃ t ∈ ts, t.letter = some .u) := by
  simp [signednessAgrees, imp_iff_not_or]

/-- One type alone is not at odds with itself. -/
theorem signednessAgrees_singleton (t : DataType) : signednessAgrees [t] = true := by
  rw [signednessAgrees_iff]
  simp +contextual

/-! ## The types before the last (42 R82 to R84) -/

/-- A type that is taken has sizes implied by it, and those of two operands' types are the same (42 R82). -/
theorem exists_impliedSizes_of_takes {m : Mnemonic} {dt : DataType} (h : TakenType m dt) :
    ∃ res first, impliedSizes? m.shape dt.size = some (res, first) ∧ (m.sources = 2 → first = res) := by
  cases m with
  | vadd | vld1 => exact ⟨dt.size, dt.size, rfl, fun _ => rfl⟩
  | vsubw =>
    obtain ⟨w, hw⟩ := exists_doubleSize h.2
    exact ⟨w, w, by simp [impliedSizes?, Mnemonic.shape, hw], fun _ => rfl⟩
  | vmovn =>
    obtain ⟨w, hw⟩ := exists_halfSize h.2
    exact ⟨w, dt.size, by simp [impliedSizes?, Mnemonic.shape, hw], by simp [Mnemonic.sources]⟩

/-- The earlier types are no more than the source operands, each a match of the implied `.I<size>` (42 R88 step 5). -/
theorem earlierTypes_iff {m : Mnemonic} {dt : DataType} {res first : ElemSize}
    (h : impliedSizes? m.shape dt.size = some (res, first)) (early : List DataType) :
    EarlierTypes m dt early ↔ early.length ≤ m.sources ∧ ∀ t ∈ early, matchesImplied res t = true := by
  cases m with
  | vadd =>
    obtain ⟨rfl, -⟩ : dt.size = res ∧ dt.size = first := by simpa [impliedSizes?, Mnemonic.shape] using h
    simp [EarlierTypes, Mnemonic.sources, matchesImplied_iff, bits_eq_bits_iff]
  | vsubw =>
    obtain ⟨hfirst, rfl⟩ : doubleSize? dt.size = some first ∧ first = res := by
      simpa [impliedSizes?, Mnemonic.shape] using h
    have hsize := (doubleSize?_eq_some_iff _ _).mp hfirst
    simp [EarlierTypes, Mnemonic.sources, matchesImplied_iff, ← hsize, bits_eq_bits_iff]
  | vmovn =>
    obtain ⟨hres, -⟩ : halfSize? dt.size = some res ∧ dt.size = first := by
      simpa [impliedSizes?, Mnemonic.shape] using h
    have hsize := (halfSize?_eq_some_iff _ _).mp hres
    simp [EarlierTypes, Mnemonic.sources, matchesImplied_iff, ← hsize, bits_eq_bits_iff]
  | vld1 => simp +contextual [EarlierTypes, Mnemonic.sources]

/-! ## Lists (42 R88) -/

/-- The governing type is the last one. -/
theorem exists_append_of_governingType {m : Mnemonic} {specs : List DtSpec} {dt : DataType}
    (h : governingType m specs = .ok dt) : ∃ early, specs.map DtSpec.expand = early ++ [dt] := by
  rw [← List.getLast?_eq_some_iff]
  unfold governingType at h
  dsimp only at h
  split at h
  · cases h
  · next t ht =>
    rw [ht]
    split at h
    · cases h
    · repeat' split at h
      all_goals cases h <;> rfl

/-- One type that is taken is the governing one. -/
theorem governingType_singleton {m : Mnemonic} {spec : DtSpec} (h : m.takes spec.expand = true) :
    governingType m [spec] = .ok spec.expand := by
  simp [governingType, h]

/-- The steps of 42 R88 for a list whose last type is taken. -/
theorem governingType_append_iff {m : Mnemonic} {specs : List DtSpec} {early : List DataType} {dt : DataType}
    {res first : ElemSize} (hspecs : specs.map DtSpec.expand = early ++ [dt]) (htakes : m.takes dt = true)
    (himp : impliedSizes? m.shape dt.size = some (res, first)) (hsame : m.sources = 2 → first = res) :
    governingType m specs = .ok dt ↔
      (early.length ≤ m.sources ∧ ∀ t ∈ early, matchesImplied res t = true) ∧
        signednessAgrees (early ++ [dt]) = true := by
  have hsources : m.sources = 0 ∨ m.sources = 1 ∨ m.sources = 2 := by cases m <;> decide
  simp only [governingType, hspecs, List.getLast?_concat, htakes, himp]
  match early with
  | [] => simp [signednessAgrees_singleton]
  | [t1] =>
    obtain hk | hk | hk := hsources
    · simp [hk]
    · simp [hk]
    · simp [hk, hsame hk]
  | [t1, t2] =>
    obtain hk | hk | hk := hsources
    · simp [hk]
    · simp [hk]
    · simp [hk, hsame hk, and_assoc]
  | t1 :: t2 :: t3 :: rest =>
    have hlong : ¬ rest.length + 1 + 1 < m.sources := by omega
    simp [hlong]

/-- Which lists are accepted (42 R83 to R88, 92 D18). -/
theorem governingType_eq_ok_iff (m : Mnemonic) (specs : List DtSpec) (dt : DataType) :
    governingType m specs = .ok dt ↔
      ∃ early, specs.map DtSpec.expand = early ++ [dt] ∧ TakenType m dt ∧ EarlierTypes m dt early ∧
        signednessAgrees (early ++ [dt]) = true := by
  have accepted {early : List DataType} (hspecs : specs.map DtSpec.expand = early ++ [dt]) (htaken : TakenType m dt) :
      governingType m specs = .ok dt ↔ EarlierTypes m dt early ∧ signednessAgrees (early ++ [dt]) = true := by
    obtain ⟨res, first, himp, hsame⟩ := exists_impliedSizes_of_takes htaken
    rw [governingType_append_iff hspecs ((takes_iff_takenType m dt).mpr htaken) himp hsame, earlierTypes_iff himp]
  constructor
  · intro h
    have htaken := (takes_iff_takenType m dt).mp (takes_of_governingType h)
    obtain ⟨early, hspecs⟩ := exists_append_of_governingType h
    exact ⟨early, hspecs, htaken, (accepted hspecs htaken).mp h⟩
  · rintro ⟨early, hspecs, htaken, hrest⟩
    exact (accepted hspecs htaken).mpr hrest

/-! ## Lines -/

/-- Lists of data types with one governing type make no difference to a line (42 R88 step 6). -/
theorem assemble_dts_congr (c : Config) (q : Bool) (l : AsmLine) {specs : List DtSpec}
    (h : governingType l.mnemonic l.dts = governingType l.mnemonic specs) :
    assemble c q l = assemble c q { l with dts := specs } := by
  unfold assemble
  rw [h]
  rfl

/-- An accepted list and one specifier that stands for its governing type give one instruction. -/
theorem assemble_singleton (c : Config) (q : Bool) {l : AsmLine} {spec : DtSpec}
    (h : governingType l.mnemonic l.dts = .ok spec.expand) :
    assemble c q l = assemble c q { l with dts := [spec] } :=
  assemble_dts_congr c q l (h.trans (governingType_singleton (takes_of_governingType h)).symm)

end Sys2Proof.Machine
end

section
/-! PROOFS. The obligations on data type specifiers (spec 42). -/

namespace Sys2Proof.Machine

/-- Settles O59: the steps of 42 R88, read as one equivalence; a line sees its list through the governing type only. -/
theorem dataTypeListsFollowTheShape : Obligations.DataTypeListsFollowTheShape := by
  refine ⟨fun m specs dt => ?_, ⟨rfl, rfl⟩, fun c q l dt h => assemble_singleton c q h, fun c q l h i hok => ?_⟩
  · simp only [governingType_eq_ok_iff, signednessAgrees_iff]
  · obtain ⟨-, -, dt, htype, -⟩ := assemble_ok hok
    exact h dt htype

/-- Settles O52: the governing type is that of the last specifier, and taken alone it governs the line too. -/
theorem lastDataTypeGoverns : Obligations.LastDataTypeGoverns := by
  intro c q l i h
  obtain ⟨-, -, dt, htype, -⟩ := assemble_ok h
  obtain ⟨early, hspecs⟩ := exists_append_of_governingType htype
  obtain ⟨t, hlast, rfl⟩ : ∃ t, l.dts.getLast? = some t ∧ t.expand = dt := by
    simpa using congrArg List.getLast? hspecs
  exact ⟨t, hlast, (assemble_singleton c q htype).symm.trans h⟩

end Sys2Proof.Machine
end

section
/-! PROOFS. The 32-bit scalars of D0 to D15 and the single-precision registers are two names of one element (spec 43 R104, 10
R17). -/

namespace Sys2Proof.Machine

/-- D0 to D15 have an equivalent of each of their two 32-bit scalars. -/
theorem sOfScalar?_eq_some {x : Scalar} (hreg : x.reg.val ≤ 15) (hindex : x.index ≤ 1) :
    sOfScalar? x = some ⟨2 * x.reg.val + x.index, by omega⟩ :=
  dif_pos ⟨hreg, hindex⟩

/-- The registers above D15 have none. -/
theorem sOfScalar?_eq_none {x : Scalar} (hreg : 16 ≤ x.reg.val) : sOfScalar? x = none :=
  dif_neg (by omega)

/-- The equivalent of a scalar is in the scalar's register, at the scalar's index. -/
theorem place_of_sOfScalar? {x : Scalar} {j : Fin 32} (h : sOfScalar? x = some j) :
    sHome j = x.reg ∧ j.val % 2 = x.index := by
  unfold sOfScalar? at h
  split at h
  · next hfits =>
    obtain rfl := Option.some.inj h
    simp only [sHome, Fin.ext_iff]
    omega
  · cases h

/-- A write through either name is one write. -/
theorem writeScalar_eq_writeS {x : Scalar} {j : Fin 32} (h : sOfScalar? x = some j) (s : State) (v : Word) :
    s.writeScalar x v = s.writeS j v := by
  obtain ⟨hhome, hpart⟩ := place_of_sOfScalar? h
  rw [State.writeScalar, State.writeS, hhome, hpart]

/-- A single-precision register reads as what was written to it. -/
@[simp] theorem readS_writeS_same (s : State) (j : Fin 32) (v : Word) : (s.writeS j v).readS j = v := by
  rw [State.readS, State.writeS, readD_writeD_same, elem_setElem_same _ _ _ (by omega)]

end Sys2Proof.Machine
end

section
/-! PROOFS. The whole registers that a register list names, and the spellings that name the same ones (spec 43 R94 to R99). -/

namespace Sys2Proof.Machine

/-! ## Members -/

/-- A list that is mapped whole has every member mapped. -/
theorem exists_of_mem_of_mapM {α β : Type} {f : α → Option β} {x : α} : ∀ {xs : List α} {ys : List β},
    xs.mapM f = some ys → x ∈ xs → ∃ y, f x = some y
  | x' :: xs, ys, h, hx => by
    simp only [List.mapM_cons, Option.bind_eq_bind, Option.bind_eq_some_iff] at h
    obtain ⟨y, hy, ys', hys', -⟩ := h
    obtain rfl | hx := List.mem_cons.mp hx
    · exact ⟨y, hy⟩
    · exact exists_of_mem_of_mapM hys' hx

theorem namesElements_of_wholeOf {kind : VecKind} {x : ListItem} {n : Nat} (h : x.wholeOf kind = some n) :
    x.namesElements = false := by
  unfold ListItem.wholeOf at h
  split at h
  · rfl
  all_goals cases h

/-- A list of whole registers has no member with an index or empty brackets (43 R95). -/
theorem namesElements_of_writtenRegisters {items : List ListItem} {w : VecKind × List Nat}
    (h : writtenRegisters items = .ok w) : ∀ x ∈ items, x.namesElements = false := by
  unfold writtenRegisters at h
  split at h
  · simp [ListItem.namesElements]
  · next a rest =>
    split at h
    · next ns hrest =>
      rintro x (_ | ⟨_, hx⟩)
      · rfl
      · obtain ⟨n, hn⟩ := exists_of_mem_of_mapM hrest hx
        exact namesElements_of_wholeOf hn
    · cases h
  · cases h

/-- What is read as a list of whole registers was written as one. -/
theorem exists_writtenRegisters_of_listDoublewords {c : Config} {l : RegList} {ds : List Nat}
    (h : listDoublewords c l = .ok ds) : ∃ w, writtenRegisters l.items = .ok w := by
  unfold listDoublewords at h
  split at h
  · cases h
  · split at h
    · cases h
    · next w hw => exact ⟨w, hw⟩

/-- The members of an element list are elements of doubleword registers (43 R95, R96). -/
theorem kind_of_mem_elementList {c : Config} {l : RegList} {found : List Nat × ElemSuffix} {r : VecReg} {suffix : ElemSuffix}
    (h : elementList c l = .ok found) (hmem : .one r suffix ∈ l.items) : r.kind = .d := by
  unfold elementList at h
  split at h
  · cases h
  · split at h
    · split at h
      · cases h
      · split at h
        · cases h
        · next hns =>
          obtain ⟨n, hn⟩ := exists_of_mem_of_mapM hns hmem
          simp only [ListItem.doublewordWith, Option.ite_none_right_eq_some] at hn
          exact hn.1.1
    · cases h

/-! ## Spellings -/

/-- The registers `a` to `b` of one letter, each written out. -/
def enumeration (kind : VecKind) (a b : Nat) : List ListItem :=
  (listNumbers a (b + 1 - a) 1).map fun n => .one ⟨kind, n⟩ .whole

theorem listNumbers_one_eq_range' (d k : Nat) : listNumbers d k 1 = List.range' d k := by
  simp [listNumbers, List.range'_eq_map_range]

theorem mapM_wholeOf (kind : VecKind) (ns : List Nat) :
    (ns.map fun n => ListItem.one ⟨kind, n⟩ .whole).mapM (ListItem.wholeOf kind) = some ns := by
  induction ns with
  | nil => rfl
  | cons n ns ih => simp [List.mapM_cons, ih, ListItem.wholeOf]

/-- An enumeration of at least one register names the registers it writes out. -/
theorem writtenRegisters_enumeration (kind : VecKind) {a b : Nat} (h : a ≤ b) :
    writtenRegisters (enumeration kind a b) = .ok (kind, listNumbers a (b + 1 - a) 1) := by
  obtain ⟨k, hk⟩ : ∃ k, b + 1 - a = k + 1 := ⟨b - a, by omega⟩
  rw [enumeration, listNumbers_one_eq_range', hk, List.range'_succ, List.map_cons, writtenRegisters, mapM_wholeOf]

/-- A range upwards names the registers of its enumeration (43 R98). -/
theorem writtenRegisters_range (kind : VecKind) {a b : Nat} (h : a ≤ b) :
    writtenRegisters [.range ⟨kind, a⟩ ⟨kind, b⟩] = .ok (kind, listNumbers a (b + 1 - a) 1) := by
  simp [writtenRegisters, rangeNumbers, h, Except.map]

/-- A range downwards is rejected (43 R98). -/
theorem listDoublewords_downwards (c : Config) (kind : VecKind) {a b : Nat} (h : b < a) :
    listDoublewords c ⟨true, [.range ⟨kind, a⟩ ⟨kind, b⟩]⟩ = .error .listForm := by
  simp [listDoublewords, writtenRegisters, rangeNumbers, Nat.not_le.mpr h, Except.map]

/-- The halves of consecutive quadword registers are consecutive. -/
theorem flatMap_halves (a k : Nat) :
    (List.range' a k).flatMap (fun n => [2 * n, 2 * n + 1]) = List.range' (2 * a) (2 * k) := by
  induction k generalizing a with
  | zero => rfl
  | succ k ih => simp [List.range'_succ, ih, Nat.mul_add]

/-- Consecutive quadword registers are the doubleword registers of their halves (43 R99). -/
theorem doublewordsOf_quadwords (a b : Nat) :
    doublewordsOf (.q, listNumbers a (b + 1 - a) 1) =
      doublewordsOf (.d, listNumbers (2 * a) (2 * b + 1 + 1 - 2 * a) 1) := by
  have hcount : 2 * b + 1 + 1 - 2 * a = 2 * (b + 1 - a) := by omega
  simp only [doublewordsOf, listNumbers_one_eq_range', flatMap_halves, hcount]

/-- Two lists of whole registers that name the same doubleword registers. -/
def SameDoublewords (items items' : List ListItem) : Prop :=
  ∃ w w', writtenRegisters items = .ok w ∧ writtenRegisters items' = .ok w' ∧ doublewordsOf w = doublewordsOf w'

theorem sameDoublewords_range_enumeration (kind : VecKind) {a b : Nat} (h : a ≤ b) :
    SameDoublewords [.range ⟨kind, a⟩ ⟨kind, b⟩] (enumeration kind a b) :=
  ⟨_, _, writtenRegisters_range kind h, writtenRegisters_enumeration kind h, rfl⟩

theorem sameDoublewords_quadRange {a b : Nat} (h : a ≤ b) :
    SameDoublewords [.range ⟨.q, a⟩ ⟨.q, b⟩] [.range ⟨.d, 2 * a⟩ ⟨.d, 2 * b + 1⟩] :=
  ⟨_, _, writtenRegisters_range .q h, writtenRegisters_range .d (by omega), doublewordsOf_quadwords a b⟩

theorem sameDoublewords_quadEnumeration {a b : Nat} (h : a ≤ b) :
    SameDoublewords (enumeration .q a b) [.range ⟨.d, 2 * a⟩ ⟨.d, 2 * b + 1⟩] :=
  ⟨_, _, writtenRegisters_enumeration .q h, writtenRegisters_range .d (by omega), doublewordsOf_quadwords a b⟩

/-! ## Lists and lines read alike -/

section
variable {items items' : List ListItem}

theorem listDoublewords_congr (c : Config) (h : SameDoublewords items items') :
    listDoublewords c ⟨true, items⟩ = listDoublewords c ⟨true, items'⟩ := by
  obtain ⟨w, w', hw, hw', hsame⟩ := h
  simp only [listDoublewords, hw, hw', hsame, Bool.not_true, Bool.false_and]

/-- A list of whole registers is a VLD1's list. -/
theorem listForVld1_of_writtenRegisters {w : VecKind × List Nat} (c : Config) (h : writtenRegisters items = .ok w) :
    listForVld1 c ⟨true, items⟩ = listDoublewords c ⟨true, items⟩ :=
  if_neg (by simpa using namesElements_of_writtenRegisters h)

theorem listForVld1_congr (c : Config) (h : SameDoublewords items items') :
    listForVld1 c ⟨true, items⟩ = listForVld1 c ⟨true, items'⟩ := by
  have hlists := listDoublewords_congr c h
  obtain ⟨w, w', hw, hw', -⟩ := h
  rw [listForVld1_of_writtenRegisters c hw, listForVld1_of_writtenRegisters c hw', hlists]

/-- Whatever the rest of the line, it sees its list through the doubleword registers only; a line that is no load takes
no list. -/
theorem assemble_withList_congr (c : Config) (q : Bool) (l : AsmLine) (addr : AddressText)
    (h : SameDoublewords items items') :
    assemble c q (withList l items addr) = assemble c q (withList l items' addr) := by
  have hload (dt : DataType) : asmVld1 c dt ⟨true, items⟩ addr = asmVld1 c dt ⟨true, items'⟩ addr := by
    rw [asmVld1, asmVld1, listForVld1_congr c h]
  obtain ⟨m, suffix, cond, width, dts, ops⟩ := l
  cases m with
  | vadd | vsubw | vmovn => rfl
  | vld1 =>
    unfold assemble
    simp only [withList, hload]
    rfl

end

end Sys2Proof.Machine
end

section
/-! PROOFS. The obligations on register lists and scalars (spec 43). -/

namespace Sys2Proof.Machine

/-- Settles O22: the scalar and the single-precision register are one element of one doubleword register. -/
theorem wordScalarIsSingleRegister : Obligations.WordScalarIsSingleRegister := by
  refine ⟨fun s m x hm hx => ?_, fun m x hm => sOfScalar?_eq_none hm⟩
  have hj := sOfScalar?_eq_some (x := ⟨m, x⟩) hm hx
  refine ⟨_, rfl, hj, readScalar_eq_readS hj s, fun v => ⟨?_, ?_⟩⟩
  · rw [readScalar_eq_readS hj, readS_writeS_same]
  · rw [writeScalar_eq_writeS hj, readS_writeS_same]

/-- Settles O53: the spellings name the same doubleword registers, and lists and lines are read through those; a member
with an index or empty brackets is no whole register, and an element of a list is one of a doubleword register. -/
theorem listSpellingsAgree : Obligations.ListSpellingsAgree := by
  refine ⟨fun c a b => ⟨fun h => ?_, fun h => ?_, fun h => ?_, fun h => ?_⟩,
    fun c q l addr a b kind => ⟨fun h => ?_, fun h i => ?_, fun h => ?_⟩,
    fun c l k suffix ds hsuffix hmem => ⟨fun hlist => ?_, fun common hlist => ?_⟩⟩
  · exact listDoublewords_congr c (sameDoublewords_range_enumeration .d h)
  · exact listDoublewords_downwards c .d h
  · exact listDoublewords_congr c (sameDoublewords_quadRange h)
  · exact listDoublewords_congr c (sameDoublewords_quadEnumeration h)
  · exact assemble_withList_congr c q l addr (sameDoublewords_range_enumeration kind h)
  · refine assemble_load_ne_ok fun dt hok => ?_
    obtain ⟨ds, -, -, -, hlist, -⟩ := asmVld1_ok hok
    cases (listDoublewords_downwards c kind h).symm.trans (listDoublewords_of_listForVld1 hlist)
  · exact assemble_withList_congr c q l addr (sameDoublewords_quadRange h)
  · obtain ⟨w, hw⟩ := exists_writtenRegisters_of_listDoublewords hlist
    have hwhole := namesElements_of_writtenRegisters hw _ hmem
    cases suffix with
    | whole => exact hsuffix rfl
    | lane | allLanes => cases hwhole
  · cases kind_of_mem_elementList hlist hmem

end Sys2Proof.Machine
end

section
/-! PROOFS. Words and instructions are each other's (spec 30 R54, 44 R112 to R115): the fields of an encoded word are the
operands it was made of, and a word of a row is its fields side by side. -/

namespace Sys2Proof.Machine

/-! ## Operands to words and back -/

theorem flagBit_decide (b : BitVec 1) : flagBit (decide (b = 1#1)) = b := by
  revert b
  decide

theorem decide_flagBit (b : Bool) : decide (flagBit b = 1#1) = b := by
  cases b <;> rfl

theorem sizeField_eq_three_iff (k : ElemSize) : sizeField k = 0b11#2 ↔ k = .e64 := by
  cases k <;> decide

theorem vaddFields_append_vaddLow (top : BitVec 8) (o : VaddOperands) : vaddFields (top ++ vaddLow o) = o := by
  simp (disch := decide) only [vaddFields, vaddLow, fieldAt, BitVec.extractLsb'_append_eq_of_le,
    BitVec.extractLsb'_append_eq_of_add_le, Nat.reduceSub, BitVec.extractLsb'_eq_self, sizeOfField_sizeField,
    dNumber_fields, decide_flagBit]

/-- VSUBW's operands are read back where U is, and its row's constraint on the size is its well-formedness (44 R113). -/
theorem vsubwFields_append_vsubwLow {top : BitVec 8} {uBit : Nat} {o : VsubwOperands} (hwf : o.wellFormed = true)
    (hu : fieldAt (top ++ vsubwLow o) uBit 1 = flagBit o.isUnsigned) :
    vsubwFields uBit (top ++ vsubwLow o) = some o := by
  have hsize : ¬ sizeField o.size = 0b11#2 := by
    rw [sizeField_eq_three_iff]
    exact of_decide_eq_true hwf
  rw [vsubwFields, hu]
  simp (disch := decide) only [vsubwLow, fieldAt, BitVec.extractLsb'_append_eq_of_le,
    BitVec.extractLsb'_append_eq_of_add_le, Nat.reduceSub, BitVec.extractLsb'_eq_self, sizeOfField_sizeField,
    dNumber_fields, decide_flagBit]
  exact if_neg hsize

theorem vmovnFields_append_vmovnLow (top : BitVec 8) (o : VmovnOperands) : vmovnFields (top ++ vmovnLow o) = o := by
  simp (disch := decide) only [vmovnFields, vmovnLow, fieldAt, BitVec.extractLsb'_append_eq_of_le,
    BitVec.extractLsb'_append_eq_of_add_le, Nat.reduceSub, BitVec.extractLsb'_eq_self, sizeOfField_sizeField,
    dNumber_fields]

theorem vld1Fields_append_vld1Low (top : BitVec 8) (type : BitVec 4) {o : Vld1Operands}
    (hwf : o.format.wellFormed = true) : vld1Fields (top ++ vld1Low type o) = o := by
  have hrn : (BitVec.ofNat 4 o.rn.val).toFin = o.rn := Fin.ext (Nat.mod_eq_of_lt o.rn.isLt)
  simp (disch := decide) only [vld1Fields, vld1Low, fieldAt, BitVec.extractLsb'_append_eq_of_le,
    BitVec.extractLsb'_append_eq_of_add_le, Nat.reduceSub, BitVec.extractLsb'_eq_self, sizeOfField_sizeField,
    dNumber_fields, alignOfField_alignField, formatOfField_formatField o.format hwf, hrn]

/-! ## Words to operands and back -/

theorem fieldAt_append_fieldAt (w : Word) {hi lo m n : Nat} (h : hi = lo + n) :
    fieldAt w hi m ++ fieldAt w lo n = fieldAt w lo (m + n) :=
  BitVec.extractLsb'_append_extractLsb'_eq_extractLsb' h

variable {w : Word}

/-- A word is its top byte above its other 24 bits. -/
theorem append_eq_of_fieldAt {top : BitVec 8} {low : BitVec 24} (htop : fieldAt w 24 8 = top)
    (hlow : low = fieldAt w 0 24) : top ++ low = w :=
  calc top ++ low = fieldAt w 24 8 ++ fieldAt w 0 24 := by rw [htop, hlow]
    _ = fieldAt w 0 32 := fieldAt_append_fieldAt w (by decide)
    _ = w := BitVec.extractLsb'_eq_self

/-- With the bits that VADD's rows fix, the other bits are the fields (44 R112). -/
theorem vaddLow_vaddFields (h23 : fieldAt w 23 1 = 0b0#1) (h8 : fieldAt w 8 4 = 0b1000#4)
    (h4 : fieldAt w 4 1 = 0b0#1) : vaddLow (vaddFields w) = fieldAt w 0 24 :=
  calc vaddLow (vaddFields w)
      = fieldAt w 23 1 ++ fieldAt w 22 1 ++ fieldAt w 20 2 ++ fieldAt w 16 4 ++ fieldAt w 12 4 ++ fieldAt w 8 4
        ++ fieldAt w 7 1 ++ fieldAt w 6 1 ++ fieldAt w 5 1 ++ fieldAt w 4 1 ++ fieldAt w 0 4 := by
        simp only [vaddLow, vaddFields, dHighBit_dNumber, dLowBits_dNumber, sizeField_sizeOfField, flagBit_decide,
          h23, h8, h4]
    _ = fieldAt w 0 24 := by simp (disch := decide) only [fieldAt_append_fieldAt]

/-- With the bits that VSUBW's rows fix, the other bits are the fields (44 R113). -/
theorem vsubwLow_of_vsubwFields {uBit : Nat} {o : VsubwOperands} (ho : vsubwFields uBit w = some o)
    (h23 : fieldAt w 23 1 = 0b1#1) (h8 : fieldAt w 8 4 = 0b0011#4) (h6 : fieldAt w 6 1 = 0b0#1)
    (h4 : fieldAt w 4 1 = 0b0#1) : vsubwLow o = fieldAt w 0 24 := by
  obtain ⟨hd, hn, hm⟩ := vsubwFields_registers ho
  obtain ⟨hsize, -⟩ := vsubwFields_type ho
  calc vsubwLow o
      = fieldAt w 23 1 ++ fieldAt w 22 1 ++ fieldAt w 20 2 ++ fieldAt w 16 4 ++ fieldAt w 12 4 ++ fieldAt w 8 4
        ++ fieldAt w 7 1 ++ fieldAt w 6 1 ++ fieldAt w 5 1 ++ fieldAt w 4 1 ++ fieldAt w 0 4 := by
        simp only [vsubwLow, hd, hn, hm, hsize, dHighBit_dNumber, dLowBits_dNumber, sizeField_sizeOfField, h23, h8,
          h6, h4]
    _ = fieldAt w 0 24 := by simp (disch := decide) only [fieldAt_append_fieldAt]

/-- With the bits that VMOVN's rows fix, the other bits are the fields (44 R114). -/
theorem vmovnLow_vmovnFields (h23 : fieldAt w 23 1 = 0b1#1) (h20 : fieldAt w 20 2 = 0b11#2)
    (h16 : fieldAt w 16 2 = 0b10#2) (h6 : fieldAt w 6 6 = 0b001000#6) (h4 : fieldAt w 4 1 = 0b0#1) :
    vmovnLow (vmovnFields w) = fieldAt w 0 24 :=
  calc vmovnLow (vmovnFields w)
      = fieldAt w 23 1 ++ fieldAt w 22 1 ++ fieldAt w 20 2 ++ fieldAt w 18 2 ++ fieldAt w 16 2 ++ fieldAt w 12 4
        ++ fieldAt w 6 6 ++ fieldAt w 5 1 ++ fieldAt w 4 1 ++ fieldAt w 0 4 := by
        simp only [vmovnLow, vmovnFields, dHighBit_dNumber, dLowBits_dNumber, sizeField_sizeOfField, h23, h20, h16,
          h6, h4]
    _ = fieldAt w 0 24 := by simp (disch := decide) only [fieldAt_append_fieldAt]

/-- With the bits that VLD1's rows fix, the other bits are the fields (44 R115). -/
theorem vld1Low_vld1Fields {type : BitVec 4} (h23 : fieldAt w 23 1 = 0b0#1) (h20 : fieldAt w 20 2 = 0b10#2)
    (h8 : fieldAt w 8 4 = type) : vld1Low type (vld1Fields w) = fieldAt w 0 24 :=
  calc vld1Low type (vld1Fields w)
      = fieldAt w 23 1 ++ fieldAt w 22 1 ++ fieldAt w 20 2 ++ fieldAt w 16 4 ++ fieldAt w 12 4 ++ fieldAt w 8 4
        ++ fieldAt w 6 2 ++ fieldAt w 4 2 ++ fieldAt w 0 4 := by
        have hrn : BitVec.ofNat 4 (fieldAt w 16 4).toFin.val = fieldAt w 16 4 := BitVec.ofNat_toNat _ _
        simp only [vld1Low, vld1Fields, dHighBit_dNumber, dLowBits_dNumber, sizeField_sizeOfField,
          alignField_alignOfField, (formatField_formatOfField _).1, hrn, h23, h20, h8]
    _ = fieldAt w 0 24 := by simp (disch := decide) only [fieldAt_append_fieldAt]

/-! ## U in the top byte of VSUBW's words (44 R111, R113) -/

theorem flagBit_getLsbD (w : Word) (lo : Nat) : flagBit (w.getLsbD lo) = fieldAt w lo 1 := by
  rw [← flagBit_decide (fieldAt w lo 1)]
  simp [fieldAt_eq_one_iff]

theorem vsubwFields_encode_vsubwIn (iset : InstrSet) {o : VsubwOperands} (hwf : o.wellFormed = true) :
    vsubwFields (unsignedBitOf iset) (encode (vsubwIn iset o)) = some o := by
  cases iset
  all_goals
    refine vsubwFields_append_vsubwLow hwf ?_
    simp (disch := decide) only [unsignedBitOf, fieldAt, BitVec.extractLsb'_append_eq_of_le,
      BitVec.extractLsb'_append_eq_of_add_le, Nat.reduceSub, BitVec.extractLsb'_eq_self]

/-- VSUBW's row in a set (44 R113). -/
def vsubwRow : InstrSet → Row
  | .a32 => rowsA32[1]
  | .t32 => rowsT32[1]

theorem encode_vsubwIn {iset : InstrSet} {o : VsubwOperands} (hbits : (vsubwRow iset).hasBits w = true)
    (ho : vsubwFields (unsignedBitOf iset) w = some o) : encode (vsubwIn iset o) = w := by
  have fixed {lo len : Nat} := fieldAt_of_hasBits (lo := lo) (len := len) hbits
  have hu : flagBit o.isUnsigned = fieldAt w (unsignedBitOf iset) 1 := by
    rw [(vsubwFields_type ho).2, flagBit_getLsbD]
  cases iset with
  | a32 =>
    have h25 : fieldAt w 25 7 = 0b1111001#7 := fixed (by decide)
    have htop : fieldAt w 24 8 = 0b1111001#7 ++ flagBit o.isUnsigned := by
      rw [hu, ← h25]
      simp (disch := decide) only [unsignedBitOf, fieldAt_append_fieldAt]
    exact append_eq_of_fieldAt htop (vsubwLow_of_vsubwFields ho (fixed (by decide)) (fixed (by decide))
      (fixed (by decide)) (fixed (by decide)))
  | t32 =>
    have h29 : fieldAt w 29 3 = 0b111#3 := fixed (by decide)
    have h24 : fieldAt w 24 4 = 0b1111#4 := fixed (by decide)
    have htop : fieldAt w 24 8 = 0b111#3 ++ flagBit o.isUnsigned ++ 0b1111#4 := by
      rw [hu, ← h29, ← h24]
      simp (disch := decide) only [unsignedBitOf, fieldAt_append_fieldAt]
    exact append_eq_of_fieldAt htop (vsubwLow_of_vsubwFields ho (fixed (by decide)) (fixed (by decide))
      (fixed (by decide)) (fixed (by decide)))

/-- What VSUBW's row reads is well formed by the row's constraint (44 R113). -/
theorem wellFormed_of_vsubwFields {uBit : Nat} {o : VsubwOperands} (ho : vsubwFields uBit w = some o) :
    o.wellFormed = true := by
  obtain ⟨hsize, -⟩ := vsubwFields_type ho
  refine decide_eq_true fun h64 => ?_
  have hfield : fieldAt w 20 2 = 0b11#2 := by rw [← sizeField_sizeOfField (fieldAt w 20 2), ← hsize, h64, sizeField]
  rw [vsubwFields, if_pos hfield] at ho
  cases ho

/-! ## The rows -/

/-- A row's word is the word of what the row reads from it. -/
theorem encode_of_decode {iset : InstrSet} {w : Word} {i : Instr} (h : decode iset w = .ok i) :
    encode i = w ∧ i.instrSet = iset ∧ i.wellFormed = true := by
  obtain ⟨r, hr, hbits, hbuild⟩ := row_of_decode h
  have fixed {lo len : Nat} := fieldAt_of_hasBits (lo := lo) (len := len) hbits
  have hvsubw {o : VsubwOperands} := encode_vsubwIn (w := w) (iset := iset) (o := o)
  cases iset
  all_goals
    simp only [rowsOf, rowsA32, rowsT32, List.mem_cons, List.not_mem_nil, or_false] at hr
    obtain rfl | rfl | rfl | hvld1 := hr
    · cases hbuild
      exact ⟨append_eq_of_fieldAt (fixed (by decide)) (vaddLow_vaddFields (fixed (by decide)) (fixed (by decide))
        (fixed (by decide))), rfl, rfl⟩
    · obtain ⟨o, ho, rfl⟩ := Option.map_eq_some_iff.mp hbuild
      exact ⟨hvsubw hbits ho, rfl, wellFormed_of_vsubwFields ho⟩
    · cases hbuild
      exact ⟨append_eq_of_fieldAt (fixed (by decide)) (vmovnLow_vmovnFields (fixed (by decide)) (fixed (by decide))
        (fixed (by decide)) (fixed (by decide)) (fixed (by decide))), rfl, rfl⟩
    · obtain rfl | rfl | rfl | rfl := hvld1
      all_goals
        cases hbuild
        exact ⟨append_eq_of_fieldAt (fixed (by decide)) (vld1Low_vld1Fields (fixed (by decide)) (fixed (by decide))
          (fixed (by decide))), rfl, (formatField_formatOfField _).2⟩

/-- The word of an instruction has the fixed bits of its row. -/
theorem encodedRow (i : Instr) : Laws.EncodedRow.Statement i := by
  cases i with
  | vaddA32 o => exact Laws.EncodedRow.vaddA32 o
  | vaddT32 o => exact Laws.EncodedRow.vaddT32 o
  | vsubwA32 o => exact Laws.EncodedRow.vsubwA32 o
  | vsubwT32 o => exact Laws.EncodedRow.vsubwT32 o
  | vmovnA32 o => exact Laws.EncodedRow.vmovnA32 o
  | vmovnT32 o => exact Laws.EncodedRow.vmovnT32 o
  | vld1OneA32 o => exact Laws.EncodedRow.vld1OneA32 o
  | vld1OneT32 o => exact Laws.EncodedRow.vld1OneT32 o
  | vld1TwoA32 o => exact Laws.EncodedRow.vld1TwoA32 o
  | vld1TwoT32 o => exact Laws.EncodedRow.vld1TwoT32 o
  | vld1ThreeA32 o => exact Laws.EncodedRow.vld1ThreeA32 o
  | vld1ThreeT32 o => exact Laws.EncodedRow.vld1ThreeT32 o
  | vld1FourA32 o => exact Laws.EncodedRow.vld1FourA32 o
  | vld1FourT32 o => exact Laws.EncodedRow.vld1FourT32 o

/-- The row of an instruction's mnemonic reads the instruction from its word. -/
theorem build_encode {i : Instr} (hwf : i.wellFormed = true) :
    ∀ r ∈ rowsOf i.instrSet, r.mnemonic = i.mnemonic → r.build (encode i) = some i := by
  cases i with
  | vaddA32 o | vaddT32 o =>
    simp [Instr.instrSet, rowsOf, rowsA32, rowsT32, Instr.mnemonic, encode, vaddFields_append_vaddLow]
  | vsubwA32 o =>
    have ho : vsubwFields 24 (encode (.vsubwA32 o)) = some o := vsubwFields_encode_vsubwIn .a32 hwf
    simp [Instr.instrSet, rowsOf, rowsA32, Instr.mnemonic, ho]
  | vsubwT32 o =>
    have ho : vsubwFields 28 (encode (.vsubwT32 o)) = some o := vsubwFields_encode_vsubwIn .t32 hwf
    simp [Instr.instrSet, rowsOf, rowsT32, Instr.mnemonic, ho]
  | vmovnA32 o | vmovnT32 o =>
    simp [Instr.instrSet, rowsOf, rowsA32, rowsT32, Instr.mnemonic, encode, vmovnFields_append_vmovnLow]
  | vld1OneA32 o | vld1OneT32 o | vld1TwoA32 o | vld1TwoT32 o | vld1ThreeA32 o | vld1ThreeT32 o | vld1FourA32 o
  | vld1FourT32 o =>
    simp [Instr.instrSet, rowsOf, rowsA32, rowsT32, Instr.mnemonic, encode,
      vld1Fields_append_vld1Low _ _ (show o.format.wellFormed = true from hwf)]

end Sys2Proof.Machine
end

section
/-! PROOFS. The obligations on decoder and encoder (spec 30 R54, 44 R111 to R116). -/

namespace Sys2Proof.Machine

/-- Settles O10: the word has the fixed bits of its row, and what that row reads from it is the instruction. -/
theorem decodeInvertsEncode : Obligations.DecodeInvertsEncode := by
  intro i hwf
  obtain ⟨r, hr, hmnemonic, hbits⟩ := encodedRow i
  exact decode_of_row hr hbits (build_encode hwf r hr hmnemonic)

/-- Settles O11: every bit of a word that decodes is fixed by its row or stands in a field of its operands. -/
theorem encodeInvertsDecode : Obligations.EncodeInvertsDecode :=
  fun _ _ _ => encode_of_decode

/-- Settles O14: in each pair of rows the low 24 bits are one function of the operands. -/
theorem setsDifferInTheTopByteOnly : Obligations.SetsDifferInTheTopByteOnly := by
  have exchange (top top' : BitVec 8) (low : BitVec 24) :
      top ++ low = top ++ (top' ++ low).extractLsb' 0 24 ∧ (top' ++ low).extractLsb' 24 8 = top' :=
    ⟨by rw [BitVec.extractLsb'_append_eq_right], BitVec.extractLsb'_append_eq_left⟩
  exact ⟨fun o => exchange _ _ _, fun o => exchange _ _ _, fun o => exchange _ _ _,
    fun o => ⟨exchange _ _ _, exchange _ _ _, exchange _ _ _, exchange _ _ _⟩⟩

/-- Settles O15: each word is read by its row. -/
theorem exampleWordsDecode : Obligations.ExampleWordsDecode :=
  ⟨rfl, rfl, rfl, rfl, rfl, rfl, rfl, rfl⟩

end Sys2Proof.Machine
end

section
/-! PROOFS. VADD, VSUBW and VMOVN: which encodings complete, and with what elements and frame (spec 44 R111 to R114). -/

namespace Sys2Proof.Machine

/-! ## The rows -/

theorem exec_of_vaddParts {i : Instr} {o : VaddOperands} (h : vaddParts? i = some o) (s : State) :
    exec i s = vadd o s := by
  cases i with
  | vaddA32 | vaddT32 =>
    cases h
    rfl
  | vsubwA32 | vsubwT32 | vmovnA32 | vmovnT32 | vld1OneA32 | vld1OneT32 | vld1TwoA32 | vld1TwoT32 | vld1ThreeA32
  | vld1ThreeT32 | vld1FourA32 | vld1FourT32 => cases h

theorem exec_of_vsubwParts {i : Instr} {o : VsubwOperands} (h : vsubwParts? i = some o) (s : State) :
    exec i s = vsubw o s := by
  cases i with
  | vsubwA32 | vsubwT32 =>
    cases h
    rfl
  | vaddA32 | vaddT32 | vmovnA32 | vmovnT32 | vld1OneA32 | vld1OneT32 | vld1TwoA32 | vld1TwoT32 | vld1ThreeA32
  | vld1ThreeT32 | vld1FourA32 | vld1FourT32 => cases h

theorem exec_of_vmovnParts {i : Instr} {o : VmovnOperands} (h : vmovnParts? i = some o) (s : State) :
    exec i s = vmovn o s := by
  cases i with
  | vmovnA32 | vmovnT32 =>
    cases h
    rfl
  | vaddA32 | vaddT32 | vsubwA32 | vsubwT32 | vld1OneA32 | vld1OneT32 | vld1TwoA32 | vld1TwoT32 | vld1ThreeA32
  | vld1ThreeT32 | vld1FourA32 | vld1FourT32 => cases h

/-! ## Undefined encodings (44 R112 to R114) -/

/-- An even number is that of the first half of its quadword register (30 R46). -/
theorem qFirst_qOf_val {i : DNum} (h : i.val % 2 = 0) : (qFirst (qOf i)).val = i.val := by
  rw [qFirst_qOf ((oddField_false_iff i).mpr h)]

theorem qSecond_qOf_val {i : DNum} (h : i.val % 2 = 0) : (qSecond (qOf i)).val = i.val + 1 := by
  rw [← qFirst_qOf_val h]
  rfl

theorem vaddDefined_iff (c : Config) (o : VaddOperands) : VaddDefined c o ↔ vaddFault? c o = none := by
  rw [vaddFault?_none_iff]
  simp only [VaddDefined, oddField_false_iff, inBank_iff, regsOfQ]

theorem vsubwDefined_iff (c : Config) (o : VsubwOperands) : VsubwDefined c o ↔ vsubwFault? c o = none := by
  rw [vsubwFault?_none_iff]
  simp only [VsubwDefined, oddField_false_iff, inBank_iff, Nat.succ_le_iff]
  refine and_congr_right fun _ => and_congr_right fun hd => and_congr_right fun hn => ?_
  rw [qFirst_qOf_val hd, qFirst_qOf_val hn]

theorem vmovnDefined_iff (c : Config) (o : VmovnOperands) : VmovnDefined c o ↔ vmovnFault? c o = none := by
  rw [vmovnFault?_none_iff]
  simp only [VmovnDefined, oddField_false_iff, inBank_iff, Nat.succ_le_iff]
  refine and_congr_right fun _ => and_congr_right fun _ => and_congr_right fun hm => ?_
  rw [qFirst_qOf_val hm]

/-! ## The frame (44 R111 steps 7 and 8) -/

/-- Writing consecutive registers and advancing changes nothing but those registers and the pc. -/
theorem onlyDoublewords_writeDs (s : State) {d : DNum} {vs : List DWord} {written : DNum → Prop}
    (hd : d.val + vs.length ≤ 32) (hw : ∀ j : DNum, d.val ≤ j.val ∧ j.val < d.val + vs.length → written j) :
    OnlyDoublewords written s (s.writeDs d vs).advance := by
  refine ⟨fun j hj => ?_, by simp⟩
  have houtside : ¬ (d.val ≤ j.val ∧ j.val < d.val + vs.length) := fun h => hj (hw j h)
  rw [readD_advance, readD_writeDs_outside s hd (by omega)]

/-- A quadword register is written as two consecutive doubleword registers (10 R15). -/
theorem writeQ_eq_writeDs (s : State) (k : Fin 16) (v : QWord) :
    s.writeQ k v = s.writeDs (qFirst k) [v.extractLsb' 0 64, v.extractLsb' 64 64] := by
  have hsecond : dPlus (qFirst k) 1 = qSecond k := Fin.ext (dPlus_val (by simp only [qFirst]; omega))
  rw [State.writeDs, State.writeDs, hsecond]
  rfl

@[simp] theorem readQ_advance (s : State) (k : Fin 16) : s.advance.readQ k = s.readQ k := rfl

/-- A quadword register reads as what was written to it. -/
@[simp] theorem readQ_writeQ_same (s : State) (k : Fin 16) (v : QWord) : (s.writeQ k v).readQ k = v := by
  rw [State.readQ, readD_writeQ, readD_writeQ, if_pos rfl, if_neg (qFirst_ne_qSecond k k).symm, if_pos rfl,
    BitVec.extractLsb'_append_extractLsb'_eq_extractLsb' (by decide)]
  exact BitVec.extractLsb'_eq_self

/-! ## Elements (44 R112 to R114) -/

theorem elem_addLanes (size : ElemSize) (a b : DWord) {e : Nat} (he : e < 64 / size.bits) :
    elem (addLanes size a b) e size.bits =
      BitVec.ofNat size.bits ((elem a e size.bits).toNat + (elem b e size.bits).toNat) := by
  rw [addLanes, elem_buildElems _ _ _ he (elements_fill size).le, BitVec.ofNat_add, BitVec.ofNat_toNat, BitVec.ofNat_toNat,
    BitVec.setWidth_eq, BitVec.setWidth_eq]

theorem widen_eq_ofInt (isUnsigned : Bool) {n : Nat} (x : BitVec n) :
    widen isUnsigned x = BitVec.ofInt (2 * n) (if isUnsigned then (x.toNat : Int) else x.toInt) := by
  cases isUnsigned with
  | false => rfl
  | true => simp [widen]

theorem elem_subWideLanes (isUnsigned : Bool) (size : ElemSize) (a : QWord) (b : DWord) {e : Nat}
    (he : e < 64 / size.bits) :
    elem (subWideLanes isUnsigned size a b) e (2 * size.bits) =
      BitVec.ofInt (2 * size.bits) ((elem a e (2 * size.bits)).toInt -
        (if isUnsigned then ((elem b e size.bits).toNat : Int) else (elem b e size.bits).toInt)) := by
  have hfill : 64 / size.bits * (2 * size.bits) ≤ 128 := by cases size <;> decide
  rw [subWideLanes, elem_buildElems _ _ _ he hfill, widen_eq_ofInt, Int.sub_eq_add_neg, BitVec.ofInt_add,
    BitVec.ofInt_neg, BitVec.ofInt_toInt, BitVec.sub_eq_add_neg]

theorem elem_narrowLanes (size : ElemSize) (a : QWord) {e : Nat} (he : e < 64 / size.bits) :
    elem (narrowLanes size a) e size.bits = BitVec.ofNat size.bits (elem a e (2 * size.bits)).toNat := by
  rw [narrowLanes, elem_buildElems _ _ _ he (elements_fill size).le, BitVec.ofNat_toNat]

end Sys2Proof.Machine
end

section
/-! PROOFS. The obligations on VADD, VSUBW and VMOVN (spec 44 R112 to R114). -/

namespace Sys2Proof.Machine

/-- Settles O23: the results are computed before the first register is written, so overlaps of sources and destination make
no difference. -/
theorem vaddAddsElements : Obligations.VaddAddsElements := by
  intro i o s hi hdef
  have hfault := (vaddDefined_iff _ _).mp hdef
  obtain ⟨-, -, hd, -, -⟩ := (vaddFault?_none_iff _ _).mp hfault
  have hbank : o.d.val + (vaddResults s o).length ≤ 32 := by simpa using inBank_lt hd
  refine ⟨(s.writeDs o.d (vaddResults s o)).advance, ?_, by simp, fun r e hr he => ?_, ?_⟩
  · rw [exec_of_vaddParts hi, vadd, hfault, complete]
  · rw [readD_advance, readD_writeDs_dPlus s hbank (by simpa [regsOfQ] using hr)]
    simpa [vaddResults] using elem_addLanes o.size _ _ he
  · exact onlyDoublewords_writeDs s hbank (by simp [regsOfQ])

/-- Settles O25: subtraction modulo 2^(2*esize) is that of the integers, whichever way the narrow element is extended. -/
theorem vsubwSubtractsWidenedElements : Obligations.VsubwSubtractsWidenedElements := by
  intro i o s hi hdef
  have hfault := (vsubwDefined_iff _ _).mp hdef
  obtain ⟨-, heven, -⟩ := hdef
  have hfirst := qFirst_qOf_val heven
  refine ⟨(s.writeQ (qOf o.d) (subWideLanes o.isUnsigned o.size (s.readQ (qOf o.n)) (s.readD o.m))).advance, ?_,
    by simp, fun e he => ?_, ?_⟩
  · rw [exec_of_vsubwParts hi, vsubw, hfault, complete]
  · rw [readQ_advance, readQ_writeQ_same, elem_subWideLanes _ _ _ _ he]
  · rw [writeQ_eq_writeDs]
    refine onlyDoublewords_writeDs s ?_ fun j hj => ?_
    · rw [List.length_cons, List.length_singleton]
      omega
    · rw [List.length_cons, List.length_singleton] at hj
      omega

/-- Settles O27: the narrowed value is computed before Dd is written. -/
theorem vmovnKeepsLowHalves : Obligations.VmovnKeepsLowHalves := by
  intro i o s hi hdef
  have hfault := (vmovnDefined_iff _ _).mp hdef
  refine ⟨(s.writeD o.d (narrowLanes o.size (s.readQ (qOf o.m)))).advance, ?_, by simp, fun e he => ?_, fun j hj => ?_,
    by simp⟩
  · rw [exec_of_vmovnParts hi, vmovn, hfault, complete]
  · rw [readD_advance, readD_writeD_same, elem_narrowLanes o.size _ he]
  · rw [readD_advance, readD_writeD, if_neg hj]

/-- Settles O37: whatever the instruction, a completed one has written registers and advanced. -/
theorem instructionsOnlyWriteRegisters : Obligations.InstructionsOnlyWriteRegisters := by
  intro i s t h
  obtain ⟨d, vs, -, rfl | ⟨rn, v, rfl⟩⟩ := exec_completesAs h
  · simp
  · simp

end Sys2Proof.Machine
end

section
/-! PROOFS. Footprints in terms of operands (spec 44 R111 step 5, R112 to R115), and what a fetch at a word's address answers
(70 R132). -/

namespace Sys2Proof.Machine

variable {c : Config}

/-! ## Runs of registers -/

theorem mem_dRun_iff_exists {d j : DNum} {k : Nat} (hb : d.val + k ≤ 32) :
    j ∈ dRun d k ↔ ∃ r, r < k ∧ j.val = d.val + r := by
  rw [mem_dRun hb]
  exact ⟨fun h => ⟨j.val - d.val, by omega⟩, fun ⟨r, h⟩ => by omega⟩

/-- The halves of the quadword register of an even field (30 R46). -/
theorem eq_qFirst_iff {i j : DNum} (h : i.val % 2 = 0) : j = qFirst (qOf i) ↔ j.val = i.val := by
  rw [Fin.ext_iff, qFirst_qOf_val h]

theorem eq_qSecond_iff {i j : DNum} (h : i.val % 2 = 0) : j = qSecond (qOf i) ↔ j.val = i.val + 1 := by
  rw [Fin.ext_iff, qSecond_qOf_val h]

/-! ## VADD (44 R112) -/

@[simp] theorem readsR_vaddFootprint (o : VaddOperands) : (vaddFootprint o).readsR = [] := rfl

theorem mem_readsD_vaddFootprint {o : VaddOperands} (h : vaddFault? c o = none) (d : DNum) :
    d ∈ (vaddFootprint o).readsD ↔
      ∃ k, k < (if o.quad then 2 else 1) ∧ (d.val = o.n.val + k ∨ d.val = o.m.val + k) := by
  obtain ⟨-, -, -, hn, hm⟩ := (vaddFault?_none_iff _ _).mp h
  rw [vaddFootprint, List.mem_append, mem_dRun_iff_exists (inBank_lt hn), mem_dRun_iff_exists (inBank_lt hm),
    ← exists_or]
  simp only [← and_or_left, regsOfQ]

theorem mem_writesD_vaddFootprint {o : VaddOperands} (h : vaddFault? c o = none) (d : DNum) :
    d ∈ (vaddFootprint o).writesD ↔ ∃ k, k < (if o.quad then 2 else 1) ∧ d.val = o.d.val + k := by
  obtain ⟨-, -, hd, -, -⟩ := (vaddFault?_none_iff _ _).mp h
  exact mem_dRun_iff_exists (inBank_lt hd)

/-! ## VSUBW and VMOVN (44 R113, R114) -/

@[simp] theorem readsR_vsubwFootprint (o : VsubwOperands) : (vsubwFootprint o).readsR = [] := rfl

@[simp] theorem readsR_vmovnFootprint (o : VmovnOperands) : (vmovnFootprint o).readsR = [] := rfl

theorem mem_readsD_vsubwFootprint {o : VsubwOperands} (h : vsubwFault? c o = none) (d : DNum) :
    d ∈ (vsubwFootprint o).readsD ↔ d.val = o.n.val ∨ d.val = o.n.val + 1 ∨ d.val = o.m.val := by
  obtain ⟨-, -, hn, -⟩ := (vsubwDefined_iff _ _).mpr h
  simp [vsubwFootprint, eq_qFirst_iff hn, eq_qSecond_iff hn, Fin.ext_iff]

theorem mem_writesD_vsubwFootprint {o : VsubwOperands} (h : vsubwFault? c o = none) (d : DNum) :
    d ∈ (vsubwFootprint o).writesD ↔ d.val = o.d.val ∨ d.val = o.d.val + 1 := by
  obtain ⟨-, hd, -⟩ := (vsubwDefined_iff _ _).mpr h
  simp [vsubwFootprint, eq_qFirst_iff hd, eq_qSecond_iff hd]

theorem mem_readsD_vmovnFootprint {o : VmovnOperands} (h : vmovnFault? c o = none) (d : DNum) :
    d ∈ (vmovnFootprint o).readsD ↔ d.val = o.m.val ∨ d.val = o.m.val + 1 := by
  obtain ⟨-, -, hm, -⟩ := (vmovnDefined_iff _ _).mpr h
  simp [vmovnFootprint, eq_qFirst_iff hm, eq_qSecond_iff hm]

theorem mem_writesD_vmovnFootprint (o : VmovnOperands) (d : DNum) :
    d ∈ (vmovnFootprint o).writesD ↔ d.val = o.d.val := by
  simp [vmovnFootprint, Fin.ext_iff]

/-! ## VLD1 (44 R115) -/

@[simp] theorem readsD_vld1Footprint (regs : Nat) (o : Vld1Operands) : (vld1Footprint regs o).readsD = [] := rfl

theorem mem_readsR_vld1Footprint (regs : Nat) (o : Vld1Operands) (r : Fin 15) :
    r ∈ (vld1Footprint regs o).readsR ↔ o.rn.val = r.val ∨ o.format = .byRegister r := by
  have hbase : r ∈ (gprOf? o.rn).toList ↔ o.rn.val = r.val := by
    rw [Option.mem_toList, gprOf?_eq_some_iff]
  rw [vld1Footprint, List.mem_append, hbase]
  cases o.format with
  | noWriteback | byTransferSize => simp
  | byRegister rm => simp [eq_comm]

theorem mem_writesD_vld1Footprint {regs : Nat} {o : Vld1Operands} (hpos : 0 < regs) (h : vld1Fault? c regs o = none)
    (d : DNum) : d ∈ (vld1Footprint regs o).writesD ↔ o.d.val ≤ d.val ∧ d.val < o.d.val + regs := by
  unfold vld1Fault? at h
  split at h
  · next rn hbase =>
    obtain ⟨-, -, -, -, hlist⟩ := (vld1Base_ok_iff _ _ _ _).mp hbase
    rw [listFits_iff] at hlist
    have hbank := numDregs_cases c
    exact mem_dRun (by omega)
  · cases h

/-! ## The fetch (70 R132) -/

/-- The word of the text at index `j` is what a fetch at its address answers. -/
theorem fetch_of_getElem? {s : State} {j : Nat} {w : Word} (hj : 4 * j < 2 ^ 32)
    (hpc : s.pc = s.text.base + BitVec.ofNat 32 (4 * j)) (hw : s.text.words[j]? = some w) : s.fetch = .ok w := by
  have hoffset : (s.pc - s.text.base).toNat = 4 * j := by
    rw [hpc, BitVec.add_comm, BitVec.add_sub_cancel, BitVec.toNat_ofNat, Nat.mod_eq_of_lt hj]
  have hlt : j < s.text.words.length := (List.getElem?_eq_some_iff.mp hw).1
  have hindex : s.text.index? s.pc = some j := by
    simp [ProgramText.index?, hoffset, hlt]
  simp only [State.fetch, hindex, hw]

end Sys2Proof.Machine
end

section
/-! PROOFS. The obligations on footprints and on the step (spec 44 R111, 70 R132). -/

namespace Sys2Proof.Machine

/-- Settles O4: the fetch answers the word at the pc, and the rest of `step` is its decoding. -/
theorem stepRunsDecodedInstruction : Obligations.StepRunsDecodedInstruction := by
  intro s j w i hfault hmark hj hpc hw hdecode
  simp only [step, hfault, hmark, fetch_of_getElem? hj hpc hw, runWord, hdecode]

/-- Settles O55: the registers of each footprint are those that the operands number, as no encoding without a fault wraps
around the bank or has an odd quadword field. -/
theorem footprintsAreTheOperands : Obligations.FootprintsAreTheOperands := by
  intro c i h
  unfold ReadsGpr ReadsDoubleword WritesDoubleword
  cases i with
  | vaddA32 o | vaddT32 o =>
    simp [footprint, vaddParts?, vsubwParts?, vmovnParts?, vld1Parts?, mem_readsD_vaddFootprint (o := o) h,
      mem_writesD_vaddFootprint (o := o) h]
  | vsubwA32 o | vsubwT32 o =>
    simp [footprint, vaddParts?, vsubwParts?, vmovnParts?, vld1Parts?, mem_readsD_vsubwFootprint (o := o) h,
      mem_writesD_vsubwFootprint (o := o) h]
  | vmovnA32 o | vmovnT32 o =>
    simp [footprint, vaddParts?, vsubwParts?, vmovnParts?, vld1Parts?, mem_readsD_vmovnFootprint (o := o) h,
      mem_writesD_vmovnFootprint]
  | vld1OneA32 o | vld1OneT32 o | vld1TwoA32 o | vld1TwoT32 o | vld1ThreeA32 o | vld1ThreeT32 o | vld1FourA32 o
  | vld1FourT32 o =>
    simp [footprint, vaddParts?, vsubwParts?, vmovnParts?, vld1Parts?, mem_readsR_vld1Footprint,
      mem_writesD_vld1Footprint (o := o) (by decide) h]

end Sys2Proof.Machine
end

section
/-! PROOFS. The invariant under a step (spec 10 R12, 70 R132): the pc of a fetch stands at a word of the text, and what
completes moves it on by one word. -/

namespace Sys2Proof.Machine

/-- The parts of the invariant. -/
theorem inv_iff (s : State) : s.inv = true ↔
    s.text.wf = true ∧ s.pcAligned = true ∧ s.pcInProgram = true ∧ s.mem.wf = true ∧ s.absentCellsZero = true := by
  simp only [State.inv, Bool.and_eq_true, and_assoc]

/-- The bounds of a well-formed text as numbers (70 R132, log 19). -/
theorem text_wf_iff (t : ProgramText) :
    t.wf = true ↔ t.base.toNat % 4 = 0 ∧ t.base.toNat + 4 * t.words.length < 2 ^ 32 := by
  simp only [ProgramText.wf, Bool.and_eq_true, decide_eq_true_eq]

theorem pcAligned_iff (s : State) : s.pcAligned = true ↔ s.pc.toNat % 4 = 0 := by
  simp only [State.pcAligned, decide_eq_true_eq]

theorem pcInProgram_iff (s : State) : s.pcInProgram = true ↔
    s.text.base.toNat ≤ s.pc.toNat ∧ s.pc.toNat ≤ s.text.base.toNat + 4 * s.text.words.length := by
  simp only [State.pcInProgram, Bool.and_eq_true, decide_eq_true_eq]

theorem absentCellsZero_iff (s : State) : s.absentCellsZero = true ↔
    ∀ d : DNum, s.config.numDregs ≤ d.val → s.readD d = 0 := by
  simp [State.absentCellsZero, inBank, or_iff_not_imp_left]

/-- A fetch from a pc in the program answers a word, whose address is the pc (70 R132). -/
theorem pc_of_fetch {s : State} {w : Word} (hin : s.pcInProgram = true) (h : s.fetch = .ok w) :
    ∃ j, j < s.text.words.length ∧ s.pc.toNat = s.text.base.toNat + 4 * j := by
  obtain ⟨j, hoffset, hword⟩ := fetch_ok h
  obtain ⟨hlow, -⟩ := (pcInProgram_iff s).mp hin
  refine ⟨j, (List.getElem?_eq_some_iff.mp hword).1, ?_⟩
  rw [BitVec.toNat_sub_of_le (BitVec.le_def.mpr hlow)] at hoffset
  omega

/-- Absent cells are out of every instruction's reach (10 R14, log 3). -/
theorem readD_of_absent {i : Instr} {s t : State} (h : exec i s = .next t) {d : DNum}
    (hd : s.config.numDregs ≤ d.val) : t.readD d = s.readD d := by
  obtain ⟨first, vs, hfits, hnext⟩ := exec_completesAs h
  have hbank := numDregs_cases s.config
  have hwritten : (s.writeDs first vs).readD d = s.readD d := readD_writeDs_outside s (by omega) (by omega)
  obtain rfl | ⟨rn, v, rfl⟩ := hnext
  · rw [readD_advance, hwritten]
  · rw [readD_advance, readD_writeR, hwritten]

/-- A step from a state with the invariant goes to the next word, or right after the last one, and keeps the invariant. -/
theorem step_keeps_inv {s t : State} (hinv : s.inv = true) (h : step s = .next t) :
    t.inv = true ∧ t.pc.toNat = s.pc.toNat + 4 := by
  obtain ⟨hwf, halign, hin, hmem, hzero⟩ := (inv_iff s).mp hinv
  obtain ⟨-, -, w, i, hfetch, -, hexec⟩ := step_next h
  obtain ⟨hpc, -, htmem, htext, hconfig, -, -⟩ := instructionsOnlyWriteRegisters i s t hexec
  obtain ⟨j, hj, hplace⟩ := pc_of_fetch hin hfetch
  obtain ⟨hbase, hend⟩ := (text_wf_iff _).mp hwf
  have hnext : t.pc.toNat = s.pc.toNat + 4 := by
    rw [hpc, BitVec.toNat_add, show (4 : Word).toNat = 4 from rfl]
    omega
  refine ⟨(inv_iff t).mpr ⟨htext ▸ hwf, ?_, ?_, htmem ▸ hmem, ?_⟩, hnext⟩
  · rw [pcAligned_iff, hnext]
    omega
  · rw [pcInProgram_iff, htext, hnext]
    omega
  · rw [absentCellsZero_iff] at hzero ⊢
    intro d hd
    rw [hconfig] at hd
    rw [readD_of_absent hexec hd, hzero d hd]

/-- Settles O3: a completed instruction writes registers of the bank and moves the pc from a word of the text to the next
place. -/
theorem stepKeepsInvariant : Obligations.StepKeepsInvariant :=
  fun _ _ hinv h => (step_keeps_inv hinv h).1

end Sys2Proof.Machine
end

section
/-! PROOFS. Quadword and single-precision registers as views of the doubleword registers (spec 10 R15 to R17, 30 R46). -/

namespace Sys2Proof.Machine

/-! ## Quadword registers (10 R15, R16) -/

/-- A write to the low half of a quadword register leaves its high half (10 R16). -/
theorem readQ_writeD_qFirst (s : State) (k : Fin 16) (v : DWord) :
    (s.writeD (qFirst k) v).readQ k = s.readD (qSecond k) ++ v := by
  rw [State.readQ, readD_writeD_same, readD_writeD, if_neg (qFirst_ne_qSecond k k).symm]

/-- A write to the high half of a quadword register leaves its low half (10 R16). -/
theorem readQ_writeD_qSecond (s : State) (k : Fin 16) (v : DWord) :
    (s.writeD (qSecond k) v).readQ k = v ++ s.readD (qFirst k) := by
  rw [State.readQ, readD_writeD_same, readD_writeD, if_neg (qFirst_ne_qSecond k k)]

/-- With 16 doubleword registers there are Q0 to Q7 (10 R15). -/
theorem inBank_qFirst_of_sixteen {c : Config} (h : c.bank = .sixteen) (k : Fin 16) :
    inBank c (qFirst k) 2 = true ↔ k.val < 8 := by
  rw [inBank_iff, Config.numDregs, h]
  simp only [qFirst, DBank.count]
  omega

/-- A field pair without a set low bit holds twice the quadword register's number (30 R46). -/
theorem qNumber?_eq (x : BitVec 1) (v : BitVec 4) :
    qNumber? x v = if _h : v.toNat % 2 = 0 then some ⟨(dNumber x v).val / 2, by omega⟩ else none := by
  revert x v
  decide

theorem qNumber?_fields (k : Fin 16) : qNumber? (qHighBit k) (qLowBits k) = some k := by
  revert k
  decide

theorem qHighBit_toNat (k : Fin 16) : (qHighBit k).toNat = k.val / 8 := by
  revert k
  decide

theorem qLowBits_toNat (k : Fin 16) : (qLowBits k).toNat = 2 * (k.val % 8) := by
  revert k
  decide

/-! ## Single-precision registers (10 R17) -/

/-- A doubleword is its two words. -/
theorem append_words (v : DWord) : elem v 1 32 ++ elem v 0 32 = v :=
  calc elem v 1 32 ++ elem v 0 32 = v.extractLsb' 0 64 :=
        BitVec.extractLsb'_append_extractLsb'_eq_extractLsb' (by decide)
    _ = v := BitVec.extractLsb'_eq_self

/-- `S<2m>` and `S<2m+1>` are the low and the high word of `D<m>`. -/
theorem append_readS (s : State) (m : Fin 16) :
    s.readS ⟨2 * m.val + 1, by omega⟩ ++ s.readS ⟨2 * m.val, by omega⟩ = s.readD ⟨m.val, by omega⟩ := by
  have hhigh : sHome ⟨2 * m.val + 1, by omega⟩ = ⟨m.val, by omega⟩ := Fin.ext (by simp only [sHome]; omega)
  have hlow : sHome ⟨2 * m.val, by omega⟩ = ⟨m.val, by omega⟩ := Fin.ext (by simp only [sHome]; omega)
  have hone : (2 * m.val + 1) % 2 = 1 := by omega
  rw [State.readS, State.readS, hhigh, hlow, hone, Nat.mul_mod_right]
  exact append_words _

/-- A write to a single-precision register changes no other doubleword register than its own. -/
theorem readD_writeS_ne (s : State) {j : Fin 32} (v : Word) {i : DNum} (h : i ≠ sHome j) :
    (s.writeS j v).readD i = s.readD i := by
  rw [State.writeS, readD_writeD, if_neg h]

/-- A write to a single-precision register changes no other one: they are parts of other registers or the other half of the
same. -/
theorem readS_writeS_ne (s : State) {j j' : Fin 32} (v : Word) (h : j' ≠ j) :
    (s.writeS j v).readS j' = s.readS j' := by
  by_cases hhome : sHome j' = sHome j
  · have hpart : j.val % 2 ≠ j'.val % 2 := by
      have hval : j'.val / 2 = j.val / 2 := congrArg Fin.val hhome
      omega
    rw [State.readS, State.writeS, hhome, readD_writeD_same, elem_setElem_ne _ _ _ _ (by omega) hpart, State.readS, hhome]
  · rw [State.readS, readD_writeS_ne s v hhome, State.readS]

end Sys2Proof.Machine
end

section
/-! PROOFS. The obligations on register views (spec 10 R15 to R17, 30 R46). -/

namespace Sys2Proof.Machine

/-- Settles O20: a quadword register is read and written through its halves. -/
theorem quadwordIsPairOfDoublewords : Obligations.QuadwordIsPairOfDoublewords := by
  refine fun s k => ⟨rfl, rfl, rfl, fun v => ⟨readQ_writeQ_same s k v, ?_, ?_, fun i hfirst hsecond => ?_⟩,
    fun v => ⟨readQ_writeD_qFirst s k v, readQ_writeD_qSecond s k v⟩, fun h => inBank_qFirst_of_sixteen h k⟩
  · rw [readD_writeQ, if_pos rfl]
  · rw [readD_writeQ, if_neg (qFirst_ne_qSecond k k).symm, if_pos rfl]
  · rw [readD_writeQ, if_neg hfirst, if_neg hsecond]

/-- Settles O21: a single-precision register is one half of one doubleword register. -/
theorem singlesOverlayTheLowDoublewords : Obligations.SinglesOverlayTheLowDoublewords := by
  refine fun s => ⟨append_readS s, fun k => ?_, fun j v =>
    ⟨readS_writeS_same s j v, fun j' h => readS_writeS_ne s v h, fun i h => ?_⟩⟩
  · have hlow := append_readS s ⟨2 * k.val, by omega⟩
    have hhigh := append_readS s ⟨2 * k.val + 1, by omega⟩
    simp only [Nat.mul_add, ← Nat.mul_assoc, Nat.add_assoc, Nat.reduceMul, Nat.reduceAdd] at hlow hhigh
    rw [hlow, hhigh]
    rfl
  · exact readD_writeS_ne s v fun hhome => h (congrArg Fin.val hhome)

/-- Settles O17: of the 32 values of a field pair the even ones are the quadword registers' fields. -/
theorem quadwordNumberFields : Obligations.QuadwordNumberFields := by
  refine ⟨qNumber?_eq, fun k => ⟨qHighBit_toNat k, qLowBits_toNat k, qNumber?_fields k, ?_⟩⟩
  rw [dNumber_val, qHighBit_toNat, qLowBits_toNat]
  omega

end Sys2Proof.Machine
end

section
/-! PROOFS. What an instruction depends on (spec 44 R111 steps 5 to 7): from two states that agree in the registers its
footprint reads and in everything but registers, it ends in the same way and writes the same values. -/

namespace Sys2Proof.Machine

/-- The states are the same but for the two register files. -/
structure SameButRegisters (s u : State) : Prop where
  config : s.config = u.config
  pc : s.pc = u.pc
  mem : s.mem = u.mem
  text : s.text = u.text
  faultRecord : s.faultRecord = u.faultRecord
  refusalMark : s.refusalMark = u.refusalMark

/-- The states are the same but for registers that the footprint does not read. -/
structure AgreeOnReads (f : Footprint) (s u : State) : Prop where
  same : SameButRegisters s u
  regs : ∀ r ∈ f.readsR, s.readR r = u.readR r
  dregs : ∀ d ∈ f.readsD, s.readD d = u.readD d

/-- From `s` to `t` and from `u` to `v` the doubleword registers that the footprint writes were given the same values and the
others were kept, and each general-purpose register was given one value or kept in both. -/
structure ChangedAlike (f : Footprint) (s u t v : State) : Prop where
  same : SameButRegisters t v
  regs : ∀ r, t.readR r = v.readR r ∨ (t.readR r = s.readR r ∧ v.readR r = u.readR r)
  written : ∀ d ∈ f.writesD, t.readD d = v.readD d
  kept : ∀ d, d ∉ f.writesD → t.readD d = s.readD d ∧ v.readD d = u.readD d

/-- The same fault or refusal, or next states that changed alike. -/
def EndAlike (f : Footprint) (s u : State) :
    Host.Outcome State Fault Refusal → Host.Outcome State Fault Refusal → Prop
  | .next t, .next v => ChangedAlike f s u t v
  | .fault a, .fault b => a = b
  | .refused a, .refused b => a = b
  | _, _ => False

variable {s u : State} {f : Footprint}

/-! ## Operations -/

theorem SameButRegisters.advance (h : SameButRegisters s u) : SameButRegisters s.advance u.advance :=
  ⟨h.config, by rw [advance_pc, advance_pc, h.pc], h.mem, h.text, h.faultRecord, h.refusalMark⟩

theorem SameButRegisters.writeDs (h : SameButRegisters s u) (d : DNum) (vs : List DWord) :
    SameButRegisters (s.writeDs d vs) (u.writeDs d vs) := by
  constructor <;> simp [h.config, h.pc, h.mem, h.text, h.faultRecord, h.refusalMark]

theorem SameButRegisters.writeR (h : SameButRegisters s u) (rn : Fin 15) (v : Word) :
    SameButRegisters (s.writeR rn v) (u.writeR rn v) :=
  ⟨h.config, h.pc, h.mem, h.text, h.faultRecord, h.refusalMark⟩

/-- States that are the same but for registers, with the same general-purpose registers, are the same but for doubleword
registers. -/
theorem SameButRegisters.eq_with_dregs (h : SameButRegisters s u) (hregs : ∀ r, s.readR r = u.readR r) :
    s = { u with dregs := s.dregs } := by
  obtain ⟨hconfig, hpc, hmem, htext, hfault, hmark⟩ := h
  have hfile := regs_ext hregs
  cases s
  cases u
  simp_all

theorem SameButRegisters.fetch_eq (h : SameButRegisters s u) : s.fetch = u.fetch := by
  unfold State.fetch
  rw [h.text, h.pc]

theorem SameButRegisters.loadBlock_eq (h : SameButRegisters s u) (addr : Word) (n : Nat) :
    s.loadBlock addr n = u.loadBlock addr n := by
  unfold State.loadBlock
  rw [h.mem]

/-- Writing one list of values in both states changes them alike. -/
theorem changedAlike_writeDs {d : DNum} {vs : List DWord} (h : SameButRegisters s u) (hd : d.val + vs.length ≤ 32)
    (hw : ∀ j, j ∈ f.writesD ↔ d.val ≤ j.val ∧ j.val < d.val + vs.length) :
    ChangedAlike f s u (s.writeDs d vs) (u.writeDs d vs) where
  same := h.writeDs d vs
  regs r := .inr ⟨readR_writeDs s d vs r, readR_writeDs u d vs r⟩
  written j hj := by
    have hplace := (hw j).mp hj
    rw [readD_writeDs _ _ _ _ hd, readD_writeDs _ _ _ _ hd, dif_pos (by omega), dif_pos (by omega)]
  kept j hj := by
    have houtside : ¬ (d.val ≤ j.val ∧ j.val < d.val + vs.length) := fun h => hj ((hw j).mpr h)
    exact ⟨readD_writeDs_outside s hd (by omega), readD_writeDs_outside u hd (by omega)⟩

theorem ChangedAlike.advance {t v : State} (h : ChangedAlike f s u t v) : ChangedAlike f s u t.advance v.advance :=
  ⟨h.same.advance, h.regs, h.written, h.kept⟩

theorem ChangedAlike.writeR {t v : State} (h : ChangedAlike f s u t v) (rn : Fin 15) (x : Word) :
    ChangedAlike f s u (t.writeR rn x) (v.writeR rn x) where
  same := h.same.writeR rn x
  regs r := by
    by_cases hr : r = rn
    · exact .inl (by rw [hr, readR_writeR_same, readR_writeR_same])
    · simpa [readR_writeR, hr] using h.regs r
  written := h.written
  kept := h.kept

/-! ## Instructions -/

theorem vadd_endAlike {o : VaddOperands} (hfault : vaddFault? s.config o = none)
    (h : AgreeOnReads (vaddFootprint o) s u) : EndAlike (vaddFootprint o) s u (vadd o s) (vadd o u) := by
  obtain ⟨-, -, hd, -, -⟩ := (vaddFault?_none_iff _ _).mp hfault
  have hbank := inBank_lt hd
  have hresults : vaddResults u o = vaddResults s o := by
    refine List.map_congr_left fun r hr => ?_
    rw [h.dregs (dPlus o.n r), h.dregs (dPlus o.m r)]
    · exact List.mem_append_right _ (List.mem_map_of_mem hr)
    · exact List.mem_append_left _ (List.mem_map_of_mem hr)
  simp only [vadd, ← h.same.config, hfault, hresults, complete]
  refine (changedAlike_writeDs h.same (by simpa using hbank) fun j => ?_).advance
  rw [length_vaddResults]
  exact mem_dRun hbank

theorem vsubw_endAlike {o : VsubwOperands} (hfault : vsubwFault? s.config o = none)
    (h : AgreeOnReads (vsubwFootprint o) s u) : EndAlike (vsubwFootprint o) s u (vsubw o s) (vsubw o u) := by
  have hn : u.readQ (qOf o.n) = s.readQ (qOf o.n) := by
    rw [State.readQ, State.readQ, h.dregs (qFirst (qOf o.n)) (by simp [vsubwFootprint]),
      h.dregs (qSecond (qOf o.n)) (by simp [vsubwFootprint])]
  have hm : u.readD o.m = s.readD o.m := (h.dregs o.m (by simp [vsubwFootprint])).symm
  simp only [vsubw, ← h.same.config, hfault, hn, hm, complete, writeQ_eq_writeDs]
  refine (changedAlike_writeDs h.same ?_ fun j => ?_).advance
  · simp only [qFirst, List.length_cons, List.length_nil]
    omega
  · simp only [vsubwFootprint, qFirst, qSecond, List.mem_cons, List.not_mem_nil, or_false, Fin.ext_iff, List.length_cons,
      List.length_nil]
    omega

theorem vmovn_endAlike {o : VmovnOperands} (hfault : vmovnFault? s.config o = none)
    (h : AgreeOnReads (vmovnFootprint o) s u) : EndAlike (vmovnFootprint o) s u (vmovn o s) (vmovn o u) := by
  have hm : u.readQ (qOf o.m) = s.readQ (qOf o.m) := by
    rw [State.readQ, State.readQ, h.dregs (qFirst (qOf o.m)) (by simp [vmovnFootprint]),
      h.dregs (qSecond (qOf o.m)) (by simp [vmovnFootprint])]
  simp only [vmovn, ← h.same.config, hfault, hm, complete]
  refine (changedAlike_writeDs (d := o.d) (vs := [_]) h.same ?_ fun j => ?_).advance
  · exact o.d.isLt
  · simp only [vmovnFootprint, List.mem_singleton, Fin.ext_iff, List.length_singleton]
    omega

/-- The base, and in format 3 the index, are read, so the base is given the same value in both states. -/
theorem vld1_endAlike {regs : Nat} (hpos : 0 < regs) {o : Vld1Operands} (hfault : vld1Fault? s.config regs o = none)
    (h : AgreeOnReads (vld1Footprint regs o) s u) :
    EndAlike (vld1Footprint regs o) s u (vld1 regs o s) (vld1 regs o u) := by
  have hwrites := mem_writesD_vld1Footprint hpos hfault
  unfold vld1Fault? at hfault
  split at hfault
  · next rn hbase =>
    obtain ⟨-, -, -, hrn, hlist⟩ := (vld1Base_ok_iff _ _ _ _).mp hbase
    have hreads := mem_readsR_vld1Footprint regs o
    have haddr : u.readR rn = s.readR rn := (h.regs rn ((hreads rn).mpr (.inl (gprOf?_eq_some_iff.mp hrn)))).symm
    have hnew : postBase u rn (transferSize regs) o.format = postBase s rn (transferSize regs) o.format := by
      unfold postBase postOffset
      rw [haddr]
      split
      · rfl
      · rfl
      · next rm hformat => rw [h.regs rm ((hreads rm).mpr (.inr hformat))]
    simp only [vld1, ← h.same.config, hbase, haddr, ← h.same.loadBlock_eq]
    cases alignFault? s.config o.size o.align (s.readR rn) with
    | some f => rfl
    | none =>
      cases s.loadBlock (s.readR rn) (transferSize regs) with
      | error f => rfl
      | ok bs =>
        rw [listFits_iff] at hlist
        have hbank := numDregs_cases s.config
        have hchanged : ChangedAlike (vld1Footprint regs o) s u
            (s.writeDs o.d (loadedRegisters s.config.bigEndian o.size regs bs))
            (u.writeDs o.d (loadedRegisters s.config.bigEndian o.size regs bs)) :=
          changedAlike_writeDs h.same (by rw [length_loadedRegisters]; omega) (by simpa using hwrites)
        simp only [writeBack, hnew]
        split
        · exact (hchanged.writeR rn _).advance
        · exact hchanged.advance
  · cases hfault

/-- Without a decode fault an instruction depends on no register but those of its footprint. -/
theorem exec_endAlike {i : Instr} (hfault : decodeFault? s.config i = none) (h : AgreeOnReads (footprint i) s u) :
    EndAlike (footprint i) s u (exec i s) (exec i u) := by
  cases i with
  | vaddA32 o | vaddT32 o => exact vadd_endAlike (o := o) hfault h
  | vsubwA32 o | vsubwT32 o => exact vsubw_endAlike (o := o) hfault h
  | vmovnA32 o | vmovnT32 o => exact vmovn_endAlike (o := o) hfault h
  | vld1OneA32 o | vld1OneT32 o | vld1TwoA32 o | vld1TwoT32 o | vld1ThreeA32 o | vld1ThreeT32 o | vld1FourA32 o
  | vld1FourT32 o => exact vld1_endAlike (by decide) (o := o) hfault h

end Sys2Proof.Machine
end

section
/-! PROOFS. The obligations on what an instruction depends on (spec 10 R14, R24; 92 D2, D9). -/

namespace Sys2Proof.Machine

/-! ## Register parts without a value (92 D9) -/

/-- A register all of whose parts have a value holds the same in launched states that agree in such parts. -/
theorem readD_eq_of_hasD {a b : Launched} (h : sameButUnvalued a b) {d : DNum} (hd : a.hasD d = true) :
    a.machine.readD d = b.machine.readD d := by
  obtain ⟨-, -, -, -, -, -, -, -, hsingle, hupper⟩ := h
  have hparts := (hasD_iff a d).mp hd
  by_cases hlow : d.val < 16
  · have halves (s : State) := append_readS s ⟨d.val, hlow⟩
    rw [← halves, ← halves, hsingle _ (hparts _ ((single_mem_partsOfD _ _).mpr (by dsimp only; omega))),
      hsingle _ (hparts _ ((single_mem_partsOfD _ _).mpr (by dsimp only; omega)))]
  · have hplace : d = ⟨(d.val - 16) + 16, by omega⟩ := Fin.ext (by dsimp only; omega)
    have heq := hupper ⟨d.val - 16, by omega⟩ (hparts _ ((upper_mem_partsOfD _ _).mpr (by dsimp only; omega)))
    rwa [← hplace] at heq

/-- Launched states that agree in parts with a value are the same but for registers. -/
theorem sameButRegisters_of_sameButUnvalued {a b : Launched} (h : sameButUnvalued a b) :
    SameButRegisters a.machine b.machine := by
  obtain ⟨-, hconfig, hpc, hmem, htext, hfault, hmark, -⟩ := h
  exact ⟨hconfig, hpc, hmem, htext, hfault, hmark⟩

/-- Where nothing that the footprint reads lacks a value, such states agree in what it reads. -/
theorem agreeOnReads_of_sameButUnvalued {a b : Launched} {f : Footprint} (h : sameButUnvalued a b)
    (hf : a.unwritten? f = none) : AgreeOnReads f a.machine b.machine := by
  obtain ⟨hR, hD⟩ := (unwritten?_eq_none_iff a f).mp hf
  refine ⟨sameButRegisters_of_sameButUnvalued h, fun r hr => ?_, fun d hd => readD_eq_of_hasD h (hD d hd)⟩
  obtain ⟨-, -, -, -, -, -, -, hgpr, -, -⟩ := h
  exact hgpr r ((hasR_iff a r).mp (hR r hr))

/-- After changes that are alike, such states still agree in the parts with a value: those that had one, and those of the
registers written. -/
theorem sameButUnvalued_afterWrites {a b : Launched} {f : Footprint} {t v : State} (h : sameButUnvalued a b)
    (hc : ChangedAlike f a.machine b.machine t v) : sameButUnvalued (a.afterWrites f t) (b.afterWrites f v) := by
  obtain ⟨hvalued, -, -, -, -, -, -, hgpr, hsingle, hupper⟩ := h
  obtain ⟨⟨hconfig, hpc, hmem, htext, hfault, hmark⟩, hregs, hwritten, hkept⟩ := hc
  refine ⟨by rw [Launched.afterWrites, Launched.afterWrites, hvalued], hconfig, hpc, hmem, htext, hfault, hmark,
    fun i hi => ?_, fun j hj => ?_, fun i hi => ?_⟩
  · have hold : RegPart.gpr i ∈ a.valued := by simpa [mem_valued_afterWrites] using hi
    obtain heq | ⟨ht, hv⟩ := hregs i
    · exact heq
    · exact (ht.trans (hgpr i hold)).trans hv.symm
  · simp only [mem_valued_afterWrites, single_mem_partsOfD] at hj
    change t.readS j = v.readS j
    by_cases hw : sHome j ∈ f.writesD
    · rw [State.readS, State.readS, hwritten _ hw]
    · obtain hold | ⟨d, hd, hplace⟩ := hj
      · obtain ⟨ht, hv⟩ := hkept _ hw
        rw [State.readS, State.readS, ht, hv]
        exact hsingle j hold
      · exact absurd ((show d = sHome j from Fin.ext hplace) ▸ hd) hw
  · simp only [mem_valued_afterWrites, upper_mem_partsOfD] at hi
    by_cases hw : (⟨i.val + 16, by omega⟩ : DNum) ∈ f.writesD
    · exact hwritten _ hw
    · obtain hold | ⟨d, hd, hplace⟩ := hi
      · obtain ⟨ht, hv⟩ := hkept _ hw
        exact (ht.trans (hupper i hold)).trans hv.symm
      · exact absurd ((show d = ⟨i.val + 16, by omega⟩ from Fin.ext hplace) ▸ hd) hw

/-- Which register is named depends on which parts have a value, and on nothing that they hold. -/
theorem unwritten?_congr {a b : Launched} (h : a.valued = b.valued) (f : Footprint) :
    a.unwritten? f = b.unwritten? f := by
  obtain ⟨m, va⟩ := a
  obtain ⟨m', vb⟩ := b
  subst h
  rfl

theorem launchExec_sameOutcome {a b : Launched} (h : sameButUnvalued a b) (i : Instr) :
    SameOutcome (launchExec i a) (launchExec i b) := by
  have hsame := sameButRegisters_of_sameButUnvalued h
  unfold launchExec
  rw [← hsame.config, ← unwritten?_congr h.1]
  cases hfault : decodeFault? a.machine.config i with
  | some f => rfl
  | none =>
    cases hunwritten : a.unwritten? (footprint i) with
    | some r => rfl
    | none =>
      have halike := exec_endAlike hfault (agreeOnReads_of_sameButUnvalued h hunwritten)
      cases ha : exec i a.machine <;> cases hb : exec i b.machine <;> rw [ha, hb] at halike
      case next.next => exact sameButUnvalued_afterWrites h halike
      all_goals exact halike

/-- Settles O44: a launch step fetches and decodes what the states have in common, and an instruction that reads no part
without a value writes the same values in both. -/
theorem launchedRunsIgnoreUnvaluedParts : Obligations.LaunchedRunsIgnoreUnvaluedParts := by
  intro a b h
  have hsame := sameButRegisters_of_sameButUnvalued h
  unfold launchStep
  rw [← hsame.faultRecord, ← hsame.refusalMark, ← hsame.fetch_eq, ← hsame.config]
  cases a.machine.faultRecord with
  | some f => rfl
  | none =>
    cases a.machine.refusalMark with
    | some r => rfl
    | none =>
      cases a.machine.fetch with
      | error r => rfl
      | ok w =>
        dsimp only
        cases decode a.machine.config.instrSet w with
        | error e => rfl
        | ok i => exact launchExec_sameOutcome h i

/-! ## The absent cells (10 R14, log 3) -/

/-- A VLD1 without a decode fault writes registers of the bank (43 R97). -/
theorem lt_of_mem_writesD_vld1Footprint {c : Config} {regs : Nat} {o : Vld1Operands} (hpos : 0 < regs)
    (h : vld1Fault? c regs o = none) {d : DNum} (hd : d ∈ (vld1Footprint regs o).writesD) : d.val < c.numDregs := by
  rw [mem_writesD_vld1Footprint hpos h] at hd
  unfold vld1Fault? at h
  split at h
  · next rn hbase =>
    obtain ⟨-, -, -, -, hlist⟩ := (vld1Base_ok_iff _ _ _ _).mp hbase
    rw [listFits_iff] at hlist
    omega
  · cases h

/-- Without a decode fault every doubleword register of a footprint exists (10 R14). -/
theorem lt_of_mem_footprint {c : Config} {i : Instr} (h : decodeFault? c i = none) {d : DNum}
    (hd : d ∈ (footprint i).readsD ∨ d ∈ (footprint i).writesD) : d.val < c.numDregs := by
  cases i with
  | vaddA32 o | vaddT32 o =>
    obtain ⟨-, -, hdest, hfirst, hsecond⟩ := (vaddDefined_iff c o).mpr h
    simp only [footprint, mem_readsD_vaddFootprint (o := o) h, mem_writesD_vaddFootprint (o := o) h] at hd
    obtain ⟨k, hk, hplace | hplace⟩ | ⟨k, hk, hplace⟩ := hd <;> omega
  | vsubwA32 o | vsubwT32 o =>
    obtain ⟨-, -, -, hdest, hfirst, hsecond⟩ := (vsubwDefined_iff c o).mpr h
    simp only [footprint, mem_readsD_vsubwFootprint (o := o) h, mem_writesD_vsubwFootprint (o := o) h] at hd
    omega
  | vmovnA32 o | vmovnT32 o =>
    obtain ⟨-, -, -, hdest, hsource⟩ := (vmovnDefined_iff c o).mpr h
    simp only [footprint, mem_readsD_vmovnFootprint (o := o) h, mem_writesD_vmovnFootprint] at hd
    omega
  | vld1OneA32 o | vld1OneT32 o | vld1TwoA32 o | vld1TwoT32 o | vld1ThreeA32 o | vld1ThreeT32 o | vld1FourA32 o
  | vld1FourT32 o =>
    obtain hread | hwrite := hd
    · exact absurd hread List.not_mem_nil
    · exact lt_of_mem_writesD_vld1Footprint (by decide) (o := o) h hwrite

/-- Settles O39: every register of a footprint is one of the bank's, so an instruction ends alike in states that differ in
absent cells alone, and keeps those cells. -/
theorem smallBankNeverReachesUpperCells : Obligations.SmallBankNeverReachesUpperCells := by
  intro i s u hbank hstates hlow
  have hsame : SameButRegisters s u := by
    rw [hstates]
    exact ⟨rfl, rfl, rfl, rfl, rfl, rfl⟩
  have hregs (r : Fin 15) : s.readR r = u.readR r := by rw [hstates]; rfl
  have hcount : s.config.numDregs = 16 := by rw [Config.numDregs, hbank]; rfl
  cases hfault : decodeFault? s.config i with
  | some f =>
    rw [exec_of_decodeFault hfault, exec_of_decodeFault (hsame.config ▸ hfault)]
    exact ⟨fun _ => Iff.rfl, fun _ h => nomatch h⟩
  | none =>
    have hreach {d : DNum} := lt_of_mem_footprint hfault (d := d)
    have halike := exec_endAlike hfault ⟨hsame, fun r _ => hregs r, fun d hd =>
      hlow d (hcount ▸ hreach (.inl hd))⟩
    cases hs : exec i s <;> cases hu : exec i u <;> rw [hs, hu] at halike
    case next.next t v =>
      refine ⟨fun _ => ⟨nofun, nofun⟩, ?_⟩
      rintro _ ⟨⟩
      obtain ⟨hsame', hregs', hwritten, hkept⟩ := halike
      refine ⟨v, rfl, hsame'.eq_with_dregs fun r => ?_, fun d hd => ?_, fun d hd => ?_⟩
      · obtain heq | ⟨ht, hv⟩ := hregs' r
        · exact heq
        · exact (ht.trans (hregs r)).trans hv.symm
      · by_cases hw : d ∈ (footprint i).writesD
        · exact hwritten d hw
        · obtain ⟨ht, hv⟩ := hkept d hw
          exact (ht.trans (hlow d hd)).trans hv.symm
      · exact (hkept d fun hw => absurd (hreach (.inr hw)) (by omega)).1
    case fault.fault f g =>
      obtain rfl : f = g := halike
      exact ⟨fun _ => Iff.rfl, fun _ h => nomatch h⟩
    case refused.refused => exact ⟨fun _ => ⟨nofun, nofun⟩, fun _ h => nomatch h⟩
    all_goals exact halike.elim

end Sys2Proof.Machine
end

section
/-! PROOFS. How instructions stop (spec 60 R120 to R126): each mnemonic's faults, and that nothing decoded is refused. -/

namespace Sys2Proof.Machine

/-! ## VADD, VSUBW, VMOVN (44 R112 to R114) -/

theorem eq_undefined_of_vaddFault? {c : Config} {o : VaddOperands} {f : Fault} (h : vaddFault? c o = some f) :
    f = .undefined := by
  unfold vaddFault? at h
  dsimp only at h
  repeat' split at h
  all_goals cases h <;> rfl

theorem eq_undefined_of_vsubwFault? {c : Config} {o : VsubwOperands} {f : Fault} (h : vsubwFault? c o = some f) :
    f = .undefined := by
  unfold vsubwFault? at h
  repeat' split at h
  all_goals cases h <;> rfl

theorem eq_undefined_of_vmovnFault? {c : Config} {o : VmovnOperands} {f : Fault} (h : vmovnFault? c o = some f) :
    f = .undefined := by
  unfold vmovnFault? at h
  repeat' split at h
  all_goals cases h <;> rfl

theorem vadd_of_not_defined {o : VaddOperands} {s : State} (h : ¬ VaddDefined s.config o) :
    vadd o s = .fault .undefined := by
  obtain ⟨f, hf⟩ := Option.ne_none_iff_exists'.mp (mt (vaddDefined_iff s.config o).mpr h)
  rw [vadd, hf, eq_undefined_of_vaddFault? hf]

theorem vsubw_of_not_defined {o : VsubwOperands} {s : State} (h : ¬ VsubwDefined s.config o) :
    vsubw o s = .fault .undefined := by
  obtain ⟨f, hf⟩ := Option.ne_none_iff_exists'.mp (mt (vsubwDefined_iff s.config o).mpr h)
  rw [vsubw, hf, eq_undefined_of_vsubwFault? hf]

theorem vmovn_of_not_defined {o : VmovnOperands} {s : State} (h : ¬ VmovnDefined s.config o) :
    vmovn o s = .fault .undefined := by
  obtain ⟨f, hf⟩ := Option.ne_none_iff_exists'.mp (mt (vmovnDefined_iff s.config o).mpr h)
  rw [vmovn, hf, eq_undefined_of_vmovnFault? hf]

/-- The instruction completes, or ends in one of the faults `P`. -/
def CompletesOrFaults (P : Fault → Prop) (x : Host.Outcome State Fault Refusal) : Prop :=
  (∃ t, x = .next t) ∨ ∃ f, x = .fault f ∧ P f

theorem vadd_completesOrFaults (o : VaddOperands) (s : State) : CompletesOrFaults (· = .undefined) (vadd o s) := by
  by_cases h : VaddDefined s.config o
  · exact .inl ⟨_, by rw [vadd, (vaddDefined_iff _ _).mp h, complete]⟩
  · exact .inr ⟨_, vadd_of_not_defined h, rfl⟩

theorem vsubw_completesOrFaults (o : VsubwOperands) (s : State) : CompletesOrFaults (· = .undefined) (vsubw o s) := by
  by_cases h : VsubwDefined s.config o
  · exact .inl ⟨_, by rw [vsubw, (vsubwDefined_iff _ _).mp h, complete]⟩
  · exact .inr ⟨_, vsubw_of_not_defined h, rfl⟩

theorem vmovn_completesOrFaults (o : VmovnOperands) (s : State) : CompletesOrFaults (· = .undefined) (vmovn o s) := by
  by_cases h : VmovnDefined s.config o
  · exact .inl ⟨_, by rw [vmovn, (vmovnDefined_iff _ _).mp h, complete]⟩
  · exact .inr ⟨_, vmovn_of_not_defined h, rfl⟩

/-! ## VLD1 (44 R115) -/

theorem vld1Base_of_not_defined {c : Config} {regs : Nat} {o : Vld1Operands} (h : ¬ Vld1Defined c regs o) :
    vld1Base c regs o = .error .undefined := by
  rw [vld1Defined_iff] at h
  unfold vld1Base
  cases henabled : c.simdEnabled
  · rfl
  · cases halign : alignPermitted regs o.align
    · rfl
    · cases hfirst : inBank c o.d 1
      · rfl
      · exact absurd ⟨henabled, halign, hfirst⟩ h

theorem alignFault?_of_aligned {c : Config} {o : Vld1Operands} {addr : Word} (h : addr.toNat % alignNeeded c o = 0) :
    alignFault? c o.size o.align addr = none := by
  rwa [alignFault?_none_iff, requiredAlign_eq_alignNeeded]

/-- The first address of a misaligned VLD1 is what its fault carries (20 R33). -/
theorem vld1_of_misaligned {regs : Nat} {o : Vld1Operands} {rn : Fin 15} {s : State}
    (hbase : vld1Base s.config regs o = .ok rn) (h : (s.readR rn).toNat % alignNeeded s.config o ≠ 0) :
    vld1 regs o s = .fault (.alignment (s.readR rn)) := by
  have hfault : alignFault? s.config o.size o.align (s.readR rn) = some (.alignment (s.readR rn)) := by
    rw [alignFault?, requiredAlign_eq_alignNeeded, if_neg h]
  simp only [vld1, hbase, hfault]

/-- A VLD1 of an aligned address whose block is not loaded ends in the block's fault. -/
theorem vld1_of_loadBlock_error {regs : Nat} {o : Vld1Operands} {rn : Fin 15} {s : State} {f : Fault}
    (hbase : vld1Base s.config regs o = .ok rn) (h : (s.readR rn).toNat % alignNeeded s.config o = 0)
    (hblock : s.loadBlock (s.readR rn) (transferSize regs) = .error f) : vld1 regs o s = .fault f := by
  simp only [vld1, hbase, alignFault?_of_aligned h, hblock]

/-- A block past the top of the address space is MemFault at its first address (20 R31). -/
theorem loadBlock_of_wrap {s : State} {addr : Word} {n : Nat} (h : 2 ^ 32 < addr.toNat + n) :
    s.loadBlock addr n = .error (.memFault addr) :=
  if_pos h

/-- A block with an absent byte is MemFault at the lowest one (20 R35, 60 R124). -/
theorem loadBlock_of_absent {s : State} {addr : Word} {n k : Nat} (hfit : addr.toNat + n ≤ 2 ^ 32) (hk : k < n)
    (habsent : s.mem.byte? (addr.toNat + k) = none)
    (hlow : ∀ j, j < k → (s.mem.byte? (addr.toNat + j)).isSome = true) :
    s.loadBlock addr n = .error (.memFault (addr + BitVec.ofNat 32 k)) := by
  have hread : s.mem.readBlock addr.toNat n = .error (addr.toNat + k) := by
    rw [readBlock_error_iff]
    refine ⟨by omega, by omega, habsent, fun y hy hyk => ?_⟩
    rw [← Nat.add_sub_cancel' hy]
    exact hlow _ (by omega)
  rw [State.loadBlock, if_neg (by omega), hread]
  simp only [BitVec.ofNat_add, BitVec.ofNat_toNat, BitVec.setWidth_eq]

/-- The faults a VLD1 can end in (60 R121 to R124). -/
def IsVld1Fault (f : Fault) : Prop :=
  f = .undefined ∨ f = .unpredictable .baseIsPc ∨ f = .unpredictable .listWraps ∨ (∃ a, f = .alignment a) ∨
    ∃ a, f = .memFault a

theorem isVld1Fault_of_vld1Base {c : Config} {regs : Nat} {o : Vld1Operands} {f : Fault}
    (h : vld1Base c regs o = .error f) : IsVld1Fault f := by
  unfold IsVld1Fault
  by_cases hdef : Vld1Defined c regs o
  · by_cases hrn : o.rn = 15
    · cases (vld1Base_of_pc hdef hrn).symm.trans h
      exact .inr (.inl rfl)
    · by_cases hfit : o.d.val + regs ≤ c.numDregs
      · cases (vld1Base_of_defined (rn := ⟨o.rn.val, by omega⟩) hdef rfl hfit).symm.trans h
      · cases (vld1Base_of_wrap hdef hrn (by omega)).symm.trans h
        exact .inr (.inr (.inl rfl))
  · cases (vld1Base_of_not_defined hdef).symm.trans h
    exact .inl rfl

theorem vld1_completesOrFaults (regs : Nat) (o : Vld1Operands) (s : State) :
    CompletesOrFaults IsVld1Fault (vld1 regs o s) := by
  cases hbase : vld1Base s.config regs o with
  | error f => exact .inr ⟨f, by simp only [vld1, hbase], isVld1Fault_of_vld1Base hbase⟩
  | ok rn =>
    by_cases halign : (s.readR rn).toNat % alignNeeded s.config o = 0
    · cases hblock : s.loadBlock (s.readR rn) (transferSize regs) with
      | error f =>
        refine .inr ⟨f, vld1_of_loadBlock_error hbase halign hblock, ?_⟩
        obtain ⟨-, rfl⟩ | ⟨-, x, rfl, -⟩ := loadBlock_error_cases hblock
        · exact .inr (.inr (.inr (.inr ⟨_, rfl⟩)))
        · exact .inr (.inr (.inr (.inr ⟨_, rfl⟩)))
      | ok bs =>
        exact .inl ⟨vld1Result s regs o rn bs,
          by simp only [vld1, hbase, alignFault?_of_aligned halign, hblock, complete, vld1Result]⟩
    · exact .inr ⟨_, vld1_of_misaligned hbase halign, .inr (.inr (.inr (.inl ⟨_, rfl⟩)))⟩

/-! ## VLD1 without regard to the element size (44 R115, corner cases) -/

/-- Little-endian, byte `b` of a loaded register is byte `b` of its eight bytes, whatever the element size. -/
theorem byte_loadRegister_littleEndian (size : ElemSize) {bs : List Byte} (hlen : bs.length = 8) {b : Nat} (hb : b < 8) :
    some (elem (loadRegister false size bs) b 8) = bs[b]? := by
  have hpos : 0 < size.bytes := by cases size <;> decide
  have hcount : 8 / size.bytes * size.bytes = 8 := by cases size <;> rfl
  have helement : b / size.bytes < 8 / size.bytes := by rwa [Nat.div_lt_iff_lt_mul hpos, hcount]
  have hbyte := byte_loadRegister false hlen helement (Nat.mod_lt b hpos)
  simpa [Nat.div_add_mod'] using hbyte

theorem loadRegister_littleEndian_congr (size size' : ElemSize) {bs : List Byte} (hlen : bs.length = 8) :
    loadRegister false size bs = loadRegister false size' bs :=
  eq_of_elems (size := 8) 8 rfl (by decide) fun b hb => Option.some.inj <|
    (byte_loadRegister_littleEndian size hlen hb).trans (byte_loadRegister_littleEndian size' hlen hb).symm

theorem loadedRegisters_littleEndian_congr (size size' : ElemSize) {regs : Nat} {bs : List Byte}
    (hlen : bs.length = 8 * regs) : loadedRegisters false size regs bs = loadedRegisters false size' regs bs := by
  refine List.map_congr_left fun r hr => loadRegister_littleEndian_congr size size' ?_
  rw [List.mem_range] at hr
  rw [List.length_take, List.length_drop]
  omega

/-- The element size has no part in the decode conditions, and without STRICT_ALIGN none in the alignment. -/
theorem vld1_littleEndian_congr (regs : Nat) (o : Vld1Operands) (k : ElemSize) {s : State}
    (hend : s.config.bigEndian = false) (hstrict : s.config.strictAlign = false) :
    vld1 regs o s = vld1 regs { o with size := k } s := by
  have hbase : vld1Base s.config regs { o with size := k } = vld1Base s.config regs o := rfl
  have halign (addr : Word) : alignFault? s.config k o.align addr = alignFault? s.config o.size o.align addr := by
    simp [alignFault?, requiredAlign, hstrict]
  unfold vld1
  rw [hbase]
  cases vld1Base s.config regs o with
  | error f => rfl
  | ok rn =>
    dsimp only
    rw [halign]
    cases alignFault? s.config o.size o.align (s.readR rn) with
    | some f => rfl
    | none =>
      cases hblock : s.loadBlock (s.readR rn) (transferSize regs) with
      | error f => rfl
      | ok bs =>
        obtain ⟨-, hlen, -⟩ := (loadBlock_ok_iff _ _ _ _).mp hblock
        dsimp only
        rw [hend, loadedRegisters_littleEndian_congr o.size k hlen]

end Sys2Proof.Machine
end

section
/-! PROOFS. The obligations on how instructions stop (spec 44 R112 to R115, 60 R120 to R126). -/

namespace Sys2Proof.Machine

/-- Settles O30: the three Undefined conditions are the first tests of `vld1Base`. -/
theorem vld1UndefinedComesFirst : Obligations.Vld1UndefinedComesFirst :=
  fun _ _ _ _ hi hdef => exec_of_vld1Base_error hi (vld1Base_of_not_defined hdef)

/-- Settles O32: the alignment is tested before the block is loaded. -/
theorem vld1MisalignedAddressFaults : Obligations.Vld1MisalignedAddressFaults := by
  intro i regs o rn s hi hdef hrn hfit halign
  rw [exec_of_vld1Parts hi]
  exact vld1_of_misaligned (vld1Base_of_defined hdef hrn hfit) halign

/-- Settles O33: a block that wraps faults before any byte is looked for, and the bytes are looked for from the lowest
address on. -/
theorem vld1AbsentBlockFaults : Obligations.Vld1AbsentBlockFaults := by
  intro i regs o rn s hi hdef hrn hfit halign
  rw [exec_of_vld1Parts hi]
  have hbase := vld1Base_of_defined hdef hrn hfit
  exact ⟨fun hwrap => vld1_of_loadBlock_error hbase halign (loadBlock_of_wrap hwrap),
    fun k hend hk habsent hlow => vld1_of_loadBlock_error hbase halign (loadBlock_of_absent hend hk habsent hlow)⟩

/-- Settles O34: little-endian elements of any size put each byte of the block in the same place. -/
theorem vld1SizeMattersOnlyBigEndian : Obligations.Vld1SizeMattersOnlyBigEndian := by
  intro i i' regs o k s hi hi' hend hstrict
  rw [exec_of_vld1Parts hi, exec_of_vld1Parts hi', vld1_littleEndian_congr regs o k hend hstrict]

/-- Settles O24: `vaddFault?` tests exactly the conditions of R112, and each test that fails is Undefined. -/
theorem vaddOtherwiseUndefined : Obligations.VaddOtherwiseUndefined :=
  fun _ _ s hi hdef => (exec_of_vaddParts hi s).trans (vadd_of_not_defined hdef)

/-- Settles O26: `vsubwFault?` tests exactly the conditions of R113, and each test that fails is Undefined. -/
theorem vsubwOtherwiseUndefined : Obligations.VsubwOtherwiseUndefined :=
  fun _ _ s hi hdef => (exec_of_vsubwParts hi s).trans (vsubw_of_not_defined hdef)

/-- Settles O28: `vmovnFault?` tests exactly the conditions of R114, and each test that fails is Undefined. -/
theorem vmovnOtherwiseUndefined : Obligations.VmovnOtherwiseUndefined :=
  fun _ _ s hi hdef => (exec_of_vmovnParts hi s).trans (vmovn_of_not_defined hdef)

/-- Settles O35: the enable is a condition of every mnemonic. -/
theorem disabledSimdIsUndefined : Obligations.DisabledSimdIsUndefined := by
  intro i s hoff
  have hnot : s.config.simdEnabled ≠ true := by simp [hoff]
  cases i with
  | vaddA32 o | vaddT32 o => exact vadd_of_not_defined (o := o) fun h => hnot h.1
  | vsubwA32 o | vsubwT32 o => exact vsubw_of_not_defined (o := o) fun h => hnot h.1
  | vmovnA32 o | vmovnT32 o => exact vmovn_of_not_defined (o := o) fun h => hnot h.1
  | vld1OneA32 o | vld1OneT32 o | vld1TwoA32 o | vld1TwoT32 o | vld1ThreeA32 o | vld1ThreeT32 o | vld1FourA32 o
  | vld1FourT32 o => exact exec_of_vld1Base_error rfl (vld1Base_of_not_defined fun h => hnot h.1)

/-- Settles O36: every mnemonic completes or ends in one of its faults. -/
theorem decodedInstructionsAreNeverRefused : Obligations.DecodedInstructionsAreNeverRefused := by
  have undefined {x : Host.Outcome State Fault Refusal} {Q : Fault → Prop} (h : CompletesOrFaults (· = .undefined) x) :
      (∃ t, x = .next t) ∨ ∃ f, x = .fault f ∧ (f = .undefined ∨ Q f) :=
    h.imp_right fun ⟨f, hx, hf⟩ => ⟨f, hx, .inl hf⟩
  intro i s
  cases i with
  | vaddA32 o | vaddT32 o => exact undefined (vadd_completesOrFaults o s)
  | vsubwA32 o | vsubwT32 o => exact undefined (vsubw_completesOrFaults o s)
  | vmovnA32 o | vmovnT32 o => exact undefined (vmovn_completesOrFaults o s)
  | vld1OneA32 o | vld1OneT32 o | vld1TwoA32 o | vld1TwoT32 o | vld1ThreeA32 o | vld1ThreeT32 o | vld1FourA32 o
  | vld1FourT32 o =>
    exact (vld1_completesOrFaults _ o s).imp_right fun ⟨f, hx, hf⟩ => ⟨f, hx, hf.imp_right fun h => ⟨_, o, rfl, h⟩⟩

end Sys2Proof.Machine
end

section
/-! PROOFS. Words of the two sets and the bytes of an instruction (spec 20 R32, 30 R40, R54). -/

namespace Sys2Proof.Machine

/-- The four bytes of a word, stored as its set stores them, are read as the word (20 R32). -/
theorem decodeBytes_bytesOfWord {iset : InstrSet} {w : Word} {i : Instr} (h : decode iset w = .ok i) (rest : List Byte) :
    decodeBytes iset (bytesOfWord iset w ++ rest) = .ok (i, rest) := by
  have hbytes : fieldAt w 24 8 ++ fieldAt w 16 8 ++ fieldAt w 8 8 ++ fieldAt w 0 8 = w :=
    calc fieldAt w 24 8 ++ fieldAt w 16 8 ++ fieldAt w 8 8 ++ fieldAt w 0 8
        = fieldAt w 0 32 := by simp (disch := decide) only [fieldAt_append_fieldAt]
      _ = w := BitVec.extractLsb'_eq_self
  cases iset with
  | a32 | t32 =>
    simp only [bytesOfWord, List.cons_append, List.nil_append, decodeBytes, wordOfBytes]
    rw [hbytes, h]

/-- No word is read by a row of each set. -/
theorem decode_t32_of_decode_a32 {w : Word} {i j : Instr} (h : decode .a32 w = .ok i) : decode .t32 w ≠ .ok j := by
  intro h'
  obtain ⟨r, hr, hbits, -⟩ := row_of_decode h
  obtain ⟨r', hr', hbits', -⟩ := row_of_decode h'
  rw [hasBits_disjoint hbits (rows_disjoint_across r hr r' hr')] at hbits'
  cases hbits'

/-- The T32 rows fix bits 31 to 29 and 27 to ones (44 R111: the top byte is `111U 1111` or `1111 1001`). -/
theorem rowsT32_topBits : ∀ r ∈ rowsT32, (fieldAt r.mask 29 3 = BitVec.allOnes 3 ∧ fieldAt r.bits 29 3 = 0b111#3) ∧
    fieldAt r.mask 27 1 = BitVec.allOnes 1 ∧ fieldAt r.bits 27 1 = 0b1#1 := by
  decide

/-- The five high bits of the first halfword (00 R7: a T32 word is `hw1:hw2`). -/
theorem extractLsb'_firstHalfword (w : Word) : (w.extractLsb' 16 16).extractLsb' 11 5 = fieldAt w 27 5 := by
  refine (fieldAt_eq fun i hi => ?_).symm
  have hplace : 11 + i < 16 := by omega
  simp [hi, hplace, ← Nat.add_assoc]

/-- The first halfword of a word starts a 32-bit instruction when these bits are set (30 R40). -/
theorem startsWideT32_of_topBits {w : Word} (hhigh : fieldAt w 29 3 = 0b111#3) (hlow : fieldAt w 27 1 = 0b1#1) :
    startsWideT32 (w.extractLsb' 16 16) = true := by
  have htop : (w.extractLsb' 16 16).extractLsb' 11 5 = 0b111#3 ++ fieldAt w 28 1 ++ 0b1#1 :=
    calc (w.extractLsb' 16 16).extractLsb' 11 5 = fieldAt w 27 5 := extractLsb'_firstHalfword w
      _ = fieldAt w 29 3 ++ fieldAt w 28 1 ++ fieldAt w 27 1 := by
        simp (disch := decide) only [fieldAt_append_fieldAt]
      _ = 0b111#3 ++ fieldAt w 28 1 ++ 0b1#1 := by rw [hhigh, hlow]
  rw [startsWideT32, htop]
  obtain hbit | hbit := BitVec.eq_zero_or_eq_one (fieldAt w 28 1) <;> rw [hbit] <;> rfl

/-- Settles O12: decoding the stored bytes is decoding the word. -/
theorem decodeBytesInvertsEncodeBytes : Obligations.DecodeBytesInvertsEncodeBytes :=
  fun i rest hwf => decodeBytes_bytesOfWord (decodeInvertsEncode i hwf) rest

/-- Settles O13: an A32 row and a T32 row differ in bits that both fix, and every T32 row fixes the bits that make its first
halfword one of a 32-bit instruction. -/
theorem noWordBelongsToBothSets : Obligations.NoWordBelongsToBothSets := by
  refine ⟨fun w i j h => decode_t32_of_decode_a32 h, fun w i h => ?_⟩
  obtain ⟨r, hr, hbits, -⟩ := row_of_decode h
  obtain ⟨⟨hmask, hhigh⟩, hmask', hlow⟩ := rowsT32_topBits r hr
  exact startsWideT32_of_topBits ((fieldAt_of_hasBits hbits hmask).trans hhigh)
    ((fieldAt_of_hasBits hbits hmask').trans hlow)

end Sys2Proof.Machine
end

section
/-! PROOFS. Runs (spec 60 R120, R125; 70 R132): a stop stays, the end of the program is where the pc stands after its last
word, and what is placed at the pc is fetched. -/

namespace Sys2Proof.Machine

variable {s : State}

/-! ## Stops -/

theorem runFor_succ (s : State) (n : Nat) : s.runFor (n + 1) = s.after.runFor n := rfl

/-- A state that a step leaves as it is stays so however long the run. -/
theorem runFor_of_after_eq (h : s.after = s) (n : Nat) : s.runFor n = s := by
  induction n with
  | zero => rfl
  | succ n ih => rw [runFor_succ, h, ih]

theorem after_of_next {t : State} (h : step s = .next t) : s.after = t := by
  rw [State.after, h]

theorem after_of_fault {f : Fault} (h : step s = .fault f) : s.after = s.recordFault f := by
  rw [State.after, h]

theorem after_of_programEnded (h : step s = .refused .programEnded) : s.after = s := by
  rw [State.after, h]

theorem after_of_refused {r : Refusal} (h : step s = .refused r) (hr : r ≠ .programEnded) :
    s.after = s.recordRefusal r := by
  unfold State.after
  rw [h]
  cases r with
  | programEnded => exact absurd rfl hr
  | notModelled | noInstructionDescription | fetchOutsideProgram => rfl

@[simp] theorem step_recordFault (s : State) (f : Fault) : step (s.recordFault f) = .fault f := rfl

theorem step_recordRefusal (h : s.faultRecord = none) (r : Refusal) : step (s.recordRefusal r) = .refused r := by
  simp only [step, recordRefusal_faultRecord, h, recordRefusal_refusalMark]

/-- A fault recorded a second time is the same record. -/
theorem after_recordFault (s : State) (f : Fault) : (s.recordFault f).after = s.recordFault f :=
  after_of_fault (step_recordFault s f)

theorem after_recordRefusal (h : s.faultRecord = none) {r : Refusal} (hr : r ≠ .programEnded) :
    (s.recordRefusal r).after = s.recordRefusal r :=
  after_of_refused (step_recordRefusal h r) hr

theorem runFor_of_fault {f : Fault} (h : step s = .fault f) (n : Nat) : s.runFor (n + 1) = s.recordFault f := by
  rw [runFor_succ, after_of_fault h, runFor_of_after_eq (after_recordFault s f)]

theorem runFor_of_refused (hfault : s.faultRecord = none) {r : Refusal} (h : step s = .refused r)
    (hr : r ≠ .programEnded) (n : Nat) : s.runFor (n + 1) = s.recordRefusal r := by
  rw [runFor_succ, after_of_refused h hr, runFor_of_after_eq (after_recordRefusal hfault hr)]

/-- With nothing recorded the step is what becomes of the fetched word. -/
theorem step_of_fetch_ok (hfault : s.faultRecord = none) (hmark : s.refusalMark = none) {w : Word}
    (hfetch : s.fetch = .ok w) : step s = runWord s w := by
  simp only [step, hfault, hmark, hfetch]

theorem step_of_fetch_error (hfault : s.faultRecord = none) (hmark : s.refusalMark = none) {r : Refusal}
    (hfetch : s.fetch = .error r) : step s = .refused r := by
  simp only [step, hfault, hmark, hfetch]

/-- A word that no row of the set reads is none of its instructions (30 R54). -/
theorem decode_of_no_row {iset : InstrSet} {w : Word} (h : ∀ r ∈ rowsOf iset, r.read w = none) :
    decode iset w = .error .noInstructionDescription := by
  rw [decode, List.findSome?_eq_none_iff.mpr h]

/-! ## The end of the program (70 R132) -/

theorem running_iff (s : State) : s.running = true ↔ s.faultRecord = none ∧ s.refusalMark = none := by
  simp [State.running]

/-- At the address right after the last word the fetch finds the end of the program. -/
theorem fetch_at_stop (hlength : 4 * s.text.words.length < 2 ^ 32) (hpc : s.pc = s.text.stop) :
    s.fetch = .error .programEnded := by
  have hoffset : (s.pc - s.text.base).toNat = 4 * s.text.words.length := by
    rw [hpc, ProgramText.stop, BitVec.add_comm, BitVec.add_sub_cancel, BitVec.toNat_ofNat, Nat.mod_eq_of_lt hlength]
  have hindex : s.text.index? s.pc = none := by simp [ProgramText.index?, hoffset]
  simp only [State.fetch, hindex]
  exact if_pos hpc

/-- A program has ended only where the pc stands right after its last word. -/
theorem pc_of_fetch_programEnded (h : s.fetch = .error .programEnded) : s.pc = s.text.stop := by
  unfold State.fetch at h
  split at h
  · split at h <;> cases h
  · split at h
    · assumption
    · cases h

/-- No instruction is refused (60 R125). -/
theorem exec_ne_refused (i : Instr) (s : State) (r : Refusal) : exec i s ≠ .refused r := by
  intro h
  obtain ⟨t, ht⟩ | ⟨f, hf, -⟩ := decodedInstructionsAreNeverRefused i s
  · cases ht.symm.trans h
  · cases hf.symm.trans h

/-- A step finds the end of the program in the fetch, and nowhere else. -/
theorem pc_of_step_programEnded (hrunning : s.running = true) (h : step s = .refused .programEnded) :
    s.pc = s.text.stop := by
  obtain ⟨hfault, hmark⟩ := (running_iff s).mp hrunning
  cases hfetch : s.fetch with
  | ok w =>
    rw [step_of_fetch_ok hfault hmark hfetch] at h
    unfold runWord at h
    split at h
    · exact absurd h (exec_ne_refused _ _ _)
    · cases h
  | error r =>
    rw [step_of_fetch_error hfault hmark hfetch] at h
    cases h
    exact pc_of_fetch_programEnded hfetch

/-- The run is over: at the end of the program, or with a stop recorded. -/
def HasEnded (s : State) : Prop :=
  s.isFinal = true ∨ s.faultRecord.isSome = true ∨ s.refusalMark.isSome = true

/-- A run with `k` words ahead of it has ended after `k` steps: each step that does not stop it goes on by one word. -/
theorem hasEnded_runFor (k : Nat) : ∀ s : State, s.inv = true → s.running = true →
    s.pc.toNat + 4 * k = s.text.base.toNat + 4 * s.text.words.length → HasEnded (s.runFor k) := by
  induction k with
  | zero =>
    intro s hinv hrunning hpc
    obtain ⟨hwf, -⟩ := (inv_iff s).mp hinv
    obtain ⟨-, hend⟩ := (text_wf_iff _).mp hwf
    have hstop : s.pc = s.text.stop := by
      apply BitVec.eq_of_toNat_eq
      rw [ProgramText.stop, BitVec.toNat_add, BitVec.toNat_ofNat]
      omega
    obtain ⟨hfault, hmark⟩ := (running_iff s).mp hrunning
    left
    simp [State.runFor, State.isFinal, hstop, hfault, hmark]
  | succ k ih =>
    intro s hinv hrunning hpc
    obtain ⟨hwf, -⟩ := (inv_iff s).mp hinv
    obtain ⟨-, hend⟩ := (text_wf_iff _).mp hwf
    obtain ⟨hfault, hmark⟩ := (running_iff s).mp hrunning
    cases h : step s with
    | next t =>
      obtain ⟨hinv', hpc'⟩ := step_keeps_inv hinv h
      obtain ⟨-, -, w, i, -, -, hexec⟩ := step_next h
      obtain ⟨-, -, -, htext, -, htfault, htmark⟩ := instructionsOnlyWriteRegisters i s t hexec
      rw [runFor_succ, after_of_next h]
      refine ih t hinv' ((running_iff t).mpr ⟨htfault.trans hfault, htmark.trans hmark⟩) ?_
      rw [htext, hpc']
      omega
    | fault f =>
      rw [runFor_of_fault h]
      exact .inr (.inl rfl)
    | refused r =>
      have hr : r ≠ .programEnded := by
        rintro rfl
        have hstop := congrArg BitVec.toNat (pc_of_step_programEnded hrunning h)
        rw [ProgramText.stop, BitVec.toNat_add, BitVec.toNat_ofNat] at hstop
        omega
      rw [runFor_of_refused hfault h hr]
      exact .inr (.inr rfl)

/-! ## A word placed at the pc (logs 5, 8) -/

theorem index?_eq_some {t : ProgramText} {a : Word} {j : Nat} (h : t.index? a = some j) : j < t.words.length := by
  unfold ProgramText.index? at h
  dsimp only at h
  split at h
  · next hplace =>
    cases h
    exact hplace.2
  · cases h

/-- Placing a word at an address makes it the word there. -/
theorem index?_place (t : ProgramText) (a w : Word) :
    ∃ j, (t.place a w).index? a = some j ∧ (t.place a w).words[j]? = some w := by
  unfold ProgramText.place
  cases h : t.index? a with
  | none => exact ⟨0, by simp [ProgramText.index?], rfl⟩
  | some j =>
    have hplace : ({ t with words := t.words.set j w } : ProgramText).index? a = t.index? a := by
      simp only [ProgramText.index?, List.length_set]
    exact ⟨j, hplace.trans h, by simp [index?_eq_some h]⟩

theorem fetch_launchWord (s : State) (w : Word) : (s.launchWord w).fetch = .ok w := by
  obtain ⟨j, hindex, hword⟩ := index?_place s.text s.pc w
  simp only [State.fetch, State.launchWord, hindex, hword]

/-- The set in which a word decodes is the one it is launched in. -/
theorem setForWord_of_decode (c : Config) {iset : InstrSet} {w : Word} {i : Instr} (h : decode iset w = .ok i) :
    setForWord c w = iset := by
  cases iset with
  | a32 => simp only [setForWord, tableSet?, h]
  | t32 =>
    cases ha : decode .a32 w with
    | ok j => exact absurd h (decode_t32_of_decode_a32 ha)
    | error e => simp only [setForWord, tableSet?, ha, h]

end Sys2Proof.Machine
end

section
/-! PROOFS. The obligations on reset, steps and runs (spec 60 R120, R125; 70 R130, R132). -/

namespace Sys2Proof.Machine

/-- Settles O1: each is a field of `State.reset`. -/
theorem resetLeavesDefaultsAndEmptyRecords : Obligations.ResetLeavesDefaultsAndEmptyRecords :=
  ⟨rfl, rfl, rfl, rfl, rfl, rfl, rfl, fun _ => rfl, rfl⟩

/-- Settles O2: the pc stands at the end of an empty text, memory lists nothing and the bank has every register. -/
theorem resetSatisfiesInvariant : Obligations.ResetSatisfiesInvariant := by
  refine (inv_iff _).mpr ⟨rfl, rfl, rfl, wf_reset, (absentCellsZero_iff _).mpr fun d hd => ?_⟩
  exact absurd hd (Nat.not_le.mpr d.isLt)

/-- Settles O5: the decoder is asked before any instruction, and so before the enable, and a mark is kept like a fault. -/
theorem unmatchedWordIsRefused : Obligations.UnmatchedWordIsRefused := by
  intro s w hfault hmark hfetch hrows
  have hstep : step s = .refused .noInstructionDescription := by
    rw [step_of_fetch_ok hfault hmark hfetch, runWord, decode_of_no_row hrows]
  exact ⟨hstep, runFor_of_refused hfault hstep nofun⟩

/-- Settles O6: the fetch finds no word, and the step that finds no word leaves the state as it is. -/
theorem runEndsRightAfterTheProgram : Obligations.RunEndsRightAfterTheProgram := by
  intro s hfault hmark hlength hpc
  have hstep : step s = .refused .programEnded := step_of_fetch_error hfault hmark (fetch_at_stop hlength hpc)
  refine ⟨hstep, ?_, runFor_of_after_eq (after_of_programEnded hstep)⟩
  simp [State.isFinal, hfault, hmark, hpc, ProgramText.stop]

/-- Settles O7: the record is what every later step answers. -/
theorem faultIsRecordedAndEndsTheRun : Obligations.FaultIsRecordedAndEndsTheRun := by
  intro s f h n
  rw [runFor_of_fault h]
  exact ⟨rfl, step_recordFault s f⟩

/-- Settles O8: at the base all words of the program are ahead. -/
theorem everyRunEndsWithinItsLength : Obligations.EveryRunEndsWithinItsLength :=
  fun s hinv hrunning hpc => hasEnded_runFor _ s hinv hrunning (by rw [hpc])

/-- Settles O9: the word is placed where the next step fetches, in the set whose row reads it. -/
theorem storedTableWordRuns : Obligations.StoredTableWordRuns := by
  intro s nbits w iset i h
  refine ⟨?_, rfl, rfl, rfl, rfl⟩
  have hset : (s.withFetchWord nbits w).config.instrSet = iset := setForWord_of_decode s.config h
  have hfetch : (s.withFetchWord nbits w).fetch = .ok (tableWord nbits w) := fetch_launchWord s _
  rw [step_of_fetch_ok rfl rfl hfetch, runWord, hset, h]

end Sys2Proof.Machine
end

section
/-! PROOFS. The launch discipline (spec 10 R24, 60 R120, R124 to R126; 92 D9, D11, D19): which register is named, where a
launch step goes another way than a step, and that a stop stays. -/

namespace Sys2Proof.Machine

variable {l : Launched}

/-! ## The first register without a value (60 R126, log 11) -/

/-- The first number that passes a test is the one found. -/
theorem find?_finRange {n : Nat} {p : Fin n → Bool} {i : Fin n} (hi : p i = true) (hlow : ∀ j, j < i → p j = false) :
    (List.finRange n).find? p = some i := by
  rw [List.find?_eq_some_iff_getElem]
  refine ⟨hi, i.val, by simp, by simp, fun j hj => ?_⟩
  simpa using hlow ⟨j, by omega⟩ hj

/-- Of the general-purpose registers that are read and have no value the lowest is named. -/
theorem unwritten?_of_firstR {f : Footprint} {r : Fin 15} (hr : r ∈ f.readsR) (hv : l.hasR r = false)
    (hlow : ∀ q, q < r → q ∈ f.readsR → l.hasR q = true) : l.unwritten? f = some (.r r) := by
  have hfind := find?_finRange (p := fun i => f.readsR.contains i && !l.hasR i) (i := r) (by simp [hr, hv])
    (by simpa using hlow)
  simp only [Launched.unwritten?, hfind]

/-- When the general-purpose registers have values, the lowest doubleword register that lacks one is named. -/
theorem unwritten?_of_firstD {f : Footprint} {d : DNum} (hregs : ∀ r ∈ f.readsR, l.hasR r = true) (hd : d ∈ f.readsD)
    (hv : l.hasD d = false) (hlow : ∀ e, e < d → e ∈ f.readsD → l.hasD e = true) : l.unwritten? f = some (.d d) := by
  have hnone : (List.finRange 15).find? (fun i => f.readsR.contains i && !l.hasR i) = none := by simpa using hregs
  have hfind := find?_finRange (p := fun i => f.readsD.contains i && !l.hasD i) (i := d) (by simp [hd, hv])
    (by simpa using hlow)
  simp only [Launched.unwritten?, hnone, hfind, Option.map_some]

theorem launchExec_of_unwritten {i : Instr} {x : RegName} (hfault : decodeFault? l.machine.config i = none)
    (h : l.unwritten? (footprint i) = some x) : launchExec i l = .fault (.unwrittenRead x) := by
  simp only [launchExec, hfault, h]

/-! ## The discipline in the words of the statements -/

theorem mem_partsOfD_iff (d : DNum) (p : RegPart) : p ∈ partsOfD d ↔ PartOf d p := by
  cases p with
  | gpr r => exact iff_of_false (gpr_not_mem_partsOfD d r) not_false
  | single j => exact single_mem_partsOfD d j
  | upper k => exact upper_mem_partsOfD d k

theorem hasD_eq_false_iff (l : Launched) (d : DNum) : l.hasD d = false ↔ ∃ p, PartOf d p ∧ p ∉ l.valued := by
  rw [← Bool.not_eq_true, hasD_iff]
  simp only [mem_partsOfD_iff, not_forall, exists_prop]

theorem hasR_eq_false_iff (l : Launched) (r : Fin 15) : l.hasR r = false ↔ RegPart.gpr r ∉ l.valued := by
  rw [← Bool.not_eq_true, hasR_iff]

/-- The register named is read and lacks a value. -/
theorem readsUnvalued_of_unwritten? {i : Instr} (hfault : decodeFault? l.machine.config i = none) {x : RegName}
    (h : l.unwritten? (footprint i) = some x) : ReadsUnvalued l i x := by
  obtain ⟨hreadsR, hreadsD, -⟩ := footprintsAreTheOperands _ i hfault
  cases x with
  | r r =>
    obtain ⟨hr, hv⟩ := unwritten?_eq_some h
    exact ⟨(hreadsR r).mp hr, (hasR_eq_false_iff l r).mp hv⟩
  | d d =>
    obtain ⟨hd, hv⟩ := unwritten?_eq_some h
    exact ⟨(hreadsD d).mp hd, (hasD_eq_false_iff l d).mp hv⟩

/-- No register is named exactly when none that is read lacks a value. -/
theorem unwritten?_eq_none_iff_readsUnvalued {i : Instr} (hfault : decodeFault? l.machine.config i = none) :
    l.unwritten? (footprint i) = none ↔ ∀ x, ¬ ReadsUnvalued l i x := by
  constructor
  · rintro h (r | d) ⟨hread, hv⟩
    all_goals
      obtain ⟨hreadsR, hreadsD, -⟩ := footprintsAreTheOperands _ i hfault
      obtain ⟨hR, hD⟩ := (unwritten?_eq_none_iff l _).mp h
    · rw [← hasR_eq_false_iff, hR r ((hreadsR r).mpr hread)] at hv
      cases hv
    · rw [← hasD_eq_false_iff, hD d ((hreadsD d).mpr hread)] at hv
      cases hv
  · intro h
    by_contra hsome
    obtain ⟨x, hx⟩ := Option.ne_none_iff_exists'.mp hsome
    exact h x (readsUnvalued_of_unwritten? hfault hx)

theorem decodeFault?_of_reachesReads {i : Instr} (h : ReachesReads l i) :
    decodeFault? l.machine.config i = none := by
  obtain ⟨-, -, hfault, -⟩ := h
  exact hfault

theorem launchStep_of_reachesReads {i : Instr} (h : ReachesReads l i) : launchStep l = launchExec i l := by
  obtain ⟨hfault, hmark, -, w, hfetch, hdecode⟩ := h
  exact launchStep_of_decode hfault hmark hfetch hdecode

theorem step_of_reachesReads {i : Instr} (h : ReachesReads l i) : step l.machine = exec i l.machine := by
  obtain ⟨hfault, hmark, -, w, hfetch, hdecode⟩ := h
  rw [step_of_fetch_ok hfault hmark hfetch, runWord, hdecode]

/-- A launch step reaches the reading of registers, or ends before it as the step does. -/
theorem launchStep_cases (l : Launched) :
    (∃ i, ReachesReads l i) ∨ (∃ f, step l.machine = .fault f ∧ launchStep l = .fault f) ∨
      ∃ r, step l.machine = .refused r ∧ launchStep l = .refused r := by
  cases hfault : l.machine.faultRecord with
  | some f => exact .inr (.inl ⟨f, by simp only [step, hfault], by simp only [launchStep, hfault]⟩)
  | none =>
    cases hmark : l.machine.refusalMark with
    | some r =>
      exact .inr (.inr ⟨r, by simp only [step, hfault, hmark], by simp only [launchStep, hfault, hmark]⟩)
    | none =>
      cases hfetch : l.machine.fetch with
      | error r =>
        exact .inr (.inr ⟨r, step_of_fetch_error hfault hmark hfetch, by simp only [launchStep, hfault, hmark, hfetch]⟩)
      | ok w =>
        have hstep := step_of_fetch_ok hfault hmark hfetch
        cases hdecode : decode l.machine.config.instrSet w with
        | error e =>
          exact .inr (.inr ⟨_, by rw [hstep, runWord, hdecode],
            by simp only [launchStep, hfault, hmark, hfetch, hdecode]⟩)
        | ok i =>
          cases hundefined : decodeFault? l.machine.config i with
          | none => exact .inl ⟨i, hfault, hmark, hundefined, w, hfetch, hdecode⟩
          | some f =>
            refine .inr (.inl ⟨f, by rw [hstep, runWord, hdecode]; exact exec_of_decodeFault hundefined, ?_⟩)
            simp only [launchStep_of_decode hfault hmark hfetch hdecode, launchExec, hundefined]

/-- Once every register that is read has a value, an instruction ends under the launch discipline as it does without. -/
theorem launchExec_of_valued {i : Instr} (hfault : decodeFault? l.machine.config i = none)
    (h : l.unwritten? (footprint i) = none) :
    (∀ f, exec i l.machine = .fault f → launchExec i l = .fault f) ∧
    ∀ t, exec i l.machine = .next t → launchExec i l = .next (l.afterWrites (footprint i) t) := by
  constructor
  · intro f hf
    simp only [launchExec, hfault, h, hf]
  · intro t ht
    simp only [launchExec, hfault, h, ht]

/-! ## Stops -/

theorem launchedRunFor_succ (l : Launched) (n : Nat) : l.runFor (n + 1) = l.after.runFor n := rfl

/-- A launched state that a step leaves as it is stays so however long the run. -/
theorem launchedRunFor_of_after_eq (h : l.after = l) (n : Nat) : l.runFor n = l := by
  induction n with
  | zero => rfl
  | succ n ih => rw [launchedRunFor_succ, h, ih]

theorem launchedAfter_of_fault {f : Fault} (h : launchStep l = .fault f) : l.after = l.recordFault f := by
  rw [Launched.after, h]

theorem launchedAfter_of_programEnded (h : launchStep l = .refused .programEnded) : l.after = l := by
  rw [Launched.after, h]

theorem launchedAfter_of_refused {r : Refusal} (h : launchStep l = .refused r) (hr : r ≠ .programEnded) :
    l.after = l.recordRefusal r := by
  unfold Launched.after
  rw [h]
  cases r with
  | programEnded => exact absurd rfl hr
  | notModelled | noInstructionDescription | fetchOutsideProgram => rfl

theorem faultRecord_of_launchStep_refused {r : Refusal} (h : launchStep l = .refused r) :
    l.machine.faultRecord = none := by
  cases hfault : l.machine.faultRecord with
  | none => rfl
  | some f => simp only [launchStep, hfault, reduceCtorEq] at h

theorem launchStep_recordRefusal (h : l.machine.faultRecord = none) (r : Refusal) :
    launchStep (l.recordRefusal r) = .refused r := by
  simp only [launchStep, Launched.recordRefusal, recordRefusal_faultRecord, h, recordRefusal_refusalMark]

end Sys2Proof.Machine
end

section
/-! PROOFS. The obligations on the launch discipline (spec 10 R24; 60 R120, R124 to R126; 92 D9, D11, D19). -/

namespace Sys2Proof.Machine

/-- Settles O42: the registers are looked through in the order of R126, after the decode fault and before the meaning. -/
theorem unwrittenReadNamesTheFirstRegister : Obligations.UnwrittenReadNamesTheFirstRegister :=
  fun _ _ hfault => ⟨fun _ hr hv hlow => launchExec_of_unwritten hfault (unwritten?_of_firstR hr hv hlow),
    fun hregs _ hd hv hlow => launchExec_of_unwritten hfault (unwritten?_of_firstD hregs hd hv hlow)⟩

/-- Settles O43: a launch step differs from the step in the test for registers without a value alone, which stands between
the decode fault and the meaning. -/
theorem launchStepFollowsTheStep : Obligations.LaunchStepFollowsTheStep := by
  refine fun l => ⟨fun i hreach hunvalued => ?_, fun hvalued => ?_⟩
  · have hfault := decodeFault?_of_reachesReads hreach
    have hsome : l.unwritten? (footprint i) ≠ none := by
      rw [ne_eq, unwritten?_eq_none_iff_readsUnvalued hfault]
      exact fun hnone => hunvalued.elim hnone
    obtain ⟨x, hx⟩ := Option.ne_none_iff_exists'.mp hsome
    refine ⟨x, readsUnvalued_of_unwritten? hfault hx, ?_⟩
    rw [launchStep_of_reachesReads hreach, launchExec_of_unwritten hfault hx]
  · obtain ⟨i, hreach⟩ | ⟨f, hstep, hlaunch⟩ | ⟨r, hstep, hlaunch⟩ := launchStep_cases l
    · have hfault := decodeFault?_of_reachesReads hreach
      obtain ⟨hfaults, hnexts⟩ := launchExec_of_valued hfault
        ((unwritten?_eq_none_iff_readsUnvalued hfault).mpr (hvalued i hreach))
      obtain ⟨-, -, hwrites⟩ := footprintsAreTheOperands _ i hfault
      rw [step_of_reachesReads hreach, launchStep_of_reachesReads hreach]
      refine ⟨hfaults, fun r hr => absurd hr (exec_ne_refused i _ r), fun t ht =>
        ⟨i, _, hreach, hnexts t ht, rfl, fun p => ?_⟩⟩
      simp only [mem_valued_afterWrites, hwrites, mem_partsOfD_iff]
    · rw [hstep, hlaunch]
      exact ⟨by rintro _ ⟨⟩; rfl, by rintro _ ⟨⟩, by rintro _ ⟨⟩⟩
    · rw [hstep, hlaunch]
      exact ⟨by rintro _ ⟨⟩, by rintro _ ⟨⟩; rfl, by rintro _ ⟨⟩⟩

/-- Settles O56: the record or the mark is what every later launch step answers, and the end of the program leaves the state
as it is. -/
theorem launchStopIsRecordedAndEndsTheRun : Obligations.LaunchStopIsRecordedAndEndsTheRun := by
  refine ⟨fun l f h n => ?_, fun l r h hr n => ?_, fun l h => launchedRunFor_of_after_eq (launchedAfter_of_programEnded h)⟩
  · rw [launchedRunFor_succ, launchedAfter_of_fault h, runFor_recordFault]
    exact ⟨rfl, launchStep_recordFault l f⟩
  · have hagain := launchStep_recordRefusal (faultRecord_of_launchStep_refused h) r
    rw [launchedRunFor_succ, launchedAfter_of_refused h hr,
      launchedRunFor_of_after_eq (launchedAfter_of_refused hagain hr)]
    exact ⟨rfl, hagain⟩

end Sys2Proof.Machine
end

section
/-! PROOFS. The line of an admitted instruction, assembled and read (spec 92 D16; 40 R60 to R64, 42 R81, 43 R91 to R101). -/

namespace Sys2Proof.Machine

variable {c : Config}

/-! ## Operands that are assembled back -/

/-- A doubleword register of the bank is read back from its text (43 R91). -/
theorem fieldNumber?_dText {i : DNum} (h : inBank c i 1 = true) : fieldNumber? c (dText i) = some i := by
  rw [inBank_iff] at h
  exact (dif_pos i.isLt).trans (if_pos h)

/-- A quadword register of the bank is read back from its text (43 R91, 30 R46). -/
theorem fieldNumber?_qText {i : DNum} (heven : oddField i = false) (h : inBank c i 2 = true) :
    fieldNumber? c (qText i) = some i := by
  have hfirst : 2 * (qOf i).val = i.val := congrArg Fin.val (qFirst_qOf heven)
  rw [inBank_iff] at h
  simp only [fieldNumber?, qText, dif_pos (qOf i).isLt, hfirst, if_pos (show i.val < c.numDregs by omega)]

/-- An alignment that the list permits is read back from its text (41 R76). -/
theorem alignOfText_alignText {regs : Nat} {a : AlignSpec} (h : alignPermitted regs a = true) :
    alignOfText regs (alignText a) = .ok a := by
  cases a with
  | unspecified => rfl
  | a64 | a128 | a256 => simp only [alignOfText, alignText, alignOfBits?, h, if_true]

theorem number_gprText (n : Fin 16) : (gprText n).number = n.val := by
  unfold gprText
  split
  · next h => rw [h]; rfl
  · rfl

/-- A base register is read back from its text (41 R71). -/
theorem baseOfText_gprText {rn : Fin 16} (h : rn.val < 15) : baseOfText (gprText rn) = .ok rn := by
  simp only [baseOfText, number_gprText, dif_pos rn.isLt, if_neg (show ¬ rn.val = 15 by omega)]

/-- A well-formed format is read back from its text (41 R71 to R73). -/
theorem formatOfText_postText (regs : Nat) {f : AddrFormat} (h : f.wellFormed = true) :
    formatOfText regs (postText f) = .ok f := by
  cases f with
  | noWriteback | byTransferSize => rfl
  | byRegister rm =>
    have h13 : rm.val ≠ 13 := fun h13 => of_decide_eq_true h (Fin.ext h13)
    have hindex : ¬ (rm.val = 13 ∨ rm.val = 15) := by omega
    simp only [formatOfText, postText, number_gprText, if_neg hindex, dif_pos rm.isLt]

/-- The doubleword names of consecutive registers of the bank are read back (43 R95, R101). -/
theorem listForVld1_doublewords {d regs : Nat} (hpos : 0 < regs) (hfits : listFits c d regs 1 = true) :
    listForVld1 c ⟨true, (listNumbers d regs 1).map fun n => .one ⟨.d, n⟩ .whole⟩ = .ok (listNumbers d regs 1) := by
  obtain ⟨k, rfl⟩ : ∃ k, regs = k + 1 := ⟨regs - 1, by omega⟩
  have hwritten := writtenRegisters_enumeration .d (show d ≤ d + k by omega)
  rw [enumeration, show d + k + 1 - d = k + 1 by omega] at hwritten
  have hnumbers : listNumbers d (k + 1) 1 = d :: List.range' (d + 1) k := by
    rw [listNumbers_one_eq_range', List.range'_succ]
  rw [listForVld1_of_writtenRegisters c hwritten]
  simp only [listDoublewords, hwritten, doublewordsOf, Bool.not_true, Bool.false_and]
  rw [hnumbers]
  simp [← hnumbers, hfits]

/-! ## Lines that are assembled back -/

section
variable {dt : DataType} (q : Bool)

/-- A line without suffix, condition or width, whose type its mnemonic takes, is assembled from its operands. -/
theorem assemble_plainLine_vadd (h : Mnemonic.vadd.takes dt = true) (rs : List VecReg) :
    assemble c q (plainLine .vadd dt (.vectors rs)) = asmVadd c dt rs := by
  simp [assemble, plainLine, checkCondition, checkQSuffix, governingType_singleton (spec := .typed dt) h, DtSpec.expand]

theorem assemble_plainLine_vsubw (h : Mnemonic.vsubw.takes dt = true) (rs : List VecReg) :
    assemble c q (plainLine .vsubw dt (.vectors rs)) = asmVsubw c dt rs := by
  simp [assemble, plainLine, checkCondition, checkQSuffix, governingType_singleton (spec := .typed dt) h, DtSpec.expand]

theorem assemble_plainLine_vmovn (h : Mnemonic.vmovn.takes dt = true) (rs : List VecReg) :
    assemble c q (plainLine .vmovn dt (.vectors rs)) = asmVmovn c dt rs := by
  simp [assemble, plainLine, checkCondition, checkQSuffix, governingType_singleton (spec := .typed dt) h, DtSpec.expand]

theorem assemble_plainLine_vld1 (h : Mnemonic.vld1.takes dt = true) (list : RegList) (a : AddressText) :
    assemble c q (plainLine .vld1 dt (.load list a)) = asmVld1 c dt list a := by
  simp [assemble, plainLine, checkCondition, checkQSuffix, governingType_singleton (spec := .typed dt) h, DtSpec.expand]

end

variable (q : Bool)

/-- A VADD line whose registers are all of one letter and exist gives the instruction of their numbers (40 R69). -/
theorem asmVadd_of_fieldNumbers {size : ElemSize} {letter : Option TypeLetter} {rd rn rm : VecReg} {d n m : DNum}
    (hn : rd.kind = rn.kind) (hm : rn.kind = rm.kind) (hs : rd.kind ≠ .s) (hd : fieldNumber? c rd = some d)
    (hn' : fieldNumber? c rn = some n) (hm' : fieldNumber? c rm = some m) :
    asmVadd c ⟨letter, size⟩ [rd, rn, rm] = .ok (vaddIn c.instrSet ⟨size, rd.kind = .q, d, n, m⟩) := by
  have hshape : ¬ (rd.kind ≠ rn.kind ∨ rn.kind ≠ rm.kind ∨ rd.kind = .s) := by
    rintro (h | h | h)
    · exact h hn
    · exact h hm
    · exact hs h
  simp only [asmVadd, threeRegisters, if_neg hshape, hd, hn', hm']

theorem assemble_vaddLine {o : VaddOperands} (h : vaddFault? (enabledConfig c) o = none) :
    assemble c q (vaddLine o) = .ok (vaddIn c.instrSet o) := by
  obtain ⟨-, heven, hd, hn, hm⟩ := (vaddFault?_none_iff _ _).mp h
  have htakes : Mnemonic.vadd.takes ⟨some .i, o.size⟩ = true := by simp [takes_iff_takenType, TakenType, IntegerType]
  rw [vaddLine, assemble_plainLine_vadd q htakes]
  obtain ⟨size, quad, d, n, m⟩ := o
  cases quad with
  | false =>
    exact asmVadd_of_fieldNumbers rfl rfl nofun (fieldNumber?_dText hd) (fieldNumber?_dText hn) (fieldNumber?_dText hm)
  | true =>
    obtain ⟨hd', hn', hm'⟩ := heven rfl
    exact asmVadd_of_fieldNumbers rfl rfl nofun (fieldNumber?_qText hd' hd) (fieldNumber?_qText hn' hn)
      (fieldNumber?_qText hm' hm)

theorem assemble_vsubwLine {o : VsubwOperands} (hwf : o.wellFormed = true)
    (h : vsubwFault? (enabledConfig c) o = none) : assemble c q (vsubwLine o) = .ok (vsubwIn c.instrSet o) := by
  obtain ⟨-, hd, hn, hd2, hn2, hm⟩ := (vsubwFault?_none_iff _ _).mp h
  rw [qFirst_qOf hd, inBank_enabledConfig] at hd2
  rw [qFirst_qOf hn, inBank_enabledConfig] at hn2
  have hsize : o.size ≠ .e64 := of_decide_eq_true hwf
  have htakes : Mnemonic.vsubw.takes ⟨some (if o.isUnsigned then .u else .s), o.size⟩ = true := by
    have hbits : o.size.bits ≤ 32 := by
      revert hsize
      cases o.size <;> decide
    cases hu : o.isUnsigned <;> simp [takes_iff_takenType, TakenType, hbits]
  have hletter : decide (some (if o.isUnsigned then TypeLetter.u else .s) = some .u) = o.isUnsigned := by
    cases o.isUnsigned <;> rfl
  rw [vsubwLine, assemble_plainLine_vsubw q htakes]
  simp only [asmVsubw, threeRegisters, fieldNumber?_qText hd hd2, fieldNumber?_qText hn hn2,
    fieldNumber?_dText (c := c) hm, hletter]
  exact if_neg (by simp [qText, dText])

theorem assemble_vmovnLine {o : VmovnOperands} {l : AsmLine} (h : vmovnFault? (enabledConfig c) o = none)
    (hl : vmovnLine o = some l) : assemble c q l = .ok (vmovnIn c.instrSet o) := by
  obtain ⟨-, -, hm, hd, hm2⟩ := (vmovnFault?_none_iff _ _).mp h
  rw [qFirst_qOf hm, inBank_enabledConfig] at hm2
  obtain ⟨k, hk, rfl⟩ := Option.map_eq_some_iff.mp hl
  have hbits := (doubleSize?_eq_some_iff _ _).mp hk
  have htakes : Mnemonic.vmovn.takes ⟨some .i, k⟩ = true := by
    have hpos : 8 ≤ o.size.bits := by cases o.size <;> decide
    simp [takes_iff_takenType, TakenType, IntegerType]
    omega
  rw [assemble_plainLine_vmovn q htakes]
  simp only [asmVmovn, (halfSize?_eq_some_iff k o.size).mpr hbits.symm, fieldNumber?_qText hm hm2,
    fieldNumber?_dText (c := c) hd]
  exact if_neg (by simp [qText, dText])

theorem assemble_vld1Line {i : Instr} {regs : Nat} {o : Vld1Operands} (hi : vld1In? c.instrSet regs o = some i)
    (hpos : 0 < regs) (hwf : o.format.wellFormed = true) (h : vld1Fault? (enabledConfig c) regs o = none) :
    assemble c q (vld1Line regs o) = .ok i := by
  unfold vld1Fault? at h
  split at h
  · next rn hbase =>
    obtain ⟨-, halign, -, hrn, hlist⟩ := (vld1Base_ok_iff _ _ _ _).mp hbase
    rw [listFits_enabledConfig] at hlist
    have hrn15 : o.rn.val < 15 := by
      rw [gprOf?_eq_some_iff.mp hrn]
      exact rn.isLt
    have htakes : Mnemonic.vld1.takes ⟨none, o.size⟩ = true := by simp [takes_iff_takenType, TakenType]
    have hlength : (listNumbers o.d.val regs 1).length = regs := by simp [listNumbers]
    have hfirst : Fin.ofNat 32 ((listNumbers o.d.val regs 1).headD 0) = o.d := by
      rw [listNumbers_one_eq_range', ← Nat.succ_pred_eq_of_pos hpos, List.range'_succ]
      exact Fin.ofNat_val_eq_self _
    rw [vld1Line, assemble_plainLine_vld1 q htakes]
    simp only [asmVld1, listForVld1_doublewords hpos hlist, hlength, alignOfText_alignText halign,
      baseOfText_gprText hrn15, formatOfText_postText regs hwf, hfirst, hi]
  · cases h

end Sys2Proof.Machine
end

section
/-! PROOFS. The characters of an admitted instruction's line, read back (spec 92 D16; 40 R60, 42 R81, 43 R91 to R101). -/

namespace Sys2Proof.Machine

/-! ## The mnemonic part -/

theorem splitStops_ne_nil (cs : List Char) : splitStops cs ≠ [] := by
  cases cs with
  | nil => nofun
  | cons c cs =>
    unfold splitStops
    split
    · split <;> nofun
    · nofun

/-- The text before the first full stop is the first piece. -/
theorem splitStops_append {a : List Char} (ha : '.' ∉ a) (b : List Char) :
    splitStops (a ++ '.' :: b) = a :: splitStops b := by
  induction a with
  | nil =>
    obtain ⟨piece, pieces, hb⟩ := List.exists_cons_of_ne_nil (splitStops_ne_nil b)
    simp [splitStops, hb]
  | cons c a ih =>
    obtain ⟨hc, ha⟩ := not_or.mp (mt List.mem_cons.mpr ha)
    rw [List.cons_append, splitStops, ih ha]
    exact if_neg (Ne.symm hc)

/-- Text without a full stop is one piece. -/
theorem splitStops_of_no_stop {a : List Char} (ha : '.' ∉ a) : splitStops a = [a] := by
  induction a with
  | nil => rfl
  | cons c a ih =>
    obtain ⟨hc, ha⟩ := not_or.mp (mt List.mem_cons.mpr ha)
    rw [splitStops, ih ha]
    exact if_neg (Ne.symm hc)

/-- The characters of a mnemonic and of a data type are capitals and digits, and are read back. -/
theorem readName_textOf (m : Mnemonic) : readName (textOf mnemonicTexts m) = some (m, false, none) ∧
    (textOf mnemonicTexts m).map upcase = textOf mnemonicTexts m ∧ '.' ∉ textOf mnemonicTexts m ∧
    (textOf mnemonicTexts m).all (· ≠ ' ') = true := by
  cases m <;> decide

/-- The characters of a data type after its full stop. -/
def dtText (t : DataType) : List Char := (printDt (.typed t)).tail

theorem printDt_typed (t : DataType) : printDt (.typed t) = '.' :: dtText t := rfl

theorem readDt_dtText (t : DataType) : readDt (dtText t) = some (.typed t) ∧ (dtText t).map upcase = dtText t ∧
    '.' ∉ dtText t ∧ (dtText t).all (· ≠ ' ') = true ∧ dtText t ≠ ['W'] ∧ dtText t ≠ ['N'] := by
  obtain ⟨letter, size⟩ := t
  rcases letter with _ | (_ | _ | _ | _ | _) <;> cases size <;> decide

/-- One data type is what its piece is read as. -/
theorem readPieces_dtText (t : DataType) : readPieces [dtText t] = some (none, [.typed t]) := by
  obtain ⟨hread, -, -, -, hw, hn⟩ := readDt_dtText t
  unfold readPieces
  split
  · next h => exact absurd (List.cons.inj h).1 hw
  · next h => exact absurd (List.cons.inj h).1 hn
  · simp [hread]

/-- A canonical line whose operands are read back is read back. -/
theorem readLine_plainLine {m : Mnemonic} {dt : DataType} {ops : OperandText} {ts : List Token}
    (htokens : readTokens [] (printOperands ops) = some ts) (hops : readOperands ts = some ops) :
    readLine (printLine (plainLine m dt ops)) = .ok (plainLine m dt ops) := by
  obtain ⟨hname, hupName, hstopName, hblankName⟩ := readName_textOf m
  obtain ⟨-, hupDt, hstopDt, hblankDt, -, -⟩ := readDt_dtText dt
  have hprint : printLine (plainLine m dt ops) =
      (textOf mnemonicTexts m ++ '.' :: dtText dt) ++ ' ' :: printOperands ops := by
    simp [printLine, plainLine, printDt_typed]
  have hpieces : splitStops ((textOf mnemonicTexts m ++ '.' :: dtText dt).map upcase) =
      [textOf mnemonicTexts m, dtText dt] := by
    have hup : (textOf mnemonicTexts m ++ '.' :: dtText dt).map upcase = textOf mnemonicTexts m ++ '.' :: dtText dt := by
      rw [List.map_append, List.map_cons, hupName, hupDt]
      rfl
    rw [hup, splitStops_append hstopName, splitStops_of_no_stop hstopDt]
  rw [hprint]
  refine readLine_of_parts ?_ ?_ ?_ htokens hops
  · rw [List.all_append, List.all_cons, hblankName, hblankDt]
    rfl
  · rw [hpieces]
    exact hname
  · rw [hpieces]
    exact readPieces_dtText dt

/-! ## Lines -/

theorem readLine_vectors {m : Mnemonic} {dt : DataType} {rs : List VecReg} (hne : rs ≠ [])
    (hrs : ∀ r ∈ rs, r.num < 1000) :
    readLine (printLine (plainLine m dt (.vectors rs))) = .ok (plainLine m dt (.vectors rs)) := by
  obtain ⟨ts, htokens, hops⟩ := readOperands_of_print_vectors hne hrs
  exact readLine_plainLine htokens hops

theorem dText_num_lt (i : DNum) : (dText i).num < 1000 := by
  have hi := i.isLt
  simp only [dText]
  omega

theorem qText_num_lt (i : DNum) : (qText i).num < 1000 := by
  have hi := (qOf i).isLt
  simp only [qText]
  omega

theorem readLine_vaddLine (o : VaddOperands) : readLine (printLine (vaddLine o)) = .ok (vaddLine o) := by
  unfold vaddLine
  cases o.quad
  · exact readLine_vectors nofun (by simp [dText_num_lt])
  · exact readLine_vectors nofun (by simp [qText_num_lt])

theorem readLine_vsubwLine (o : VsubwOperands) : readLine (printLine (vsubwLine o)) = .ok (vsubwLine o) :=
  readLine_vectors nofun (by simp [dText_num_lt, qText_num_lt])

theorem readLine_vmovnLine {o : VmovnOperands} {l : AsmLine} (h : vmovnLine o = some l) :
    readLine (printLine l) = .ok l := by
  obtain ⟨k, -, rfl⟩ := Option.map_eq_some_iff.mp h
  exact readLine_vectors nofun (by simp [dText_num_lt, qText_num_lt])

/-- The numbers of an address that is printed are below a thousand. -/
theorem printable_vld1Address (rn : Fin 16) (a : AlignSpec) (f : AddrFormat) :
    AddressText.Printable ⟨gprText rn, alignText a, postText f⟩ := by
  refine ⟨?_, fun p hp => ?_, fun n hn => absurd hn (postText_ne_imm f n), fun g hg => ?_⟩
  · have hrn := rn.isLt
    simp only [number_gprText]
    omega
  · cases a <;> cases hp <;> decide
  · cases f with
    | noWriteback | byTransferSize => cases hg
    | byRegister rm =>
      cases hg
      have hrm := rm.isLt
      simp only [number_gprText]
      omega

theorem readLine_vld1Line {regs : Nat} (hregs : 0 < regs ∧ regs ≤ 4) (o : Vld1Operands) :
    readLine (printLine (vld1Line regs o)) = .ok (vld1Line regs o) := by
  obtain ⟨hpos, hfour⟩ := hregs
  have hd := o.d.isLt
  have hitems : (listNumbers o.d.val regs 1).map (fun n => ListItem.one ⟨.d, n⟩ .whole) =
      ((listNumbers o.d.val regs 1).map (VecReg.mk .d)).map fun r => .one r .whole := by
    rw [List.map_map]
    rfl
  rw [vld1Line, hitems]
  obtain ⟨ts, htokens, hops⟩ := readOperands_of_print_load (rs := (listNumbers o.d.val regs 1).map (VecReg.mk .d))
    (by simp [listNumbers]; omega) (by simp [listNumbers]; omega) (printable_vld1Address o.rn o.align o.format)
  exact readLine_plainLine htokens hops

end Sys2Proof.Machine
end

section
/-! PROOFS. The obligations on disassembly (spec 92 D16). -/

namespace Sys2Proof.Machine

/-- The line of an admitted instruction is read back from its characters and gives the instruction. -/
theorem lineOf_roundTrip {c : Config} {i : Instr} {l : AsmLine} (q : Bool) (hadmitted : admitted c i = true)
    (hl : lineOf i = some l) : assemble c q l = .ok i ∧ readLine (printLine l) = .ok l := by
  obtain ⟨hwf, hset, hfault⟩ := (admitted_iff c i).mp hadmitted
  cases i with
  | vaddA32 o | vaddT32 o =>
    cases hl
    refine ⟨?_, readLine_vaddLine o⟩
    rw [assemble_vaddLine q hfault, ← hset]
    rfl
  | vsubwA32 o | vsubwT32 o =>
    cases hl
    refine ⟨?_, readLine_vsubwLine o⟩
    rw [assemble_vsubwLine q hwf hfault, ← hset]
    rfl
  | vmovnA32 o | vmovnT32 o =>
    refine ⟨?_, readLine_vmovnLine hl⟩
    rw [assemble_vmovnLine q hfault hl, ← hset]
    rfl
  | vld1OneA32 o | vld1OneT32 o | vld1TwoA32 o | vld1TwoT32 o | vld1ThreeA32 o | vld1ThreeT32 o | vld1FourA32 o
  | vld1FourT32 o =>
    cases hl
    exact ⟨assemble_vld1Line q (by rw [← hset]; rfl) (by decide) hwf hfault, readLine_vld1Line (by decide) o⟩

/-- Settles O46: each operand is read back from its text, and a word is that of the instruction it decodes to. -/
theorem assembleInvertsDisassemble : Obligations.AssembleInvertsDisassemble := by
  have line {c : Config} (q : Bool) {i : Instr} {l : AsmLine} (h : disassemble c i = some l) :
      assemble c q l = .ok i ∧ readLine (printLine l) = .ok l := by
    unfold disassemble at h
    split at h
    · next hadmitted => exact lineOf_roundTrip q hadmitted h
    · cases h
  refine ⟨fun c q i l h => line q h, fun c q w cs h => ?_⟩
  unfold disassembleText at h
  split at h
  · cases h
  · next i hdecode =>
    obtain ⟨l, hl, rfl⟩ := Option.map_eq_some_iff.mp h
    obtain ⟨hassemble, hread⟩ := line q hl
    obtain ⟨hword, -, -⟩ := encode_of_decode hdecode
    simp only [assembleText, hread, hassemble, hword]

/-- Settles O47: a size that VMOVN admits has a double to print, and every other instruction is printed as it is. -/
theorem everyAdmittedInstructionHasALine : Obligations.EveryAdmittedInstructionHasALine := by
  have line {c : Config} {i : Instr} (h : admitted c i = true) : ∃ l, disassemble c i = some l := by
    rw [disassemble, if_pos h]
    obtain ⟨-, -, hfault⟩ := (admitted_iff c i).mp h
    cases i with
    | vmovnA32 o | vmovnT32 o =>
      obtain ⟨-, hsize, -⟩ := (vmovnFault?_none_iff _ _).mp hfault
      obtain ⟨k, hk⟩ := exists_doubleSize (k := o.size) (by revert hsize; cases o.size <;> decide)
      exact ⟨_, Option.map_eq_some_iff.mpr ⟨k, hk, rfl⟩⟩
    | vaddA32 | vaddT32 | vsubwA32 | vsubwT32 => exact ⟨_, rfl⟩
    | vld1OneA32 | vld1OneT32 | vld1TwoA32 | vld1TwoT32 | vld1ThreeA32 | vld1ThreeT32 | vld1FourA32 | vld1FourT32 =>
      exact ⟨_, rfl⟩
  refine ⟨fun c i h => line h, fun c w i hdecode h => ?_⟩
  obtain ⟨l, hl⟩ := line h
  exact ⟨l, hl, by simp only [disassembleText, hdecode, hl, Option.map_some]⟩

end Sys2Proof.Machine
end

section
/-! PROOFS. Letter case, the Q suffix and the omitted destination (spec 40 R60, R64, R68, 00 R161). -/

namespace Sys2Proof.Machine

/-! ## Letter case (40 R60) -/

/-- A blank is a blank in either letter case. -/
theorem dropWhile_blank_upcase (cs : List Char) :
    (cs.map upcase).dropWhile (· = ' ') = (cs.dropWhile (· = ' ')).map upcase := by
  rw [List.dropWhile_map]
  simp only [Function.comp_def, upcase_eq_blank]

/-- The mnemonic part in capitals ends at the same blank, where the operand part begins. -/
theorem takeWhile_dropWhile_upcase (cs : List Char) :
    (cs.map upcase).takeWhile (· ≠ ' ') = (cs.takeWhile (· ≠ ' ')).map upcase ∧
      (cs.map upcase).dropWhile (· ≠ ' ') = (cs.dropWhile (· ≠ ' ')).map upcase := by
  rw [List.takeWhile_map, List.dropWhile_map]
  simp only [Function.comp_def, ne_eq, upcase_eq_blank, and_self]

theorem readLine_upcase (cs : List Char) : readLine (cs.map upcase) = readLine cs := by
  unfold readLine
  dsimp only
  rw [dropWhile_blank_upcase]
  obtain ⟨hhead, hrest⟩ := takeWhile_dropWhile_upcase (cs.dropWhile (· = ' '))
  rw [hhead, hrest, readTokens_upcase, List.map_map]
  simp only [Function.comp_def, upcase_upcase]

/-! ## The Q suffix (40 R68) -/

/-- Lines that differ in the suffix alone, and pass the suffix's test or fail it together, assemble alike. -/
theorem assemble_qSuffix_congr {c : Config} {q : Bool} {l : AsmLine} {b b' : Bool}
    (h : checkQSuffix q { l with qSuffix := b } = checkQSuffix q { l with qSuffix := b' }) :
    assemble c q { l with qSuffix := b } = assemble c q { l with qSuffix := b' } := by
  unfold assemble
  rw [h]
  rfl

/-- A line with the suffix that assembles is a VADD, where the suffix is accepted. -/
theorem vadd_of_qSuffix {c : Config} {q : Bool} {l : AsmLine} {i : Instr}
    (h : assemble c q { l with qSuffix := true } = .ok i) : q = true ∧ l.mnemonic = .vadd := by
  obtain ⟨-, hsuffix, -⟩ := assemble_ok h
  unfold checkQSuffix at hsuffix
  simp only [Bool.not_true, Bool.false_eq_true, if_false] at hsuffix
  split at hsuffix
  · cases hsuffix
  · next hok => simpa using hok

/-- Where the suffix stands on a VADD of vector registers it asks each to be a quadword register. -/
theorem checkQSuffix_vadd {l : AsmLine} {rs : List VecReg} (hm : l.mnemonic = .vadd) (hops : l.operands = .vectors rs) :
    checkQSuffix true { l with qSuffix := true } =
      if rs.all (fun r => r.kind = .q) then .ok () else .error .qSuffixNeedsQuadwords := by
  simp [checkQSuffix, hm, hops]

/-- No line of the disassembler has the suffix (92 D16). -/
theorem qSuffix_of_lineOf {i : Instr} {l : AsmLine} (h : lineOf i = some l) : l.qSuffix = false := by
  cases i with
  | vmovnA32 o | vmovnT32 o =>
    obtain ⟨k, -, rfl⟩ := Option.map_eq_some_iff.mp h
    rfl
  | vaddA32 | vaddT32 | vsubwA32 | vsubwT32 | vld1OneA32 | vld1OneT32 | vld1TwoA32 | vld1TwoT32 | vld1ThreeA32
  | vld1ThreeT32 | vld1FourA32 | vld1FourT32 =>
    cases h
    rfl

/-! ## The omitted destination (40 R64) -/

/-- Repeating the first register makes no difference to the suffix's test. -/
theorem checkQSuffix_repeat (q : Bool) (l : AsmLine) (a b : VecReg) :
    checkQSuffix q { l with operands := .vectors [a, b] } =
      checkQSuffix q { l with operands := .vectors [a, a, b] } := by
  simp [checkQSuffix]

end Sys2Proof.Machine
end

section
/-! PROOFS. The obligations on letter case, the Q suffix and the omitted destination (spec 40 R60, R64, R68). -/

namespace Sys2Proof.Machine

/-- Settles O58: the reader of lines turns every letter into its capital. -/
theorem letterCaseIsImmaterial : Obligations.LetterCaseIsImmaterial := by
  intro c q cs
  simp only [assembleText, readLine_upcase]

/-- Settles O50: the suffix is looked at in `checkQSuffix` alone. -/
theorem qSuffixAddsNothing : Obligations.QSuffixAddsNothing := by
  refine ⟨fun c l rs hm hops => ⟨fun hquad => ?_, ?_⟩, fun c l i h => ?_, fun c q l i hm h => ?_, fun _ _ => rfl,
    fun _ _ => rfl, fun c i l h => qSuffix_of_lineOf (lineOf_of_disassemble h)⟩
  · refine assemble_qSuffix_congr ?_
    rw [checkQSuffix_vadd hm hops, if_pos (by simpa using hquad)]
    rfl
  · rintro ⟨r, hr, hkind⟩ i h
    obtain ⟨-, hsuffix, -⟩ := assemble_ok h
    rw [checkQSuffix_vadd hm hops, if_neg (by simpa using ⟨r, hr, hkind⟩)] at hsuffix
    cases hsuffix
  · obtain ⟨hq, -⟩ := vadd_of_qSuffix h
    cases hq
  · obtain ⟨-, hvadd⟩ := vadd_of_qSuffix h
    exact hm hvadd

/-- Settles O49: two registers are read as three, the first of them twice. -/
theorem omittedDestinationIsFirstSource : Obligations.OmittedDestinationIsFirstSource := by
  intro c q l a b hm
  have hvadd (dt : DataType) : asmVadd c dt [a, b] = asmVadd c dt [a, a, b] := rfl
  have hvsubw (dt : DataType) : asmVsubw c dt [a, b] = asmVsubw c dt [a, a, b] := rfl
  unfold assemble
  rw [checkQSuffix_repeat]
  obtain hm | hm := hm <;> simp only [hm, hvadd, hvsubw] <;> rfl

end Sys2Proof.Machine
end

section
/-! PROOFS. MemRead and MemWrite (spec 20 R31, R32, R35; 60 R124), and saturation (spec 40 R66). -/

namespace Sys2Proof.Machine

variable {s : State} {addr : Word} {n : Nat}

/-! ## MemRead (20 R32) -/

/-- A block is loaded exactly when it fits and every byte of it is present. -/
theorem exists_loadBlock_iff (s : State) (addr : Word) (n : Nat) : (∃ bs, s.loadBlock addr n = .ok bs) ↔
    addr.toNat + n ≤ 2 ^ 32 ∧ ∀ k, k < n → (s.mem.byte? (addr.toNat + k)).isSome = true := by
  constructor
  · rintro ⟨bs, h⟩
    obtain ⟨hfit, hlength, hbytes⟩ := (loadBlock_ok_iff s addr n bs).mp h
    refine ⟨hfit, fun k hk => ?_⟩
    rw [hbytes k (by omega)]
    rfl
  · rintro ⟨hfit, hall⟩
    exact exists_loadBlock hfit hall

theorem memRead_ok_iff (v : BitVec (8 * n)) : s.memRead addr n = .ok v ↔
    ∃ bs, s.loadBlock addr n = .ok bs ∧ v = orderedValue s.config.bigEndian (8 * n) bs := by
  unfold State.memRead
  cases s.loadBlock addr n <;> simp [eq_comm]

/-- Byte `k` of what is read is the byte of memory that the byte order puts there. -/
theorem byte_of_memRead {v : BitVec (8 * n)} (h : s.memRead addr n = .ok v) {k : Nat} (hk : k < n) :
    some (elem v k 8) = s.mem.byte? (addr.toNat + (if s.config.bigEndian then n - 1 - k else k)) := by
  obtain ⟨bs, hload, rfl⟩ := (memRead_ok_iff v).mp h
  obtain ⟨-, hlength, -⟩ := (loadBlock_ok_iff s addr n bs).mp hload
  rw [elem_orderedValue _ hlength hk le_rfl, getElem?_of_loadBlock hload (bytePlace_lt _ hk)]

/-! ## MemWrite (20 R32, 60 R124) -/

theorem memWrite_ok_iff (v : BitVec (8 * n)) (t : State) : s.memWrite addr n v = .ok t ↔
    (∃ bs, s.loadBlock addr n = .ok bs) ∧
      t = { s with mem := s.mem.putBytes addr.toNat (orderedBytes s.config.bigEndian n v) } := by
  unfold State.memWrite
  cases s.loadBlock addr n <;> simp [eq_comm]

/-- A write to a block that is not loaded is the fault of its loading. -/
theorem memWrite_of_loadBlock_error {f : Fault} (h : s.loadBlock addr n = .error f) (v : BitVec (8 * n)) :
    s.memWrite addr n v = .error f := by
  rw [State.memWrite, h]

@[simp] theorem length_orderedBytes (be : Bool) {w : Nat} (n : Nat) (v : BitVec w) :
    (orderedBytes be n v).length = n := by
  cases be <;> simp [orderedBytes]

/-- The byte order puts byte `k` of a value where it is read from. -/
theorem getElem?_orderedBytes (be : Bool) {w k : Nat} (v : BitVec w) (hk : k < n) :
    (orderedBytes be n v)[if be then n - 1 - k else k]? = some (elem v k 8) := by
  cases be with
  | false => simp [orderedBytes, hk]
  | true =>
    have hplace : n - 1 - (n - 1 - k) = k := by omega
    simp [orderedBytes, hplace, show n - 1 - k < n by omega]

/-- The bytes of a value are read as the value (20 R32). -/
theorem orderedValue_orderedBytes (be : Bool) (v : BitVec (8 * n)) :
    orderedValue be (8 * n) (orderedBytes be n v) = v :=
  eq_of_elems (size := 8) n (Nat.mul_comm 8 n) (by decide) fun k hk => Option.some.inj <|
    (elem_orderedValue be (length_orderedBytes be n v) hk le_rfl).trans (getElem?_orderedBytes be v hk)

/-- The block that was written holds the bytes that were written. -/
theorem loadBlock_putBytes (s : State) {bs : List Byte} (hfit : addr.toNat + bs.length ≤ 2 ^ 32) :
    State.loadBlock { s with mem := s.mem.putBytes addr.toNat bs } addr bs.length = .ok bs := by
  refine (loadBlock_ok_iff _ _ _ _).mpr ⟨hfit, rfl, fun k hk => ?_⟩
  rw [byte?_putBytes, dif_pos (by omega)]
  simp only [Nat.add_sub_cancel_left]

/-! ## Saturation (40 R66) -/

theorem elemMin_le_elemMax (isSigned : Bool) (esize : Nat) : elemMin isSigned esize ≤ elemMax isSigned esize := by
  have hhalf : (0 : Int) < 2 ^ (esize - 1) := by positivity
  have hwhole : (0 : Int) < 2 ^ esize := by positivity
  cases isSigned with
  | true =>
    simp only [elemMin, elemMax, if_true]
    omega
  | false =>
    simp only [elemMin, elemMax, Bool.false_eq_true, if_false]
    omega

/-- Clamping to a range that is not empty. -/
theorem saturate_cases (isSigned : Bool) (esize : Nat) (r : Int) :
    (elemMin isSigned esize ≤ r → r ≤ elemMax isSigned esize → saturate isSigned esize r = r) ∧
    (r < elemMin isSigned esize → saturate isSigned esize r = elemMin isSigned esize) ∧
    (elemMax isSigned esize < r → saturate isSigned esize r = elemMax isSigned esize) := by
  have hrange := elemMin_le_elemMax isSigned esize
  unfold saturate
  omega

end Sys2Proof.Machine
end

section
/-! PROOFS. The obligations on memory and modifiers (spec 20 R31, R32, R35; 40 R66; 60 R124). -/

namespace Sys2Proof.Machine

/-- Settles O40: MemRead is a block load, its bytes put in order. -/
theorem memReadFollowsTheByteOrder : Obligations.MemReadFollowsTheByteOrder := by
  refine fun s addr n => ⟨?_, fun v h k hk => byte_of_memRead h hk⟩
  rw [← exists_loadBlock_iff]
  constructor
  · rintro ⟨v, h⟩
    obtain ⟨bs, hload, -⟩ := (memRead_ok_iff v).mp h
    exact ⟨bs, hload⟩
  · rintro ⟨bs, hload⟩
    exact ⟨_, (memRead_ok_iff _).mpr ⟨bs, hload, rfl⟩⟩

/-- Settles O41: MemWrite loads the block before it writes one, and what it writes is what MemRead puts together. -/
theorem memWriteIsReadBack : Obligations.MemWriteIsReadBack := by
  refine fun s addr n v => ⟨?_, fun hwrap => memWrite_of_loadBlock_error (loadBlock_of_wrap hwrap) v,
    fun k hfit hk habsent hlow => memWrite_of_loadBlock_error (loadBlock_of_absent hfit hk habsent hlow) v,
    fun t h => ?_⟩
  · simp only [memWrite_ok_iff, exists_and_left, exists_eq, and_true, exists_loadBlock_iff]
  · obtain ⟨hloads, rfl⟩ := (memWrite_ok_iff v t).mp h
    obtain ⟨hfit, -⟩ := (exists_loadBlock_iff s addr n).mp hloads
    have hload := loadBlock_putBytes (addr := addr) s (bs := orderedBytes s.config.bigEndian n v) (by simpa using hfit)
    rw [length_orderedBytes] at hload
    refine ⟨(memRead_ok_iff v).mpr ⟨_, hload, (orderedValue_orderedBytes _ v).symm⟩, fun a ha => ?_, rfl⟩
    rw [byte?_putBytes, dif_neg (by rw [length_orderedBytes]; omega)]

/-- Settles O45: the range is not empty, and what is clamped has changed. -/
theorem saturationClampsToTheRange : Obligations.SaturationClampsToTheRange := by
  rintro isSigned esize low high r - hlow hhigh
  obtain rfl : low = elemMin isSigned esize := hlow
  obtain rfl : high = elemMax isSigned esize := hhigh
  have hrange := elemMin_le_elemMax isSigned esize
  obtain ⟨hin, hbelow, habove⟩ := saturate_cases isSigned esize r
  refine ⟨fun h h' => ⟨hin h h', ?_⟩, fun h => ⟨hbelow h, ?_⟩, fun h => ⟨habove h, ?_⟩⟩
  · simp [saturated, hin h h']
  · simp [saturated, hbelow h, h.ne']
  · simp [saturated, habove h, h.ne]

end Sys2Proof.Machine
end
